-- ==== Sys2Proof/Word.lean ====
section
/-! DEFINITION. The machine's words: 32-bit values, bytes and halfwords (spec 00_scope.md R6, R9). -/

namespace Sys2Proof

/-- A 32-bit value: a general register, `hi`, `lo`, `pc`, a virtual or a physical address (R6, R9). -/
abbrev Word := BitVec 32

/-- One byte of a device (R44). -/
abbrev Byte := BitVec 8

/-- A halfword, the unit of `lh`, `lhu` and `sh` (R47). -/
abbrev Half := BitVec 16

/-- A general-register index: always a 5-bit field or the fixed index 31, so it lies in 0..31 (R20, R22). -/
abbrev Reg := BitVec 5

end Sys2Proof
end

