-- ==== Sys2Proof/Machine/Flags.lean ====
section
/-! DEFINITION. CORE has no status flags and no condition codes (spec 10_state.md R30). This file holds what stands where
other machines have flags: the signed-overflow tests, the comparisons, and the value 0 or 1 that a comparison writes
(41_alu.md R120; 43_control.md R185-R192). Each converts to integers, computes exactly, and compares. -/

namespace Sys2Proof.Machine

/-- Whether an exact integer lies in [-2^31, 2^31-1] (R120). -/
def fitsS32 (n : Int) : Bool := decide (-2147483648 ≤ n ∧ n ≤ 2147483647)

/-- Signed overflow of `a + b` (R120). -/
def addOverflows (a b : Word) : Bool := !fitsS32 (a.toInt + b.toInt)

/-- Signed overflow of `a - b` (R120). -/
def subOverflows (a b : Word) : Bool := !fitsS32 (a.toInt - b.toInt)

/-- `s32(a) < s32(b)` (R140, R141). -/
def ltSigned (a b : Word) : Bool := decide (a.toInt < b.toInt)

/-- `uint(a) < uint(b)` (R142, R143). -/
def ltUnsigned (a b : Word) : Bool := decide (a.toNat < b.toNat)

/-- `s32(a) >= 0` (R187, R191). -/
def geZero (a : Word) : Bool := decide (0 ≤ a.toInt)

/-- `s32(a) > 0` (R188). -/
def gtZero (a : Word) : Bool := decide (0 < a.toInt)

/-- `s32(a) <= 0` (R189). -/
def leZero (a : Word) : Bool := decide (a.toInt ≤ 0)

/-- `s32(a) < 0` (R190, R192). -/
def ltZero (a : Word) : Bool := decide (a.toInt < 0)

/-- The value a comparison writes: exactly 0 or 1 (R120). -/
def setIf (c : Bool) : Word := if c then 1 else 0

end Sys2Proof.Machine
end

