-- ==== Sys2Proof/Syntax.lean ====
section
/-! DEFINITION. The instructions: one constructor per row of spec/opcode_table.json, in the table's order, with the
operands in the order of the assembler (spec 30_encoding.md R71, R84). `rs`, `rt`, `rd` are register indices; `imm` and
`offset` are the raw 16 bits of the word; `target`, `code` and `cofun` are the raw bits too; `shamt` is a count. -/

namespace Sys2Proof

/-- An instruction of CORE (R79, R83). `break_` is the table's `break`, a word Lean keeps for itself. -/
inductive Instr where
  /-- `sll rd, rt, shamt`: shift left logical by an immediate (R134). -/
  | sll (rd : Reg) (rt : Reg) (shamt : Nat)
  /-- `srl rd, rt, shamt`: shift right logical by an immediate (R136). -/
  | srl (rd : Reg) (rt : Reg) (shamt : Nat)
  /-- `sra rd, rt, shamt`: shift right arithmetic by an immediate (R138). -/
  | sra (rd : Reg) (rt : Reg) (shamt : Nat)
  /-- `sllv rd, rt, rs`: shift left logical by a register (R135). -/
  | sllv (rd : Reg) (rt : Reg) (rs : Reg)
  /-- `srlv rd, rt, rs`: shift right logical by a register (R137). -/
  | srlv (rd : Reg) (rt : Reg) (rs : Reg)
  /-- `srav rd, rt, rs`: shift right arithmetic by a register (R139). -/
  | srav (rd : Reg) (rt : Reg) (rs : Reg)
  /-- `jr rs`: jump register (R196). -/
  | jr (rs : Reg)
  /-- `jalr rd, rs`: jump and link register (R197). -/
  | jalr (rd : Reg) (rs : Reg)
  /-- `syscall code`: system call (R250). -/
  | syscall (code : BitVec 20)
  /-- `break code`: breakpoint (R251). -/
  | break_ (code : BitVec 20)
  /-- `mfhi rd`: move from `hi` (R165). -/
  | mfhi (rd : Reg)
  /-- `mthi rs`: move to `hi` (R167). -/
  | mthi (rs : Reg)
  /-- `mflo rd`: move from `lo` (R166). -/
  | mflo (rd : Reg)
  /-- `mtlo rs`: move to `lo` (R168). -/
  | mtlo (rs : Reg)
  /-- `mult rs, rt`: signed multiply (R161). -/
  | mult (rs : Reg) (rt : Reg)
  /-- `multu rs, rt`: unsigned multiply (R162). -/
  | multu (rs : Reg) (rt : Reg)
  /-- `div rs, rt`: signed divide (R163). -/
  | div (rs : Reg) (rt : Reg)
  /-- `divu rs, rt`: unsigned divide (R164). -/
  | divu (rs : Reg) (rt : Reg)
  /-- `add rd, rs, rt`: add, trapping on signed overflow (R121). -/
  | add (rd : Reg) (rs : Reg) (rt : Reg)
  /-- `addu rd, rs, rt`: add, wrapping (R124). -/
  | addu (rd : Reg) (rs : Reg) (rt : Reg)
  /-- `sub rd, rs, rt`: subtract, trapping on signed overflow (R123). -/
  | sub (rd : Reg) (rs : Reg) (rt : Reg)
  /-- `subu rd, rs, rt`: subtract, wrapping (R126). -/
  | subu (rd : Reg) (rs : Reg) (rt : Reg)
  /-- `and rd, rs, rt`: bitwise AND (R127). -/
  | and (rd : Reg) (rs : Reg) (rt : Reg)
  /-- `or rd, rs, rt`: bitwise OR (R129). -/
  | or (rd : Reg) (rs : Reg) (rt : Reg)
  /-- `xor rd, rs, rt`: bitwise exclusive OR (R132). -/
  | xor (rd : Reg) (rs : Reg) (rt : Reg)
  /-- `nor rd, rs, rt`: bitwise NOR (R131). -/
  | nor (rd : Reg) (rs : Reg) (rt : Reg)
  /-- `slt rd, rs, rt`: set on less than, signed (R140). -/
  | slt (rd : Reg) (rs : Reg) (rt : Reg)
  /-- `sltu rd, rs, rt`: set on less than, unsigned (R142). -/
  | sltu (rd : Reg) (rs : Reg) (rt : Reg)
  /-- `bltz rs, offset`: branch if less than zero (R190). -/
  | bltz (rs : Reg) (offset : BitVec 16)
  /-- `bgez rs, offset`: branch if greater than or equal to zero (R187). -/
  | bgez (rs : Reg) (offset : BitVec 16)
  /-- `bltzal rs, offset`: branch if less than zero, and link (R192). -/
  | bltzal (rs : Reg) (offset : BitVec 16)
  /-- `bgezal rs, offset`: branch if greater than or equal to zero, and link (R191). -/
  | bgezal (rs : Reg) (offset : BitVec 16)
  /-- `j target`: jump (R193). -/
  | j (target : BitVec 26)
  /-- `jal target`: jump and link (R194). -/
  | jal (target : BitVec 26)
  /-- `beq rs, rt, offset`: branch if equal (R185). -/
  | beq (rs : Reg) (rt : Reg) (offset : BitVec 16)
  /-- `bne rs, rt, offset`: branch if not equal (R186). -/
  | bne (rs : Reg) (rt : Reg) (offset : BitVec 16)
  /-- `blez rs, offset`: branch if less than or equal to zero (R189). -/
  | blez (rs : Reg) (offset : BitVec 16)
  /-- `bgtz rs, offset`: branch if greater than zero (R188). -/
  | bgtz (rs : Reg) (offset : BitVec 16)
  /-- `addi rt, rs, imm`: add a sign-extended immediate, trapping on signed overflow (R122). -/
  | addi (rt : Reg) (rs : Reg) (imm : BitVec 16)
  /-- `addiu rt, rs, imm`: add a sign-extended immediate, wrapping (R125). -/
  | addiu (rt : Reg) (rs : Reg) (imm : BitVec 16)
  /-- `slti rt, rs, imm`: set on less than a sign-extended immediate, signed (R141). -/
  | slti (rt : Reg) (rs : Reg) (imm : BitVec 16)
  /-- `sltiu rt, rs, imm`: set on less than a sign-extended immediate, compared unsigned (R143). -/
  | sltiu (rt : Reg) (rs : Reg) (imm : BitVec 16)
  /-- `andi rt, rs, imm`: bitwise AND with a zero-extended immediate (R128). -/
  | andi (rt : Reg) (rs : Reg) (imm : BitVec 16)
  /-- `ori rt, rs, imm`: bitwise OR with a zero-extended immediate (R130). -/
  | ori (rt : Reg) (rs : Reg) (imm : BitVec 16)
  /-- `xori rt, rs, imm`: bitwise exclusive OR with a zero-extended immediate (R133). -/
  | xori (rt : Reg) (rs : Reg) (imm : BitVec 16)
  /-- `lui rt, imm`: load upper immediate (R144). -/
  | lui (rt : Reg) (imm : BitVec 16)
  /-- `lb rt, offset(rs)`: load byte, sign-extended (R214). -/
  | lb (rt : Reg) (offset : BitVec 16) (rs : Reg)
  /-- `lh rt, offset(rs)`: load halfword, sign-extended (R216). -/
  | lh (rt : Reg) (offset : BitVec 16) (rs : Reg)
  /-- `lwl rt, offset(rs)`: load word left (R219). -/
  | lwl (rt : Reg) (offset : BitVec 16) (rs : Reg)
  /-- `lw rt, offset(rs)`: load word (R218). -/
  | lw (rt : Reg) (offset : BitVec 16) (rs : Reg)
  /-- `lbu rt, offset(rs)`: load byte, zero-extended (R215). -/
  | lbu (rt : Reg) (offset : BitVec 16) (rs : Reg)
  /-- `lhu rt, offset(rs)`: load halfword, zero-extended (R217). -/
  | lhu (rt : Reg) (offset : BitVec 16) (rs : Reg)
  /-- `lwr rt, offset(rs)`: load word right (R220). -/
  | lwr (rt : Reg) (offset : BitVec 16) (rs : Reg)
  /-- `sb rt, offset(rs)`: store byte (R221). -/
  | sb (rt : Reg) (offset : BitVec 16) (rs : Reg)
  /-- `sh rt, offset(rs)`: store halfword (R222). -/
  | sh (rt : Reg) (offset : BitVec 16) (rs : Reg)
  /-- `swl rt, offset(rs)`: store word left (R224). -/
  | swl (rt : Reg) (offset : BitVec 16) (rs : Reg)
  /-- `sw rt, offset(rs)`: store word (R223). -/
  | sw (rt : Reg) (offset : BitVec 16) (rs : Reg)
  /-- `swr rt, offset(rs)`: store word right (R225). -/
  | swr (rt : Reg) (offset : BitVec 16) (rs : Reg)
  /-- `tlbr`: read indexed TLB entry (R252). -/
  | tlbr
  /-- `tlbwi`: write indexed TLB entry (R253). -/
  | tlbwi
  /-- `tlbwr`: write random TLB entry (R254). -/
  | tlbwr
  /-- `tlbp`: probe the TLB (R255). -/
  | tlbp
  /-- `rfe`: restore from exception (R264). -/
  | rfe
  /-- `mfc0 rt, rd`: move from coprocessor 0 data register (R257). -/
  | mfc0 (rt : Reg) (rd : Reg)
  /-- `cfc0 rt, rd`: move from coprocessor 0 control register (R258). -/
  | cfc0 (rt : Reg) (rd : Reg)
  /-- `mtc0 rt, rd`: move to coprocessor 0 data register (R259). -/
  | mtc0 (rt : Reg) (rd : Reg)
  /-- `ctc0 rt, rd`: move to coprocessor 0 control register (R260). -/
  | ctc0 (rt : Reg) (rd : Reg)
  /-- `bc0f offset`: branch on coprocessor 0 condition false (R261). -/
  | bc0f (offset : BitVec 16)
  /-- `bc0t offset`: branch on coprocessor 0 condition true (R262). -/
  | bc0t (offset : BitVec 16)
  /-- `lwc0 rt, offset(rs)`: load word to coprocessor 0 (R265). -/
  | lwc0 (rt : Reg) (offset : BitVec 16) (rs : Reg)
  /-- `swc0 rt, offset(rs)`: store word from coprocessor 0 (R266). -/
  | swc0 (rt : Reg) (offset : BitVec 16) (rs : Reg)
  /-- `mfc1 rt, rd`: move from coprocessor 1 data register (R257). -/
  | mfc1 (rt : Reg) (rd : Reg)
  /-- `cfc1 rt, rd`: move from coprocessor 1 control register (R258). -/
  | cfc1 (rt : Reg) (rd : Reg)
  /-- `mtc1 rt, rd`: move to coprocessor 1 data register (R259). -/
  | mtc1 (rt : Reg) (rd : Reg)
  /-- `ctc1 rt, rd`: move to coprocessor 1 control register (R260). -/
  | ctc1 (rt : Reg) (rd : Reg)
  /-- `bc1f offset`: branch on coprocessor 1 condition false (R261). -/
  | bc1f (offset : BitVec 16)
  /-- `bc1t offset`: branch on coprocessor 1 condition true (R262). -/
  | bc1t (offset : BitVec 16)
  /-- `cop1 cofun`: coprocessor 1 operation (R263). -/
  | cop1 (cofun : BitVec 25)
  /-- `lwc1 rt, offset(rs)`: load word to coprocessor 1 (R265). -/
  | lwc1 (rt : Reg) (offset : BitVec 16) (rs : Reg)
  /-- `swc1 rt, offset(rs)`: store word from coprocessor 1 (R266). -/
  | swc1 (rt : Reg) (offset : BitVec 16) (rs : Reg)
  /-- `mfc2 rt, rd`: move from coprocessor 2 data register (R257). -/
  | mfc2 (rt : Reg) (rd : Reg)
  /-- `cfc2 rt, rd`: move from coprocessor 2 control register (R258). -/
  | cfc2 (rt : Reg) (rd : Reg)
  /-- `mtc2 rt, rd`: move to coprocessor 2 data register (R259). -/
  | mtc2 (rt : Reg) (rd : Reg)
  /-- `ctc2 rt, rd`: move to coprocessor 2 control register (R260). -/
  | ctc2 (rt : Reg) (rd : Reg)
  /-- `bc2f offset`: branch on coprocessor 2 condition false (R261). -/
  | bc2f (offset : BitVec 16)
  /-- `bc2t offset`: branch on coprocessor 2 condition true (R262). -/
  | bc2t (offset : BitVec 16)
  /-- `cop2 cofun`: coprocessor 2 operation (R263). -/
  | cop2 (cofun : BitVec 25)
  /-- `lwc2 rt, offset(rs)`: load word to coprocessor 2 (R265). -/
  | lwc2 (rt : Reg) (offset : BitVec 16) (rs : Reg)
  /-- `swc2 rt, offset(rs)`: store word from coprocessor 2 (R266). -/
  | swc2 (rt : Reg) (offset : BitVec 16) (rs : Reg)
  /-- `mfc3 rt, rd`: move from coprocessor 3 data register (R257). -/
  | mfc3 (rt : Reg) (rd : Reg)
  /-- `cfc3 rt, rd`: move from coprocessor 3 control register (R258). -/
  | cfc3 (rt : Reg) (rd : Reg)
  /-- `mtc3 rt, rd`: move to coprocessor 3 data register (R259). -/
  | mtc3 (rt : Reg) (rd : Reg)
  /-- `ctc3 rt, rd`: move to coprocessor 3 control register (R260). -/
  | ctc3 (rt : Reg) (rd : Reg)
  /-- `bc3f offset`: branch on coprocessor 3 condition false (R261). -/
  | bc3f (offset : BitVec 16)
  /-- `bc3t offset`: branch on coprocessor 3 condition true (R262). -/
  | bc3t (offset : BitVec 16)
  /-- `cop3 cofun`: coprocessor 3 operation (R263). -/
  | cop3 (cofun : BitVec 25)
  /-- `lwc3 rt, offset(rs)`: load word to coprocessor 3 (R265). -/
  | lwc3 (rt : Reg) (offset : BitVec 16) (rs : Reg)
  /-- `swc3 rt, offset(rs)`: store word from coprocessor 3 (R266). -/
  | swc3 (rt : Reg) (offset : BitVec 16) (rs : Reg)
  deriving DecidableEq, Repr

end Sys2Proof
end

