-- ==== Sys2Proof/WellFormed.lean ====
section
/-! DEFINITION. Which instructions have an encoding (spec 30_encoding.md R71). Every operand but one has exactly the bits
of its field, so its type already holds the check: a register index is 5 bits, an immediate 16, a jump target 26, a
`code` 20 and a `cofun` 25. The immediate shift amount is a count, and must lie in 0..31 (R76). -/

namespace Sys2Proof

/-- R76: an immediate shift amount is `shamt`, 0..31. -/
def shamtOk (shamt : Nat) : Bool := decide (shamt < 32)

/-- The operands fit the fields of the instruction's format (R71, R76). -/
def Instr.wf (i : Instr) : Bool :=
  match i with
  | .sll _ _ shamt => shamtOk shamt
  | .srl _ _ shamt => shamtOk shamt
  | .sra _ _ shamt => shamtOk shamt
  | .sllv _ _ _ => true
  | .srlv _ _ _ => true
  | .srav _ _ _ => true
  | .jr _ => true
  | .jalr _ _ => true
  | .syscall _ => true
  | .break_ _ => true
  | .mfhi _ => true
  | .mthi _ => true
  | .mflo _ => true
  | .mtlo _ => true
  | .mult _ _ => true
  | .multu _ _ => true
  | .div _ _ => true
  | .divu _ _ => true
  | .add _ _ _ => true
  | .addu _ _ _ => true
  | .sub _ _ _ => true
  | .subu _ _ _ => true
  | .and _ _ _ => true
  | .or _ _ _ => true
  | .xor _ _ _ => true
  | .nor _ _ _ => true
  | .slt _ _ _ => true
  | .sltu _ _ _ => true
  | .bltz _ _ => true
  | .bgez _ _ => true
  | .bltzal _ _ => true
  | .bgezal _ _ => true
  | .j _ => true
  | .jal _ => true
  | .beq _ _ _ => true
  | .bne _ _ _ => true
  | .blez _ _ => true
  | .bgtz _ _ => true
  | .addi _ _ _ => true
  | .addiu _ _ _ => true
  | .slti _ _ _ => true
  | .sltiu _ _ _ => true
  | .andi _ _ _ => true
  | .ori _ _ _ => true
  | .xori _ _ _ => true
  | .lui _ _ => true
  | .lb _ _ _ => true
  | .lh _ _ _ => true
  | .lwl _ _ _ => true
  | .lw _ _ _ => true
  | .lbu _ _ _ => true
  | .lhu _ _ _ => true
  | .lwr _ _ _ => true
  | .sb _ _ _ => true
  | .sh _ _ _ => true
  | .swl _ _ _ => true
  | .sw _ _ _ => true
  | .swr _ _ _ => true
  | .tlbr => true
  | .tlbwi => true
  | .tlbwr => true
  | .tlbp => true
  | .rfe => true
  | .mfc0 _ _ => true
  | .cfc0 _ _ => true
  | .mtc0 _ _ => true
  | .ctc0 _ _ => true
  | .bc0f _ => true
  | .bc0t _ => true
  | .lwc0 _ _ _ => true
  | .swc0 _ _ _ => true
  | .mfc1 _ _ => true
  | .cfc1 _ _ => true
  | .mtc1 _ _ => true
  | .ctc1 _ _ => true
  | .bc1f _ => true
  | .bc1t _ => true
  | .cop1 _ => true
  | .lwc1 _ _ _ => true
  | .swc1 _ _ _ => true
  | .mfc2 _ _ => true
  | .cfc2 _ _ => true
  | .mtc2 _ _ => true
  | .ctc2 _ _ => true
  | .bc2f _ => true
  | .bc2t _ => true
  | .cop2 _ => true
  | .lwc2 _ _ _ => true
  | .swc2 _ _ _ => true
  | .mfc3 _ _ => true
  | .cfc3 _ _ => true
  | .mtc3 _ _ => true
  | .ctc3 _ _ => true
  | .bc3f _ => true
  | .bc3t _ => true
  | .cop3 _ => true
  | .lwc3 _ _ _ => true
  | .swc3 _ _ _ => true

end Sys2Proof
end

