-- ==== Sys2Proof/Decode.lean ====
section
/-! DEFINITION. Decoding and encoding (spec 30_encoding.md). Every encoding is the spec's decision D32: the standard
MIPS I encodings (R71-R81, marked general knowledge there). Decoding is total: it answers one instruction, or an error by name
(R79, D4, D5). -/

namespace Sys2Proof

/-! ### Fields (R71) -/

/-- `op`, bits [31:26]. -/
def opF (w : Word) : BitVec 6 := w.extractLsb' 26 6
/-- `rs`, bits [25:21]. -/
def rsF (w : Word) : BitVec 5 := w.extractLsb' 21 5
/-- `rt`, bits [20:16]. -/
def rtF (w : Word) : BitVec 5 := w.extractLsb' 16 5
/-- `rd`, bits [15:11]. -/
def rdF (w : Word) : BitVec 5 := w.extractLsb' 11 5
/-- `shamt`, bits [10:6]. -/
def shamtF (w : Word) : BitVec 5 := w.extractLsb' 6 5
/-- `funct`, bits [5:0]. -/
def functF (w : Word) : BitVec 6 := w.extractLsb' 0 6
/-- `imm16`, bits [15:0]. -/
def immF (w : Word) : BitVec 16 := w.extractLsb' 0 16
/-- `target`, bits [25:0]. -/
def targetF (w : Word) : BitVec 26 := w.extractLsb' 0 26
/-- `code`, bits [25:6]. -/
def codeF (w : Word) : BitVec 20 := w.extractLsb' 6 20
/-- `co`, bit [25]: a coprocessor operation. -/
def coF (w : Word) : BitVec 1 := w.extractLsb' 25 1
/-- `cofun`, bits [24:0]. -/
def cofunF (w : Word) : BitVec 25 := w.extractLsb' 0 25
/-- Bits [10:0], required to be 0 in a coprocessor move (R79). -/
def copLowF (w : Word) : BitVec 11 := w.extractLsb' 0 11
/-- Bits [24:6], required to be 0 in a COP0 operation (R79). -/
def copHighF (w : Word) : BitVec 19 := w.extractLsb' 6 19

/-! ### Decoding (R77-R81) -/

/-- Why bytes do not decode. Each is a `DecodeFault` of the cycle when it is met at fetch (R79, R103). -/
inductive DecodeError where
  /-- Fewer than the 4 bytes every instruction has (R70). Never met by a fetch, which reads a whole word. -/
  | truncated
  /-- A primary opcode the map marks as not decoding (R77). -/
  | reservedOpcode
  /-- A SPECIAL `funct` the map marks as not decoding (R78). -/
  | reservedFunct
  /-- A REGIMM `rt` that names no instruction (R80). -/
  | reservedRegimm
  /-- A coprocessor sub-opcode that names no instruction (R81). -/
  | reservedCop
  /-- A required-zero field that is not zero (R79, D4). -/
  | requiredZero
  deriving DecidableEq, Repr

/-- The instruction, if its required-zero fields are zero (R79, D4: strict decoding). -/
def ifZero (zero : Bool) (i : Instr) : Except DecodeError Instr :=
  if zero then .ok i else .error .requiredZero

/-- The SPECIAL map, by `funct` (R78). -/
def decodeSpecial (w : Word) : Except DecodeError Instr :=
  match functF w with
  | 0x00#6 => ifZero (rsF w == 0) (.sll (rdF w) (rtF w) ((shamtF w).toNat))
  | 0x02#6 => ifZero (rsF w == 0) (.srl (rdF w) (rtF w) ((shamtF w).toNat))
  | 0x03#6 => ifZero (rsF w == 0) (.sra (rdF w) (rtF w) ((shamtF w).toNat))
  | 0x04#6 => ifZero (shamtF w == 0) (.sllv (rdF w) (rtF w) (rsF w))
  | 0x06#6 => ifZero (shamtF w == 0) (.srlv (rdF w) (rtF w) (rsF w))
  | 0x07#6 => ifZero (shamtF w == 0) (.srav (rdF w) (rtF w) (rsF w))
  | 0x08#6 => ifZero (rtF w == 0 && rdF w == 0 && shamtF w == 0) (.jr (rsF w))
  | 0x09#6 => ifZero (rtF w == 0 && shamtF w == 0) (.jalr (rdF w) (rsF w))
  | 0x0C#6 => .ok (.syscall (codeF w))
  | 0x0D#6 => .ok (.break_ (codeF w))
  | 0x10#6 => ifZero (rsF w == 0 && rtF w == 0 && shamtF w == 0) (.mfhi (rdF w))
  | 0x11#6 => ifZero (rtF w == 0 && rdF w == 0 && shamtF w == 0) (.mthi (rsF w))
  | 0x12#6 => ifZero (rsF w == 0 && rtF w == 0 && shamtF w == 0) (.mflo (rdF w))
  | 0x13#6 => ifZero (rtF w == 0 && rdF w == 0 && shamtF w == 0) (.mtlo (rsF w))
  | 0x18#6 => ifZero (rdF w == 0 && shamtF w == 0) (.mult (rsF w) (rtF w))
  | 0x19#6 => ifZero (rdF w == 0 && shamtF w == 0) (.multu (rsF w) (rtF w))
  | 0x1A#6 => ifZero (rdF w == 0 && shamtF w == 0) (.div (rsF w) (rtF w))
  | 0x1B#6 => ifZero (rdF w == 0 && shamtF w == 0) (.divu (rsF w) (rtF w))
  | 0x20#6 => ifZero (shamtF w == 0) (.add (rdF w) (rsF w) (rtF w))
  | 0x21#6 => ifZero (shamtF w == 0) (.addu (rdF w) (rsF w) (rtF w))
  | 0x22#6 => ifZero (shamtF w == 0) (.sub (rdF w) (rsF w) (rtF w))
  | 0x23#6 => ifZero (shamtF w == 0) (.subu (rdF w) (rsF w) (rtF w))
  | 0x24#6 => ifZero (shamtF w == 0) (.and (rdF w) (rsF w) (rtF w))
  | 0x25#6 => ifZero (shamtF w == 0) (.or (rdF w) (rsF w) (rtF w))
  | 0x26#6 => ifZero (shamtF w == 0) (.xor (rdF w) (rsF w) (rtF w))
  | 0x27#6 => ifZero (shamtF w == 0) (.nor (rdF w) (rsF w) (rtF w))
  | 0x2A#6 => ifZero (shamtF w == 0) (.slt (rdF w) (rsF w) (rtF w))
  | 0x2B#6 => ifZero (shamtF w == 0) (.sltu (rdF w) (rsF w) (rtF w))
  | _ => .error .reservedFunct

/-- The REGIMM map, by `rt` (R80). -/
def decodeRegimm (w : Word) : Except DecodeError Instr :=
  match rtF w with
  | 0x00#5 => .ok (.bltz (rsF w) (immF w))
  | 0x01#5 => .ok (.bgez (rsF w) (immF w))
  | 0x10#5 => .ok (.bltzal (rsF w) (immF w))
  | 0x11#5 => .ok (.bgezal (rsF w) (immF w))
  | _ => .error .reservedRegimm

/-- The COPz map for `co` = 0, the same for the four coprocessors, given the instructions of one (R75, R81). -/
def decodeCopMove (mf cf mt ct : Reg → Reg → Instr) (bf bt : BitVec 16 → Instr) (w : Word) : Except DecodeError Instr :=
  match rsF w with
  | 0x00#5 => ifZero (copLowF w == 0) (mf (rtF w) (rdF w))
  | 0x02#5 => ifZero (copLowF w == 0) (cf (rtF w) (rdF w))
  | 0x04#5 => ifZero (copLowF w == 0) (mt (rtF w) (rdF w))
  | 0x06#5 => ifZero (copLowF w == 0) (ct (rtF w) (rdF w))
  | 0x08#5 =>
    match rtF w with
    | 0x00#5 => .ok (bf (immF w))
    | 0x01#5 => .ok (bt (immF w))
    | _ => .error .reservedCop
  | _ => .error .reservedCop

/-- The COP0 operations, `co` = 1, by `funct` with bits [24:6] zero (R75, R79, R81). -/
def decodeCop0Op (w : Word) : Except DecodeError Instr :=
  match functF w with
  | 0x01#6 => ifZero (copHighF w == 0) .tlbr
  | 0x02#6 => ifZero (copHighF w == 0) .tlbwi
  | 0x06#6 => ifZero (copHighF w == 0) .tlbwr
  | 0x08#6 => ifZero (copHighF w == 0) .tlbp
  | 0x10#6 => ifZero (copHighF w == 0) .rfe
  | _ => .error .reservedCop

/-- COP0 (R81). -/
def decodeCop0 (w : Word) : Except DecodeError Instr :=
  if coF w == 1 then decodeCop0Op w else decodeCopMove .mfc0 .cfc0 .mtc0 .ctc0 .bc0f .bc0t w

/-- COP1 (R81). -/
def decodeCop1 (w : Word) : Except DecodeError Instr :=
  if coF w == 1 then .ok (.cop1 (cofunF w)) else decodeCopMove .mfc1 .cfc1 .mtc1 .ctc1 .bc1f .bc1t w

/-- COP2 (R81). -/
def decodeCop2 (w : Word) : Except DecodeError Instr :=
  if coF w == 1 then .ok (.cop2 (cofunF w)) else decodeCopMove .mfc2 .cfc2 .mtc2 .ctc2 .bc2f .bc2t w

/-- COP3 (R81). -/
def decodeCop3 (w : Word) : Except DecodeError Instr :=
  if coF w == 1 then .ok (.cop3 (cofunF w)) else decodeCopMove .mfc3 .cfc3 .mtc3 .ctc3 .bc3f .bc3t w

/-- Decode one word by the primary opcode map (R77, R79). -/
def decodeWord (w : Word) : Except DecodeError Instr :=
  match opF w with
  | 0x00#6 => decodeSpecial w
  | 0x01#6 => decodeRegimm w
  | 0x02#6 => .ok (.j (targetF w))
  | 0x03#6 => .ok (.jal (targetF w))
  | 0x04#6 => .ok (.beq (rsF w) (rtF w) (immF w))
  | 0x05#6 => .ok (.bne (rsF w) (rtF w) (immF w))
  | 0x06#6 => ifZero (rtF w == 0) (.blez (rsF w) (immF w))
  | 0x07#6 => ifZero (rtF w == 0) (.bgtz (rsF w) (immF w))
  | 0x08#6 => .ok (.addi (rtF w) (rsF w) (immF w))
  | 0x09#6 => .ok (.addiu (rtF w) (rsF w) (immF w))
  | 0x0A#6 => .ok (.slti (rtF w) (rsF w) (immF w))
  | 0x0B#6 => .ok (.sltiu (rtF w) (rsF w) (immF w))
  | 0x0C#6 => .ok (.andi (rtF w) (rsF w) (immF w))
  | 0x0D#6 => .ok (.ori (rtF w) (rsF w) (immF w))
  | 0x0E#6 => .ok (.xori (rtF w) (rsF w) (immF w))
  | 0x0F#6 => ifZero (rsF w == 0) (.lui (rtF w) (immF w))
  | 0x10#6 => decodeCop0 w
  | 0x11#6 => decodeCop1 w
  | 0x12#6 => decodeCop2 w
  | 0x13#6 => decodeCop3 w
  | 0x20#6 => .ok (.lb (rtF w) (immF w) (rsF w))
  | 0x21#6 => .ok (.lh (rtF w) (immF w) (rsF w))
  | 0x22#6 => .ok (.lwl (rtF w) (immF w) (rsF w))
  | 0x23#6 => .ok (.lw (rtF w) (immF w) (rsF w))
  | 0x24#6 => .ok (.lbu (rtF w) (immF w) (rsF w))
  | 0x25#6 => .ok (.lhu (rtF w) (immF w) (rsF w))
  | 0x26#6 => .ok (.lwr (rtF w) (immF w) (rsF w))
  | 0x28#6 => .ok (.sb (rtF w) (immF w) (rsF w))
  | 0x29#6 => .ok (.sh (rtF w) (immF w) (rsF w))
  | 0x2A#6 => .ok (.swl (rtF w) (immF w) (rsF w))
  | 0x2B#6 => .ok (.sw (rtF w) (immF w) (rsF w))
  | 0x2E#6 => .ok (.swr (rtF w) (immF w) (rsF w))
  | 0x30#6 => .ok (.lwc0 (rtF w) (immF w) (rsF w))
  | 0x31#6 => .ok (.lwc1 (rtF w) (immF w) (rsF w))
  | 0x32#6 => .ok (.lwc2 (rtF w) (immF w) (rsF w))
  | 0x33#6 => .ok (.lwc3 (rtF w) (immF w) (rsF w))
  | 0x38#6 => .ok (.swc0 (rtF w) (immF w) (rsF w))
  | 0x39#6 => .ok (.swc1 (rtF w) (immF w) (rsF w))
  | 0x3A#6 => .ok (.swc2 (rtF w) (immF w) (rsF w))
  | 0x3B#6 => .ok (.swc3 (rtF w) (immF w) (rsF w))
  | _ => .error .reservedOpcode

/-- Four bytes, the one at the lowest address first, as a little-endian word (R48, R57). -/
def wordOfBytes (b0 b1 b2 b3 : Byte) : Word := b3 ++ b2 ++ b1 ++ b0

/-- The four bytes of a word, the one at the lowest address first (R57). -/
def bytesOfWord (w : Word) : List Byte :=
  [w.extractLsb' 0 8, w.extractLsb' 8 8, w.extractLsb' 16 8, w.extractLsb' 24 8]

/-- Decode the instruction at the head of a byte string, and answer the bytes after it: always exactly 4 bytes
are consumed (R70). Total on any bytes. -/
def decode : List Byte → Except DecodeError (Instr × List Byte)
  | b0 :: b1 :: b2 :: b3 :: rest =>
    match decodeWord (wordOfBytes b0 b1 b2 b3) with
    | .ok i => .ok (i, rest)
    | .error e => .error e
  | _ => .error .truncated

/-- The instruction the decoder reads from the table word `w` of `nbits` bits, laid out as memory holds it
(30_encoding.md R70: one little-endian 32-bit word; every row of the table has 32 bits). -/
def decodeTableWord (nbits w : Nat) : Option Instr :=
  match decode (bytesOfWord (BitVec.ofNat 32 (w % 2 ^ nbits))) with
  | .ok (i, _) => some i
  | .error _ => none

/-! ### Encoding (R72-R75) -/

/-- R format: SPECIAL (R72). -/
def rType (rs rt rd sh : BitVec 5) (funct : BitVec 6) : Word := 0x00#6 ++ rs ++ rt ++ rd ++ sh ++ funct

/-- R format with a `code` (R72). -/
def codeType (code : BitVec 20) (funct : BitVec 6) : Word := 0x00#6 ++ code ++ funct

/-- I format (R73). -/
def iType (op : BitVec 6) (rs rt : BitVec 5) (imm : BitVec 16) : Word := op ++ rs ++ rt ++ imm

/-- J format (R74). -/
def jType (op : BitVec 6) (target : BitVec 26) : Word := op ++ target

/-- Coprocessor move (R75). -/
def copMoveType (op : BitVec 6) (sub rt rd : BitVec 5) : Word := op ++ sub ++ rt ++ rd ++ 0#11

/-- Coprocessor operation (R75). -/
def copOpType (op : BitVec 6) (cofun : BitVec 25) : Word := op ++ 1#1 ++ cofun

/-- COP0 operation: `cofun[24:6]` = 0 (R75). -/
def cop0OpType (funct : BitVec 6) : Word := 0x10#6 ++ 1#1 ++ 0#19 ++ funct

/-- The word of an instruction (R72-R81). An instruction that is not well formed has no encoding; of its shift amount
only the low five bits appear here. -/
def encode (i : Instr) : Word :=
  match i with
  | .sll rd rt shamt => rType 0 rt rd (BitVec.ofNat 5 shamt) 0x00
  | .srl rd rt shamt => rType 0 rt rd (BitVec.ofNat 5 shamt) 0x02
  | .sra rd rt shamt => rType 0 rt rd (BitVec.ofNat 5 shamt) 0x03
  | .sllv rd rt rs => rType rs rt rd 0 0x04
  | .srlv rd rt rs => rType rs rt rd 0 0x06
  | .srav rd rt rs => rType rs rt rd 0 0x07
  | .jr rs => rType rs 0 0 0 0x08
  | .jalr rd rs => rType rs 0 rd 0 0x09
  | .syscall code => codeType code 0x0C
  | .break_ code => codeType code 0x0D
  | .mfhi rd => rType 0 0 rd 0 0x10
  | .mthi rs => rType rs 0 0 0 0x11
  | .mflo rd => rType 0 0 rd 0 0x12
  | .mtlo rs => rType rs 0 0 0 0x13
  | .mult rs rt => rType rs rt 0 0 0x18
  | .multu rs rt => rType rs rt 0 0 0x19
  | .div rs rt => rType rs rt 0 0 0x1A
  | .divu rs rt => rType rs rt 0 0 0x1B
  | .add rd rs rt => rType rs rt rd 0 0x20
  | .addu rd rs rt => rType rs rt rd 0 0x21
  | .sub rd rs rt => rType rs rt rd 0 0x22
  | .subu rd rs rt => rType rs rt rd 0 0x23
  | .and rd rs rt => rType rs rt rd 0 0x24
  | .or rd rs rt => rType rs rt rd 0 0x25
  | .xor rd rs rt => rType rs rt rd 0 0x26
  | .nor rd rs rt => rType rs rt rd 0 0x27
  | .slt rd rs rt => rType rs rt rd 0 0x2A
  | .sltu rd rs rt => rType rs rt rd 0 0x2B
  | .bltz rs offset => iType 0x01 rs 0x00 offset
  | .bgez rs offset => iType 0x01 rs 0x01 offset
  | .bltzal rs offset => iType 0x01 rs 0x10 offset
  | .bgezal rs offset => iType 0x01 rs 0x11 offset
  | .j target => jType 0x02 target
  | .jal target => jType 0x03 target
  | .beq rs rt offset => iType 0x04 rs rt offset
  | .bne rs rt offset => iType 0x05 rs rt offset
  | .blez rs offset => iType 0x06 rs 0 offset
  | .bgtz rs offset => iType 0x07 rs 0 offset
  | .addi rt rs imm => iType 0x08 rs rt imm
  | .addiu rt rs imm => iType 0x09 rs rt imm
  | .slti rt rs imm => iType 0x0A rs rt imm
  | .sltiu rt rs imm => iType 0x0B rs rt imm
  | .andi rt rs imm => iType 0x0C rs rt imm
  | .ori rt rs imm => iType 0x0D rs rt imm
  | .xori rt rs imm => iType 0x0E rs rt imm
  | .lui rt imm => iType 0x0F 0 rt imm
  | .lb rt offset rs => iType 0x20 rs rt offset
  | .lh rt offset rs => iType 0x21 rs rt offset
  | .lwl rt offset rs => iType 0x22 rs rt offset
  | .lw rt offset rs => iType 0x23 rs rt offset
  | .lbu rt offset rs => iType 0x24 rs rt offset
  | .lhu rt offset rs => iType 0x25 rs rt offset
  | .lwr rt offset rs => iType 0x26 rs rt offset
  | .sb rt offset rs => iType 0x28 rs rt offset
  | .sh rt offset rs => iType 0x29 rs rt offset
  | .swl rt offset rs => iType 0x2A rs rt offset
  | .sw rt offset rs => iType 0x2B rs rt offset
  | .swr rt offset rs => iType 0x2E rs rt offset
  | .tlbr => cop0OpType 0x01
  | .tlbwi => cop0OpType 0x02
  | .tlbwr => cop0OpType 0x06
  | .tlbp => cop0OpType 0x08
  | .rfe => cop0OpType 0x10
  | .mfc0 rt rd => copMoveType 0x10 0x00 rt rd
  | .cfc0 rt rd => copMoveType 0x10 0x02 rt rd
  | .mtc0 rt rd => copMoveType 0x10 0x04 rt rd
  | .ctc0 rt rd => copMoveType 0x10 0x06 rt rd
  | .bc0f offset => iType 0x10 0x08 0x00 offset
  | .bc0t offset => iType 0x10 0x08 0x01 offset
  | .lwc0 rt offset rs => iType 0x30 rs rt offset
  | .swc0 rt offset rs => iType 0x38 rs rt offset
  | .mfc1 rt rd => copMoveType 0x11 0x00 rt rd
  | .cfc1 rt rd => copMoveType 0x11 0x02 rt rd
  | .mtc1 rt rd => copMoveType 0x11 0x04 rt rd
  | .ctc1 rt rd => copMoveType 0x11 0x06 rt rd
  | .bc1f offset => iType 0x11 0x08 0x00 offset
  | .bc1t offset => iType 0x11 0x08 0x01 offset
  | .cop1 cofun => copOpType 0x11 cofun
  | .lwc1 rt offset rs => iType 0x31 rs rt offset
  | .swc1 rt offset rs => iType 0x39 rs rt offset
  | .mfc2 rt rd => copMoveType 0x12 0x00 rt rd
  | .cfc2 rt rd => copMoveType 0x12 0x02 rt rd
  | .mtc2 rt rd => copMoveType 0x12 0x04 rt rd
  | .ctc2 rt rd => copMoveType 0x12 0x06 rt rd
  | .bc2f offset => iType 0x12 0x08 0x00 offset
  | .bc2t offset => iType 0x12 0x08 0x01 offset
  | .cop2 cofun => copOpType 0x12 cofun
  | .lwc2 rt offset rs => iType 0x32 rs rt offset
  | .swc2 rt offset rs => iType 0x3A rs rt offset
  | .mfc3 rt rd => copMoveType 0x13 0x00 rt rd
  | .cfc3 rt rd => copMoveType 0x13 0x02 rt rd
  | .mtc3 rt rd => copMoveType 0x13 0x04 rt rd
  | .ctc3 rt rd => copMoveType 0x13 0x06 rt rd
  | .bc3f offset => iType 0x13 0x08 0x00 offset
  | .bc3t offset => iType 0x13 0x08 0x01 offset
  | .cop3 cofun => copOpType 0x13 cofun
  | .lwc3 rt offset rs => iType 0x33 rs rt offset
  | .swc3 rt offset rs => iType 0x3B rs rt offset

/-- The `match` and `mask` of the instruction's row in spec/opcode_table.json, copied from the table: a word is
that row's when `word &&& mask = match` (R79). The decoder above is written from the maps of R77-R81, not from these. -/
def tableRow (i : Instr) : Word × Word :=
  match i with
  | .sll _ _ _ => (0x00000000, 0xFFE0003F)
  | .srl _ _ _ => (0x00000002, 0xFFE0003F)
  | .sra _ _ _ => (0x00000003, 0xFFE0003F)
  | .sllv _ _ _ => (0x00000004, 0xFC0007FF)
  | .srlv _ _ _ => (0x00000006, 0xFC0007FF)
  | .srav _ _ _ => (0x00000007, 0xFC0007FF)
  | .jr _ => (0x00000008, 0xFC1FFFFF)
  | .jalr _ _ => (0x00000009, 0xFC1F07FF)
  | .syscall _ => (0x0000000C, 0xFC00003F)
  | .break_ _ => (0x0000000D, 0xFC00003F)
  | .mfhi _ => (0x00000010, 0xFFFF07FF)
  | .mthi _ => (0x00000011, 0xFC1FFFFF)
  | .mflo _ => (0x00000012, 0xFFFF07FF)
  | .mtlo _ => (0x00000013, 0xFC1FFFFF)
  | .mult _ _ => (0x00000018, 0xFC00FFFF)
  | .multu _ _ => (0x00000019, 0xFC00FFFF)
  | .div _ _ => (0x0000001A, 0xFC00FFFF)
  | .divu _ _ => (0x0000001B, 0xFC00FFFF)
  | .add _ _ _ => (0x00000020, 0xFC0007FF)
  | .addu _ _ _ => (0x00000021, 0xFC0007FF)
  | .sub _ _ _ => (0x00000022, 0xFC0007FF)
  | .subu _ _ _ => (0x00000023, 0xFC0007FF)
  | .and _ _ _ => (0x00000024, 0xFC0007FF)
  | .or _ _ _ => (0x00000025, 0xFC0007FF)
  | .xor _ _ _ => (0x00000026, 0xFC0007FF)
  | .nor _ _ _ => (0x00000027, 0xFC0007FF)
  | .slt _ _ _ => (0x0000002A, 0xFC0007FF)
  | .sltu _ _ _ => (0x0000002B, 0xFC0007FF)
  | .bltz _ _ => (0x04000000, 0xFC1F0000)
  | .bgez _ _ => (0x04010000, 0xFC1F0000)
  | .bltzal _ _ => (0x04100000, 0xFC1F0000)
  | .bgezal _ _ => (0x04110000, 0xFC1F0000)
  | .j _ => (0x08000000, 0xFC000000)
  | .jal _ => (0x0C000000, 0xFC000000)
  | .beq _ _ _ => (0x10000000, 0xFC000000)
  | .bne _ _ _ => (0x14000000, 0xFC000000)
  | .blez _ _ => (0x18000000, 0xFC1F0000)
  | .bgtz _ _ => (0x1C000000, 0xFC1F0000)
  | .addi _ _ _ => (0x20000000, 0xFC000000)
  | .addiu _ _ _ => (0x24000000, 0xFC000000)
  | .slti _ _ _ => (0x28000000, 0xFC000000)
  | .sltiu _ _ _ => (0x2C000000, 0xFC000000)
  | .andi _ _ _ => (0x30000000, 0xFC000000)
  | .ori _ _ _ => (0x34000000, 0xFC000000)
  | .xori _ _ _ => (0x38000000, 0xFC000000)
  | .lui _ _ => (0x3C000000, 0xFFE00000)
  | .lb _ _ _ => (0x80000000, 0xFC000000)
  | .lh _ _ _ => (0x84000000, 0xFC000000)
  | .lwl _ _ _ => (0x88000000, 0xFC000000)
  | .lw _ _ _ => (0x8C000000, 0xFC000000)
  | .lbu _ _ _ => (0x90000000, 0xFC000000)
  | .lhu _ _ _ => (0x94000000, 0xFC000000)
  | .lwr _ _ _ => (0x98000000, 0xFC000000)
  | .sb _ _ _ => (0xA0000000, 0xFC000000)
  | .sh _ _ _ => (0xA4000000, 0xFC000000)
  | .swl _ _ _ => (0xA8000000, 0xFC000000)
  | .sw _ _ _ => (0xAC000000, 0xFC000000)
  | .swr _ _ _ => (0xB8000000, 0xFC000000)
  | .tlbr => (0x42000001, 0xFFFFFFFF)
  | .tlbwi => (0x42000002, 0xFFFFFFFF)
  | .tlbwr => (0x42000006, 0xFFFFFFFF)
  | .tlbp => (0x42000008, 0xFFFFFFFF)
  | .rfe => (0x42000010, 0xFFFFFFFF)
  | .mfc0 _ _ => (0x40000000, 0xFFE007FF)
  | .cfc0 _ _ => (0x40400000, 0xFFE007FF)
  | .mtc0 _ _ => (0x40800000, 0xFFE007FF)
  | .ctc0 _ _ => (0x40C00000, 0xFFE007FF)
  | .bc0f _ => (0x41000000, 0xFFFF0000)
  | .bc0t _ => (0x41010000, 0xFFFF0000)
  | .lwc0 _ _ _ => (0xC0000000, 0xFC000000)
  | .swc0 _ _ _ => (0xE0000000, 0xFC000000)
  | .mfc1 _ _ => (0x44000000, 0xFFE007FF)
  | .cfc1 _ _ => (0x44400000, 0xFFE007FF)
  | .mtc1 _ _ => (0x44800000, 0xFFE007FF)
  | .ctc1 _ _ => (0x44C00000, 0xFFE007FF)
  | .bc1f _ => (0x45000000, 0xFFFF0000)
  | .bc1t _ => (0x45010000, 0xFFFF0000)
  | .cop1 _ => (0x46000000, 0xFE000000)
  | .lwc1 _ _ _ => (0xC4000000, 0xFC000000)
  | .swc1 _ _ _ => (0xE4000000, 0xFC000000)
  | .mfc2 _ _ => (0x48000000, 0xFFE007FF)
  | .cfc2 _ _ => (0x48400000, 0xFFE007FF)
  | .mtc2 _ _ => (0x48800000, 0xFFE007FF)
  | .ctc2 _ _ => (0x48C00000, 0xFFE007FF)
  | .bc2f _ => (0x49000000, 0xFFFF0000)
  | .bc2t _ => (0x49010000, 0xFFFF0000)
  | .cop2 _ => (0x4A000000, 0xFE000000)
  | .lwc2 _ _ _ => (0xC8000000, 0xFC000000)
  | .swc2 _ _ _ => (0xE8000000, 0xFC000000)
  | .mfc3 _ _ => (0x4C000000, 0xFFE007FF)
  | .cfc3 _ _ => (0x4C400000, 0xFFE007FF)
  | .mtc3 _ _ => (0x4C800000, 0xFFE007FF)
  | .ctc3 _ _ => (0x4CC00000, 0xFFE007FF)
  | .bc3f _ => (0x4D000000, 0xFFFF0000)
  | .bc3t _ => (0x4D010000, 0xFFFF0000)
  | .cop3 _ => (0x4E000000, 0xFE000000)
  | .lwc3 _ _ _ => (0xCC000000, 0xFC000000)
  | .swc3 _ _ _ => (0xEC000000, 0xFC000000)

end Sys2Proof
end

