-- ==== Sys2Proof/Config.lean ====
section
/-! DEFINITION. What is fixed for the machine: the sizes and places of its devices, the reset address, and the
parameters the spec leaves open at construction (spec 00_scope.md R6, R7; 20_memory.md R44). -/

namespace Sys2Proof.Config

/-- First physical address of RAM (R44). -/
def ramBase : Nat := 0x00000000

/-- RAM size in bytes, 2 MiB (R6, R44). -/
def ramSize : Nat := 0x200000

/-- First physical address of the scratchpad (R44). -/
def scratchBase : Nat := 0x1F800000

/-- Scratchpad size in bytes, 1 KiB (R6, R44). -/
def scratchSize : Nat := 0x400

/-- First physical address of the BIOS ROM window (R44). -/
def biosBase : Nat := 0x1FC00000

/-- Size of the BIOS ROM window in bytes, 512 KiB; also the greatest length of a BIOS image (R6, R7, R44). -/
def biosWindow : Nat := 0x80000

/-- The reset `pc`, in segment kseg1 (R6, R35). -/
def resetPc : Word := 0xBFC00000

/-- The parameters a machine is constructed from (R7): `INIT_REGS`, `INIT_RAM`, `INIT_SCRATCH` and `BIOS_IMAGE`.
They are arguments of `Machine.construct`; nothing in the model depends on one choice of them.
`EXC_SERVICE`, the fifth parameter, is an argument of `Machine.serviceException`. -/
structure Params where
  /-- Values of `x[1]`..`x[31]` at construction. -/
  gpr : Vector Word 31
  /-- Value of `hi` at construction. -/
  hi : Word
  /-- Value of `lo` at construction. -/
  lo : Word
  /-- RAM bytes at construction, offset 0 first; an offset the list does not reach holds 0. -/
  ram : List Byte
  /-- Scratchpad bytes at construction, offset 0 first; an offset the list does not reach holds 0. -/
  scratch : List Byte
  /-- The BIOS image, offset 0 first; its length is the BIOS device's backing length. -/
  bios : List Byte
  deriving DecidableEq, Repr

/-- The size constraints R7 puts on the parameters: no list is longer than its device. -/
abbrev Params.Fits (p : Params) : Prop :=
  p.ram.length ≤ ramSize ∧ p.scratch.length ≤ scratchSize ∧ p.bios.length ≤ biosWindow

end Sys2Proof.Config
end

