-- ==== Sys2Proof/Machine/State.lean ====
section
/-! DEFINITION. The machine's state, its stops, and the state after construction (spec 10_state.md R20-R36). -/

namespace Sys2Proof.Machine

/-- The ten exception kinds (R280). CORE produces `addressError`, `overflow`, `systemCall`, `breakpoint` and
`reservedInstruction`; the other five are in the taxonomy and no rule produces them (R283). -/
inductive ExcKind where
  | reset | busError | addressError | overflow | systemCall | breakpoint | reservedInstruction
  | coprocessorUnusable | interrupt | debug
  deriving DecidableEq, Repr

/-- The exception report (R281, D2). -/
structure Report where
  /-- What happened. -/
  kind : ExcKind
  /-- The virtual address the instruction was fetched from. -/
  ia : Word
  /-- The offending virtual address, for `addressError` and for no other kind. -/
  badva : Option Word
  deriving DecidableEq, Repr

/-- The status element `halt`: running, or how the core stopped (R29). -/
inductive Halt where
  /-- Cycles can run. -/
  | running
  /-- An exception was produced; nothing services it unless the host does (R286, D1). -/
  | excepted (report : Report)
  /-- The fetched word does not decode (R103, D5). -/
  | decodeFault (word : Word)
  /-- The instruction decoded, and CORE gives it no meaning (R256, D6). -/
  | refused (mnemonic : String)
  /-- An access reached bytes no device backs (R52, D20). -/
  | busFault (pa : Word)
  deriving DecidableEq, Repr

/-- The four segments of the virtual address space (R40). -/
inductive Segment where
  | kuseg | kseg0 | kseg1 | kseg2
  deriving DecidableEq, Repr

/-- The devices of the Bus; every address outside the first three is `unknown` (R44). -/
inductive Device where
  | ram | scratchpad | bios | unknown
  deriving DecidableEq, Repr

/-- What the Bus does with an access, decided by its starting address and its width (R45-R52). -/
inductive Route where
  /-- Every byte is a backed byte of RAM or the scratchpad. -/
  | readWrite
  /-- Every byte is a byte of the BIOS image; a write is dropped (R50). -/
  | readOnly
  /-- The starting address is in no device range: reads 0, writes dropped (R51). -/
  | unknown
  /-- Some byte lies beyond the device's backing bytes (R52). -/
  | unbacked
  deriving DecidableEq, Repr

/-- The device bytes: (physical address, byte) pairs, addresses strictly rising, none of them the byte an unlisted
address holds. The three devices do not overlap (R44), so one list holds them all. -/
abbrev Memory := List Host.Cell

/-- Everything CORE holds (R34). Register 0 has no storage: it reads 0 and discards writes (R21). -/
structure State where
  /-- `x[1]`..`x[31]`; `x[i]` is entry `i - 1` (R20, R21). -/
  gpr : Vector Word 31
  /-- Product bits [63:32], or the remainder (R24). -/
  hi : Word
  /-- Product bits [31:0], or the quotient (R24). -/
  lo : Word
  /-- The virtual address of the next fetch (R26). -/
  pc : Word
  /-- Running, or how the core stopped (R29). -/
  halt : Halt
  /-- The bytes of RAM, the scratchpad and the BIOS image, by physical address (R34, R44). -/
  mem : Memory
  /-- The length of the BIOS image, the BIOS device's backing length (R34, R52, R68). -/
  biosLen : Nat
  deriving DecidableEq, Repr

/-- Why the machine has no step. -/
inductive Fault where
  /-- Raised by `step` alone, when `halt` is not `running`: no cycle is defined then (R100, D1, D37). Safe: the model
  stops where the spec defines nothing; only a host action leads on (`resetEvent`, `serviceException`). -/
  | halted
  deriving DecidableEq, Repr

/-- Why an instruction has no meaning. -/
inductive Refusal where
  /-- An instruction the model does not reach yet, by its mnemonic. Raised only by an arm of `exec`; no arm raises it,
  since every row of the table has a meaning. Safe. -/
  | notModelled (mnemonic : String)
  deriving DecidableEq, Repr

/-- How a cycle ends. A cycle that ends in an exception or in one of the spec's faults answers a next state, with the
record in `halt` (R29, R101). -/
abbrev Result := Host.Outcome State Fault Refusal

/-- The machine after construction (R34, R35, R311): `pc` and `halt` as the spec gives them. The spec leaves the
registers, `hi`, `lo`, RAM, the scratchpad and the BIOS image to parameters; here the registers are 0, no byte is listed
and the BIOS image is empty (DESIGN CHOICE, notes/assumptions 1, 2 and 3). `construct` takes every other choice. -/
def State.reset : State where
  gpr := Vector.replicate 31 0
  hi := 0
  lo := 0
  pc := Config.resetPc
  halt := .running
  mem := []
  biosLen := 0

end Sys2Proof.Machine
end

