-- ==== Sys2Proof/Machine/Ops.lean ====
section
/-! DEFINITION. The named operations over registers, memory and the Bus, the ends of a cycle, and the fetch
(spec 10_state.md, 20_memory.md, 40_cycle.md, 60_exceptions.md). -/

namespace Sys2Proof.Machine

/-! ### General registers (R20-R22) -/

/-- `x[r]`. Register 0 reads 0 (R21). -/
def State.reg (s : State) (r : Reg) : Word :=
  if h : r = 0#5 then 0#32 else s.gpr[r.toNat - 1]'(by have := r.isLt; omega)

/-- `x[r] <- v`. A write to register 0 is discarded (R21). -/
def State.setReg (s : State) (r : Reg) (v : Word) : State :=
  if h : r = 0#5 then s else { s with gpr := s.gpr.set (r.toNat - 1) v (by have := r.isLt; omega) }

/-- The link register (R23, R183). -/
def linkReg : Reg := 31

/-- `hi <- h; lo <- l` (R160). -/
def State.setHiLo (s : State) (h l : Word) : State := { s with hi := h, lo := l }

/-- `hi <- v` (R167). -/
def State.setHi (s : State) (v : Word) : State := { s with hi := v }

/-- `lo <- v` (R168). -/
def State.setLo (s : State) (v : Word) : State := { s with lo := v }

/-- `pc <- v`. -/
def State.setPc (s : State) (v : Word) : State := { s with pc := v }

/-- Step 3 of the cycle: `pc <- ia + 4`, modulo 2^32 (R104, D9). -/
def advance (s : State) : State := s.setPc (s.pc + 4)

/-! ### The device bytes -/

/-- The byte an address holds that the list does not name. For an address in no device that is the spec's 0 (R51); for a
device byte it is the model's choice of the open initial contents (R67, DESIGN CHOICE, notes/assumptions 2). -/
def unlistedByte : Byte := 0

/-- The byte at a physical address. -/
def Memory.read : Memory → Nat → Byte
  | [], _ => unlistedByte
  | (a, b) :: m, k => if k = a then b else Memory.read m k

/-- Set the byte at a physical address, keeping the canonical form. -/
def Memory.write : Memory → Nat → Byte → Memory
  | [], k, v => if v = unlistedByte then [] else [(k, v)]
  | (a, b) :: m, k, v =>
    if k < a then (if v = unlistedByte then (a, b) :: m else (k, v) :: (a, b) :: m)
    else if k = a then (if v = unlistedByte then m else (a, v) :: m)
    else (a, b) :: Memory.write m k v

/-- The canonical form: addresses strictly rising, and no entry equal to what an unlisted address holds. -/
abbrev Memory.wf (m : Memory) : Prop :=
  m.Pairwise (fun c d => c.1 < d.1) ∧ ∀ c ∈ m, c.2 ≠ unlistedByte

/-- Two bytes, the lower address less significant (R47). -/
def Memory.read16 (m : Memory) (a : Nat) : Half := m.read (a + 1) ++ m.read a

/-- Four bytes, little-endian (R48). -/
def Memory.read32 (m : Memory) (a : Nat) : Word := wordOfBytes (m.read a) (m.read (a + 1)) (m.read (a + 2)) (m.read (a + 3))

/-- Two bytes, little-endian (R49). -/
def Memory.write16 (m : Memory) (a : Nat) (v : Half) : Memory :=
  (m.write a (v.extractLsb' 0 8)).write (a + 1) (v.extractLsb' 8 8)

/-- Four bytes, little-endian (R49). -/
def Memory.write32 (m : Memory) (a : Nat) (v : Word) : Memory :=
  (((m.write a (v.extractLsb' 0 8)).write (a + 1) (v.extractLsb' 8 8)).write (a + 2) (v.extractLsb' 16 8)).write
    (a + 3) (v.extractLsb' 24 8)

/-- The cells of a byte string that starts at an address: the entries of the canonical form. -/
def Memory.ofBytes : Nat → List Byte → Memory
  | _, [] => []
  | a, b :: bs => if b = unlistedByte then Memory.ofBytes (a + 1) bs else (a, b) :: Memory.ofBytes (a + 1) bs

/-! ### Translation (R40-R42) -/

/-- The segment of a virtual address, by its top three bits (R40; the boundaries are the spec's decision D31). -/
def segment (va : Word) : Segment :=
  match va.extractLsb' 29 3 with
  | 0b100#3 => .kseg0
  | 0b101#3 => .kseg1
  | 0b110#3 => .kseg2
  | 0b111#3 => .kseg2
  | _ => .kuseg

/-- `Translate(va)`: kuseg, kseg0 and kseg1 clear the top three bits, kseg2 passes through (R41). -/
def translateVa (va : Word) : Word :=
  match segment va with
  | .kuseg => va &&& 0x1FFFFFFF
  | .kseg0 => va &&& 0x1FFFFFFF
  | .kseg1 => va &&& 0x1FFFFFFF
  | .kseg2 => va

/-! ### The Bus (R43-R53) -/

/-- The device a physical address lies in (R44). -/
def deviceOf (pa : Word) : Device :=
  if pa.toNat < Config.ramBase + Config.ramSize then .ram
  else if Config.scratchBase ≤ pa.toNat ∧ pa.toNat < Config.scratchBase + Config.scratchSize then .scratchpad
  else if Config.biosBase ≤ pa.toNat ∧ pa.toNat < Config.biosBase + Config.biosWindow then .bios
  else .unknown

/-- Whether `n` bytes at `pa` lie within a device that starts at `base` and has `len` backing bytes (R45, R52). -/
def backed (base len : Nat) (pa : Word) (n : Nat) : Bool := decide (pa.toNat - base + n ≤ len)

/-- Route an access of `n` bytes by its starting address (R45), and check it against the device's backing bytes (R52). -/
def State.route (s : State) (pa : Word) (n : Nat) : Route :=
  match deviceOf pa with
  | .ram => if backed Config.ramBase Config.ramSize pa n then .readWrite else .unbacked
  | .scratchpad => if backed Config.scratchBase Config.scratchSize pa n then .readWrite else .unbacked
  | .bios => if backed Config.biosBase s.biosLen pa n then .readOnly else .unbacked
  | .unknown => .unknown

/-- The answer of a Bus read whose bytes are `v`: the error carries the address of a BusFault (R46-R48, R51, R52). -/
def busRead {w : Nat} (s : State) (pa : Word) (n : Nat) (v : BitVec w) : Except Word (BitVec w) :=
  match s.route pa n with
  | .readWrite => .ok v
  | .readOnly => .ok v
  | .unknown => .ok 0
  | .unbacked => .error pa

/-- `BusRead(pa, 1)` (R46). -/
def busReadByte (s : State) (pa : Word) : Except Word Byte := busRead s pa 1 (s.mem.read pa.toNat)

/-- `BusRead(pa, 2)` (R47). -/
def busReadHalf (s : State) (pa : Word) : Except Word Half := busRead s pa 2 (s.mem.read16 pa.toNat)

/-- `BusRead(pa, 4)` (R48). -/
def busReadWord (s : State) (pa : Word) : Except Word Word := busRead s pa 4 (s.mem.read32 pa.toNat)

/-- The answer of a Bus write that would leave the bytes `m`: only RAM and scratchpad bytes change, writes to the BIOS image
and to unknown addresses are dropped, and an unbacked access performs nothing (R49-R52). -/
def busWrite (s : State) (pa : Word) (n : Nat) (m : Memory) : Except Word State :=
  match s.route pa n with
  | .readWrite => .ok { s with mem := m }
  | .readOnly => .ok s
  | .unknown => .ok s
  | .unbacked => .error pa

/-- `BusWrite(pa, 1, v)` (R49). -/
def busWriteByte (s : State) (pa : Word) (v : Byte) : Except Word State := busWrite s pa 1 (s.mem.write pa.toNat v)

/-- `BusWrite(pa, 2, v)` (R49). -/
def busWriteHalf (s : State) (pa : Word) (v : Half) : Except Word State := busWrite s pa 2 (s.mem.write16 pa.toNat v)

/-- `BusWrite(pa, 4, v)` (R49). -/
def busWriteWord (s : State) (pa : Word) (v : Word) : Except Word State := busWrite s pa 4 (s.mem.write32 pa.toNat v)

/-! ### Memory access by virtual address (R11) -/

/-- `MemRead(va, 1)`. -/
def memReadByte (s : State) (va : Word) : Except Word Byte := busReadByte s (translateVa va)

/-- `MemRead(va, 2)`. -/
def memReadHalf (s : State) (va : Word) : Except Word Half := busReadHalf s (translateVa va)

/-- `MemRead(va, 4)`. -/
def memReadWord (s : State) (va : Word) : Except Word Word := busReadWord s (translateVa va)

/-- `MemWrite(va, 1, v)`. -/
def memWriteByte (s : State) (va : Word) (v : Byte) : Except Word State := busWriteByte s (translateVa va) v

/-- `MemWrite(va, 2, v)`. -/
def memWriteHalf (s : State) (va : Word) (v : Half) : Except Word State := busWriteHalf s (translateVa va) v

/-- `MemWrite(va, 4, v)`. -/
def memWriteWord (s : State) (va : Word) (v : Word) : Except Word State := busWriteWord s (translateVa va) v

/-- Byte writes one at a time, in the order listed; the first that is unbacked ends them (R224, R225, R52). -/
def memWriteBytes (s : State) : List (Word × Byte) → Except Word State
  | [] => .ok s
  | (va, v) :: rest =>
    match memWriteByte s va v with
    | .error pa => .error pa
    | .ok s' => memWriteBytes s' rest

/-! ### How a cycle ends (R12, R101) -/

/-- `raise kind(ia, badva)`: taking an exception. CORE performs no trap entry: it records the report in `halt`, and the state
stays as the raising rule left it (R106, R281, R286, D1). -/
def raise (kind : ExcKind) (ia : Word) (badva : Option Word) (s : State) : Result :=
  .next { s with halt := .excepted ⟨kind, ia, badva⟩ }

/-- `fault DecodeFault(word)` (R79, R103). -/
def decodeFault (word : Word) (s : State) : Result := .next { s with halt := .decodeFault word }

/-- `fault Refused(mnemonic)` (R256). -/
def refuse (mnemonic : String) (s : State) : Result := .next { s with halt := .refused mnemonic }

/-- `fault BusFault(pa)` (R52). -/
def busFault (pa : Word) (s : State) : Result := .next { s with halt := .busFault pa }

/-- The host's service of an exception, `EXC_SERVICE`, which the spec leaves open: a map of (state, report) to a state,
after which the core runs (R286, D1). There is no return-from-exception instruction (R288). On a state with no exception
it does nothing, so the other three halts stay terminal (D37). -/
def serviceException (service : State → Report → State) (s : State) : State :=
  match s.halt with
  | .excepted r => { service s r with halt := .running }
  | .running => s
  | .decodeFault _ => s
  | .refused _ => s
  | .busFault _ => s

/-- The reset event: `pc` and `halt`, and nothing else (R310, D24). -/
def resetEvent (s : State) : State := { s with pc := Config.resetPc, halt := .running }

/-- Construction from the open parameters (R7, R34, R311). -/
def construct (p : Config.Params) : State where
  gpr := p.gpr
  hi := p.hi
  lo := p.lo
  pc := Config.resetPc
  halt := .running
  mem := Memory.ofBytes Config.ramBase p.ram ++ Memory.ofBytes Config.scratchBase p.scratch
    ++ Memory.ofBytes Config.biosBase p.bios
  biosLen := p.bios.length

/-! ### Fetch (R102) -/

/-- What the fetch and decode of a cycle answer. -/
inductive Fetched where
  /-- The word decodes to this instruction. -/
  | instr (i : Instr)
  /-- The cycle ended here, with `pc` not advanced. -/
  | ended (r : Result)

/-- Whether `va` is a multiple of 4. -/
def aligned4 (va : Word) : Bool := va.extractLsb' 0 2 == 0

/-- Whether `va` is even. -/
def aligned2 (va : Word) : Bool := va.extractLsb' 0 1 == 0

/-- Steps 1 and 2 of the cycle: read the word at `pc` and decode it (R102, R103, R106). A misaligned `pc` raises AddressError
(D8). A TLB instruction's rejection, which also belongs to step 2, is in its own meaning (R252-R255). -/
def fetch (s : State) : Fetched :=
  if aligned4 s.pc then
    match memReadWord s s.pc with
    | .error pa => .ended (busFault pa s)
    | .ok w =>
      match decodeWord w with
      | .error _ => .ended (decodeFault w s)
      | .ok i => .instr i
  else .ended (raise .addressError s.pc (some s.pc) s)

/-! ### Placing a word where the next fetch reads it -/

/-- `s` running, with a `pc` that a fetch can read a device byte from: `pc` itself where it is aligned and reaches a device,
and the reset address otherwise. -/
def fetchable (s : State) : State :=
  if aligned4 s.pc && !(deviceOf (translateVa s.pc) == .unknown) then { s with halt := .running } else resetEvent s

/-- Put a word at the `pc` of a fetchable state, lengthening the BIOS image to reach it where `pc` is in the BIOS. It stands
for loading a program from outside the machine (notes/assumptions 4). -/
def placeWord (w : Word) (s : State) : State :=
  let pa := translateVa s.pc
  { s with
    mem := s.mem.write32 pa.toNat w
    biosLen := if deviceOf pa == .bios then max s.biosLen (pa.toNat - Config.biosBase + 4) else s.biosLen }

end Sys2Proof.Machine
end

