-- ==== Sys2Proof/Machine/Operands.lean ====
section
/-! DEFINITION. Every operand form: the immediates, the shift amounts, the branch and jump targets, the effective address and
its alignment check, and the partial-word merges (spec 30_encoding.md R76; 43_control.md R180, R181; 44_loadstore.md R210-R225). -/

namespace Sys2Proof.Machine

/-- `sext_32(imm16)`: `addi`, `addiu`, `slti`, `sltiu` and every offset (R76; for `addi` and `addiu` the spec's decision D38). -/
def sextImm (imm : BitVec 16) : Word := imm.signExtend 32

/-- `zext_32(imm16)`: `andi`, `ori`, `xori` (R76). -/
def zextImm (imm : BitVec 16) : Word := imm.setWidth 32

/-- `cat(imm16, 0x0000)`: `lui` (R76, R144). -/
def upperImm (imm : BitVec 16) : Word := imm ++ 0#16

/-- `x[rs][4:0]`, a variable shift amount (R76, D19). -/
def regShift (v : Word) : Nat := (v.extractLsb' 0 5).toNat

/-- `pc + (sext_32(imm16) << 2)`, with `pc` already advanced (R180). -/
def branchTarget (pc : Word) (offset : BitVec 16) : Word := pc + (sextImm offset <<< 2)

/-- `cat(pc[31:28], target, 00)`, with `pc` already advanced (R181). -/
def jumpTarget (pc : Word) (target : BitVec 26) : Word := pc.extractLsb' 28 4 ++ target ++ 0#2

/-- `ea = x[rs] + sext_32(imm16)`, modulo 2^32 (R210, D10). -/
def effAddr (s : State) (rs : Reg) (offset : BitVec 16) : Word := s.reg rs + sextImm offset

/-- `check_align(ea, n)` and what follows it: an address that is not aligned raises AddressError, and nothing else happens (R211).
`ok` is the answer of `aligned2` or `aligned4`. -/
def checkAlign (ok : Bool) (ia ea : Word) (s : State) (body : Result) : Result :=
  if ok then body else raise .addressError ia (some ea) s

/-- The end of a load: the value goes to `x[rt]` in this cycle, or the access ends the cycle with BusFault (R52, R212). -/
def finishLoad (rt : Reg) (value : Except Word Word) (s : State) : Result :=
  match value with
  | .ok v => .next (s.setReg rt v)
  | .error pa => busFault pa s

/-- The end of a store: the bytes are in memory, or the access ends the cycle with BusFault and nothing of the
instruction is performed (R52, R213). -/
def finishStore (stored : Except Word State) (s : State) : Result :=
  match stored with
  | .ok s' => .next s'
  | .error pa => busFault pa s

/-- `ea[1:0]`, the byte offset in the word (R219). -/
def byteOffset (ea : Word) : Nat := (ea.extractLsb' 0 2).toNat

/-- `ea & 0xFFFFFFFC`, the aligned word that holds `ea` (R219). -/
def wordAddr (ea : Word) : Word := ea &&& 0xFFFFFFFC

/-- The `lwl` merge of the aligned word `w` into the old register value, by byte offset (R219). -/
def mergeLeft (old w : Word) : Nat → Word
  | 0 => (old &&& 0x00FFFFFF) ||| (w <<< 24)
  | 1 => (old &&& 0x0000FFFF) ||| (w <<< 16)
  | 2 => (old &&& 0x000000FF) ||| (w <<< 8)
  | _ => w

/-- The `lwr` merge of the aligned word `w` into the old register value, by byte offset (R220). -/
def mergeRight (old w : Word) : Nat → Word
  | 0 => w
  | 1 => (old &&& 0xFF000000) ||| (w >>> 8)
  | 2 => (old &&& 0xFFFF0000) ||| (w >>> 16)
  | _ => (old &&& 0xFFFFFF00) ||| (w >>> 24)

/-- Byte `i` of a word, `v[8i+7:8i]`. -/
def byteOf (v : Word) (i : Nat) : Byte := v.extractLsb' (8 * i) 8

/-- The byte writes of `swl`, in order: for `i` from `k` down to 0, byte `3 - k + i` of the register at `a + i` (R224, D27). -/
def swlWrites (ea v : Word) : List (Word × Byte) :=
  let k := byteOffset ea
  (List.range (k + 1)).reverse.map fun i => (wordAddr ea + BitVec.ofNat 32 i, byteOf v (3 - k + i))

/-- The byte writes of `swr`, in order: for `i` from 0 to `3 - k`, byte `i` of the register at `ea + i` (R225, D27). -/
def swrWrites (ea v : Word) : List (Word × Byte) :=
  let k := byteOffset ea
  (List.range (3 - k + 1)).map fun i => (ea + BitVec.ofNat 32 i, byteOf v i)

end Sys2Proof.Machine
end

