-- ==== Sys2Proof/Machine/Alu.lean ====
section
/-! DEFINITION. The ALU instructions (spec 41_alu.md). A meaning is given the state at the start of the cycle, `pc` at the
instruction; it advances `pc` first (40_cycle.md R104), reads its sources, and then writes (00_scope.md R13). -/

namespace Sys2Proof.Machine

/-- The end of an ALU instruction that cannot trap: advance, and write the result (R120). -/
def writeResult (d : Reg) (v : Word) (s : State) : Result := .next ((advance s).setReg d v)

/-- The end of `add`, `addi` and `sub`: on signed overflow raise Overflow with the destination unmodified, and otherwise
write the result (R120-R123). -/
def writeOrTrap (overflow : Bool) (d : Reg) (v : Word) (s : State) : Result :=
  if overflow then raise .overflow s.pc none (advance s) else writeResult d v s

/-- `add` (R121). -/
def execAdd (rd rs rt : Reg) (s : State) : Result :=
  writeOrTrap (addOverflows (s.reg rs) (s.reg rt)) rd (s.reg rs + s.reg rt) s

/-- `addi` (R122; the sign extension is D38). -/
def execAddi (rt rs : Reg) (imm : BitVec 16) (s : State) : Result :=
  writeOrTrap (addOverflows (s.reg rs) (sextImm imm)) rt (s.reg rs + sextImm imm) s

/-- `sub` (R123). -/
def execSub (rd rs rt : Reg) (s : State) : Result :=
  writeOrTrap (subOverflows (s.reg rs) (s.reg rt)) rd (s.reg rs - s.reg rt) s

/-- `addu` (R124). -/
def execAddu (rd rs rt : Reg) (s : State) : Result := writeResult rd (s.reg rs + s.reg rt) s

/-- `addiu` (R125; the sign extension is D38). -/
def execAddiu (rt rs : Reg) (imm : BitVec 16) (s : State) : Result := writeResult rt (s.reg rs + sextImm imm) s

/-- `subu` (R126). -/
def execSubu (rd rs rt : Reg) (s : State) : Result := writeResult rd (s.reg rs - s.reg rt) s

/-- `and` (R127). -/
def execAnd (rd rs rt : Reg) (s : State) : Result := writeResult rd (s.reg rs &&& s.reg rt) s

/-- `andi` (R128). -/
def execAndi (rt rs : Reg) (imm : BitVec 16) (s : State) : Result := writeResult rt (s.reg rs &&& zextImm imm) s

/-- `or` (R129). -/
def execOr (rd rs rt : Reg) (s : State) : Result := writeResult rd (s.reg rs ||| s.reg rt) s

/-- `ori` (R130). -/
def execOri (rt rs : Reg) (imm : BitVec 16) (s : State) : Result := writeResult rt (s.reg rs ||| zextImm imm) s

/-- `nor` (R131). -/
def execNor (rd rs rt : Reg) (s : State) : Result := writeResult rd (~~~(s.reg rs ||| s.reg rt)) s

/-- `xor` (R132). -/
def execXor (rd rs rt : Reg) (s : State) : Result := writeResult rd (s.reg rs ^^^ s.reg rt) s

/-- `xori` (R133). -/
def execXori (rt rs : Reg) (imm : BitVec 16) (s : State) : Result := writeResult rt (s.reg rs ^^^ zextImm imm) s

/-- `sll` (R134). -/
def execSll (rd rt : Reg) (shamt : Nat) (s : State) : Result := writeResult rd (s.reg rt <<< shamt) s

/-- `sllv` (R135; the amount is D19). -/
def execSllv (rd rt rs : Reg) (s : State) : Result := writeResult rd (s.reg rt <<< regShift (s.reg rs)) s

/-- `srl` (R136). -/
def execSrl (rd rt : Reg) (shamt : Nat) (s : State) : Result := writeResult rd (s.reg rt >>> shamt) s

/-- `srlv` (R137; the amount is D19). -/
def execSrlv (rd rt rs : Reg) (s : State) : Result := writeResult rd (s.reg rt >>> regShift (s.reg rs)) s

/-- `sra` (R138). -/
def execSra (rd rt : Reg) (shamt : Nat) (s : State) : Result := writeResult rd ((s.reg rt).sshiftRight shamt) s

/-- `srav` (R139; the amount is D19). -/
def execSrav (rd rt rs : Reg) (s : State) : Result :=
  writeResult rd ((s.reg rt).sshiftRight (regShift (s.reg rs))) s

/-- `slt` (R140). -/
def execSlt (rd rs rt : Reg) (s : State) : Result := writeResult rd (setIf (ltSigned (s.reg rs) (s.reg rt))) s

/-- `slti` (R141). -/
def execSlti (rt rs : Reg) (imm : BitVec 16) (s : State) : Result :=
  writeResult rt (setIf (ltSigned (s.reg rs) (sextImm imm))) s

/-- `sltu` (R142). -/
def execSltu (rd rs rt : Reg) (s : State) : Result := writeResult rd (setIf (ltUnsigned (s.reg rs) (s.reg rt))) s

/-- `sltiu`: the immediate is sign-extended, then compared unsigned (R143). -/
def execSltiu (rt rs : Reg) (imm : BitVec 16) (s : State) : Result :=
  writeResult rt (setIf (ltUnsigned (s.reg rs) (sextImm imm))) s

/-- `lui` (R144). -/
def execLui (rt : Reg) (imm : BitVec 16) (s : State) : Result := writeResult rt (upperImm imm) s

end Sys2Proof.Machine
end

