-- ==== Sys2Proof/Machine/Control.lean ====
section
/-! DEFINITION. Branches and jumps (spec 43_control.md). No branch or jump has a delay slot: a redirect takes effect at once
(R182, D13). Each meaning is given the state with `pc` = `ia`, the instruction's own address. -/

namespace Sys2Proof.Machine

/-- A branch: on the advanced state, `pc` becomes the target if the branch is taken (R180). -/
def branchIf (taken : Bool) (offset : BitVec 16) (s : State) : Result :=
  .next (if taken then s.setPc (branchTarget s.pc offset) else s)

/-- Branch-and-link: the condition was evaluated on the old registers; register 31 takes `ia + 4` whether or not the
branch is taken (R183, R184, R191, R192). -/
def branchAndLink (taken : Bool) (offset : BitVec 16) (s : State) : Result :=
  branchIf taken offset (s.setReg linkReg s.pc)

/-- A register jump: `pc` is set to the raw value; if it is not 4-byte aligned, AddressError is then raised (R195). -/
def jumpRegister (t ia : Word) (s : State) : Result :=
  if aligned4 t then .next (s.setPc t) else raise .addressError ia (some t) (s.setPc t)

/-- `beq` (R185). -/
def execBeq (rs rt : Reg) (offset : BitVec 16) (s : State) : Result :=
  branchIf (s.reg rs == s.reg rt) offset (advance s)

/-- `bne` (R186). -/
def execBne (rs rt : Reg) (offset : BitVec 16) (s : State) : Result :=
  branchIf (s.reg rs != s.reg rt) offset (advance s)

/-- `bgez` (R187). -/
def execBgez (rs : Reg) (offset : BitVec 16) (s : State) : Result := branchIf (geZero (s.reg rs)) offset (advance s)

/-- `bgtz` (R188). -/
def execBgtz (rs : Reg) (offset : BitVec 16) (s : State) : Result := branchIf (gtZero (s.reg rs)) offset (advance s)

/-- `blez` (R189). -/
def execBlez (rs : Reg) (offset : BitVec 16) (s : State) : Result := branchIf (leZero (s.reg rs)) offset (advance s)

/-- `bltz` (R190). -/
def execBltz (rs : Reg) (offset : BitVec 16) (s : State) : Result := branchIf (ltZero (s.reg rs)) offset (advance s)

/-- `bgezal` (R191). -/
def execBgezal (rs : Reg) (offset : BitVec 16) (s : State) : Result :=
  branchAndLink (geZero (s.reg rs)) offset (advance s)

/-- `bltzal` (R192). -/
def execBltzal (rs : Reg) (offset : BitVec 16) (s : State) : Result :=
  branchAndLink (ltZero (s.reg rs)) offset (advance s)

/-- `j` (R193). -/
def execJ (target : BitVec 26) (s : State) : Result :=
  let s1 := advance s
  .next (s1.setPc (jumpTarget s1.pc target))

/-- `jal`: the link is `ia + 8` (R183, R194; 90_conflicts.md C1). -/
def execJal (target : BitVec 26) (s : State) : Result :=
  let s1 := advance s
  .next ((s1.setReg linkReg (s.pc + 8)).setPc (jumpTarget s1.pc target))

/-- `jr` (R196). -/
def execJr (rs : Reg) (s : State) : Result := jumpRegister (s.reg rs) s.pc (advance s)

/-- `jalr`: the target is read before the link write, and the link stays written when the target is misaligned
(R197; D14, D15, D16, D17). -/
def execJalr (rd rs : Reg) (s : State) : Result :=
  jumpRegister (s.reg rs) s.pc ((advance s).setReg rd (s.pc + 8))

end Sys2Proof.Machine
end

