-- ==== Sys2Proof/Machine/Coprocessor.lean ====
section
/-! DEFINITION. The coprocessor instructions (spec 45_system.md R256-R266). CORE decodes them and has no coprocessor: in step 4,
after the advance, the cycle ends with `halt` = `refused(mnemonic)` and no register, `hi`, `lo` or memory byte changed (R256, D6).
Their operands name nothing that CORE holds. -/

namespace Sys2Proof.Machine

/-- `mfc0` (R257). -/
def execMfc0 (_rt : Reg) (_rd : Reg) (s : State) : Result := refuse "mfc0" (advance s)

/-- `mfc1` (R257). -/
def execMfc1 (_rt : Reg) (_rd : Reg) (s : State) : Result := refuse "mfc1" (advance s)

/-- `mfc2` (R257). -/
def execMfc2 (_rt : Reg) (_rd : Reg) (s : State) : Result := refuse "mfc2" (advance s)

/-- `mfc3` (R257). -/
def execMfc3 (_rt : Reg) (_rd : Reg) (s : State) : Result := refuse "mfc3" (advance s)

/-- `cfc0` (R258). -/
def execCfc0 (_rt : Reg) (_rd : Reg) (s : State) : Result := refuse "cfc0" (advance s)

/-- `cfc1` (R258). -/
def execCfc1 (_rt : Reg) (_rd : Reg) (s : State) : Result := refuse "cfc1" (advance s)

/-- `cfc2` (R258). -/
def execCfc2 (_rt : Reg) (_rd : Reg) (s : State) : Result := refuse "cfc2" (advance s)

/-- `cfc3` (R258). -/
def execCfc3 (_rt : Reg) (_rd : Reg) (s : State) : Result := refuse "cfc3" (advance s)

/-- `mtc0` (R259). -/
def execMtc0 (_rt : Reg) (_rd : Reg) (s : State) : Result := refuse "mtc0" (advance s)

/-- `mtc1` (R259). -/
def execMtc1 (_rt : Reg) (_rd : Reg) (s : State) : Result := refuse "mtc1" (advance s)

/-- `mtc2` (R259). -/
def execMtc2 (_rt : Reg) (_rd : Reg) (s : State) : Result := refuse "mtc2" (advance s)

/-- `mtc3` (R259). -/
def execMtc3 (_rt : Reg) (_rd : Reg) (s : State) : Result := refuse "mtc3" (advance s)

/-- `ctc0` (R260). -/
def execCtc0 (_rt : Reg) (_rd : Reg) (s : State) : Result := refuse "ctc0" (advance s)

/-- `ctc1` (R260). -/
def execCtc1 (_rt : Reg) (_rd : Reg) (s : State) : Result := refuse "ctc1" (advance s)

/-- `ctc2` (R260). -/
def execCtc2 (_rt : Reg) (_rd : Reg) (s : State) : Result := refuse "ctc2" (advance s)

/-- `ctc3` (R260). -/
def execCtc3 (_rt : Reg) (_rd : Reg) (s : State) : Result := refuse "ctc3" (advance s)

/-- `bc0f` (R261). -/
def execBc0f (_offset : BitVec 16) (s : State) : Result := refuse "bc0f" (advance s)

/-- `bc1f` (R261). -/
def execBc1f (_offset : BitVec 16) (s : State) : Result := refuse "bc1f" (advance s)

/-- `bc2f` (R261). -/
def execBc2f (_offset : BitVec 16) (s : State) : Result := refuse "bc2f" (advance s)

/-- `bc3f` (R261). -/
def execBc3f (_offset : BitVec 16) (s : State) : Result := refuse "bc3f" (advance s)

/-- `bc0t` (R262). -/
def execBc0t (_offset : BitVec 16) (s : State) : Result := refuse "bc0t" (advance s)

/-- `bc1t` (R262). -/
def execBc1t (_offset : BitVec 16) (s : State) : Result := refuse "bc1t" (advance s)

/-- `bc2t` (R262). -/
def execBc2t (_offset : BitVec 16) (s : State) : Result := refuse "bc2t" (advance s)

/-- `bc3t` (R262). -/
def execBc3t (_offset : BitVec 16) (s : State) : Result := refuse "bc3t" (advance s)

/-- `cop1` (R263). -/
def execCop1 (_cofun : BitVec 25) (s : State) : Result := refuse "cop1" (advance s)

/-- `cop2` (R263). -/
def execCop2 (_cofun : BitVec 25) (s : State) : Result := refuse "cop2" (advance s)

/-- `cop3` (R263). -/
def execCop3 (_cofun : BitVec 25) (s : State) : Result := refuse "cop3" (advance s)

/-- `rfe` (R264). -/
def execRfe (s : State) : Result := refuse "rfe" (advance s)

/-- `lwc0` (R265). -/
def execLwc0 (_rt : Reg) (_offset : BitVec 16) (_rs : Reg) (s : State) : Result := refuse "lwc0" (advance s)

/-- `lwc1` (R265). -/
def execLwc1 (_rt : Reg) (_offset : BitVec 16) (_rs : Reg) (s : State) : Result := refuse "lwc1" (advance s)

/-- `lwc2` (R265). -/
def execLwc2 (_rt : Reg) (_offset : BitVec 16) (_rs : Reg) (s : State) : Result := refuse "lwc2" (advance s)

/-- `lwc3` (R265). -/
def execLwc3 (_rt : Reg) (_offset : BitVec 16) (_rs : Reg) (s : State) : Result := refuse "lwc3" (advance s)

/-- `swc0` (R266). -/
def execSwc0 (_rt : Reg) (_offset : BitVec 16) (_rs : Reg) (s : State) : Result := refuse "swc0" (advance s)

/-- `swc1` (R266). -/
def execSwc1 (_rt : Reg) (_offset : BitVec 16) (_rs : Reg) (s : State) : Result := refuse "swc1" (advance s)

/-- `swc2` (R266). -/
def execSwc2 (_rt : Reg) (_offset : BitVec 16) (_rs : Reg) (s : State) : Result := refuse "swc2" (advance s)

/-- `swc3` (R266). -/
def execSwc3 (_rt : Reg) (_offset : BitVec 16) (_rs : Reg) (s : State) : Result := refuse "swc3" (advance s)

end Sys2Proof.Machine
end

