-- ==== Sys2Proof/Machine/LoadStore.lean ====
section
/-! DEFINITION. Loads and stores (spec 44_loadstore.md). Each meaning is given the state with `pc` = `ia`; it advances `pc`,
computes the effective address, checks alignment where the rule asks for it, and makes its access. -/

namespace Sys2Proof.Machine

/-- `lb` (R214). -/
def execLb (rt : Reg) (offset : BitVec 16) (rs : Reg) (s : State) : Result :=
  finishLoad rt ((memReadByte s (effAddr s rs offset)).map (BitVec.signExtend 32)) (advance s)

/-- `lbu` (R215). -/
def execLbu (rt : Reg) (offset : BitVec 16) (rs : Reg) (s : State) : Result :=
  finishLoad rt ((memReadByte s (effAddr s rs offset)).map (BitVec.setWidth 32)) (advance s)

/-- `lh` (R216). -/
def execLh (rt : Reg) (offset : BitVec 16) (rs : Reg) (s : State) : Result :=
  let ea := effAddr s rs offset
  checkAlign (aligned2 ea) s.pc ea (advance s)
    (finishLoad rt ((memReadHalf s ea).map (BitVec.signExtend 32)) (advance s))

/-- `lhu` (R217; the alignment check is D11). -/
def execLhu (rt : Reg) (offset : BitVec 16) (rs : Reg) (s : State) : Result :=
  let ea := effAddr s rs offset
  checkAlign (aligned2 ea) s.pc ea (advance s)
    (finishLoad rt ((memReadHalf s ea).map (BitVec.setWidth 32)) (advance s))

/-- `lw` (R218). -/
def execLw (rt : Reg) (offset : BitVec 16) (rs : Reg) (s : State) : Result :=
  let ea := effAddr s rs offset
  checkAlign (aligned4 ea) s.pc ea (advance s) (finishLoad rt (memReadWord s ea) (advance s))

/-- `lwl`: no alignment check; the aligned word that holds the effective address is read and merged (R219). -/
def execLwl (rt : Reg) (offset : BitVec 16) (rs : Reg) (s : State) : Result :=
  let ea := effAddr s rs offset
  finishLoad rt ((memReadWord s (wordAddr ea)).map fun w => mergeLeft (s.reg rt) w (byteOffset ea)) (advance s)

/-- `lwr`: as `lwl`, with the other merge (R220). -/
def execLwr (rt : Reg) (offset : BitVec 16) (rs : Reg) (s : State) : Result :=
  let ea := effAddr s rs offset
  finishLoad rt ((memReadWord s (wordAddr ea)).map fun w => mergeRight (s.reg rt) w (byteOffset ea)) (advance s)

/-- `sb` (R221). -/
def execSb (rt : Reg) (offset : BitVec 16) (rs : Reg) (s : State) : Result :=
  finishStore (memWriteByte (advance s) (effAddr s rs offset) (byteOf (s.reg rt) 0)) (advance s)

/-- `sh` (R222). -/
def execSh (rt : Reg) (offset : BitVec 16) (rs : Reg) (s : State) : Result :=
  let ea := effAddr s rs offset
  checkAlign (aligned2 ea) s.pc ea (advance s)
    (finishStore (memWriteHalf (advance s) ea ((s.reg rt).extractLsb' 0 16)) (advance s))

/-- `sw` (R223). -/
def execSw (rt : Reg) (offset : BitVec 16) (rs : Reg) (s : State) : Result :=
  let ea := effAddr s rs offset
  checkAlign (aligned4 ea) s.pc ea (advance s) (finishStore (memWriteWord (advance s) ea (s.reg rt)) (advance s))

/-- `swl`: bytes one at a time, from the effective address down to its aligned word (R224). -/
def execSwl (rt : Reg) (offset : BitVec 16) (rs : Reg) (s : State) : Result :=
  finishStore (memWriteBytes (advance s) (swlWrites (effAddr s rs offset) (s.reg rt))) (advance s)

/-- `swr`: bytes one at a time, from the effective address up to the end of its word (R225). -/
def execSwr (rt : Reg) (offset : BitVec 16) (rs : Reg) (s : State) : Result :=
  finishStore (memWriteBytes (advance s) (swrWrites (effAddr s rs offset) (s.reg rt))) (advance s)

end Sys2Proof.Machine
end

