-- ==== Sys2Proof/Machine/MulDiv.lean ====
section
/-! DEFINITION. Multiply, divide and the `hi`/`lo` moves (spec 42_muldiv.md). None of them raises an exception (R160). -/

namespace Sys2Proof.Machine

/-- The end of a multiply: the exact product, modulo 2^64, split with the high half in `hi` (R160-R162; the halves are D34). -/
def writeProduct (p : Int) (s : State) : Result :=
  let q := BitVec.ofInt 64 p
  .next ((advance s).setHiLo (q.extractLsb' 32 32) (q.extractLsb' 0 32))

/-- The signed quotient and remainder, as (`lo`, `hi`): 0 and 0 for a zero divisor; the spec's D18 for -2^31 / -1;
otherwise truncated toward zero, with the remainder's sign the dividend's (R160, R163, D33). -/
def divSigned (n d : Int) : Word × Word :=
  if d = 0 then (0, 0)
  else if n = -2147483648 ∧ d = -1 then (0x80000000, 0)
  else (BitVec.ofInt 32 (n.tdiv d), BitVec.ofInt 32 (n - d * n.tdiv d))

/-- The unsigned quotient and remainder, as (`lo`, `hi`): 0 and 0 for a zero divisor (R160, R164). -/
def divUnsigned (n d : Nat) : Word × Word :=
  if d = 0 then (0, 0) else (BitVec.ofNat 32 (n / d), BitVec.ofNat 32 (n % d))

/-- The end of a divide: the quotient goes to `lo`, the remainder to `hi` (R160). -/
def writeQuotient (qr : Word × Word) (s : State) : Result := .next ((advance s).setHiLo qr.2 qr.1)

/-- `mult` (R161). -/
def execMult (rs rt : Reg) (s : State) : Result := writeProduct ((s.reg rs).toInt * (s.reg rt).toInt) s

/-- `multu` (R162). -/
def execMultu (rs rt : Reg) (s : State) : Result := writeProduct (((s.reg rs).toNat * (s.reg rt).toNat : Nat) : Int) s

/-- `div` (R163). -/
def execDiv (rs rt : Reg) (s : State) : Result := writeQuotient (divSigned (s.reg rs).toInt (s.reg rt).toInt) s

/-- `divu` (R164). -/
def execDivu (rs rt : Reg) (s : State) : Result := writeQuotient (divUnsigned (s.reg rs).toNat (s.reg rt).toNat) s

/-- `mfhi` (R165). -/
def execMfhi (rd : Reg) (s : State) : Result := .next ((advance s).setReg rd s.hi)

/-- `mflo` (R166). -/
def execMflo (rd : Reg) (s : State) : Result := .next ((advance s).setReg rd s.lo)

/-- `mthi` (R167). -/
def execMthi (rs : Reg) (s : State) : Result := .next ((advance s).setHi (s.reg rs))

/-- `mtlo` (R168). -/
def execMtlo (rs : Reg) (s : State) : Result := .next ((advance s).setLo (s.reg rs))

end Sys2Proof.Machine
end

