-- ==== Sys2Proof/Machine/System.lean ====
section
/-! DEFINITION. `syscall`, `break` and the TLB instructions (spec 45_system.md). No instruction here needs a privilege mode: CORE
has one mode (R290). -/

namespace Sys2Proof.Machine

/-- `syscall`: always raises SystemCall, in step 4, so `pc` = `ia + 4`; the `code` has no effect (R250). -/
def execSyscall (_code : BitVec 20) (s : State) : Result := raise .systemCall s.pc none (advance s)

/-- `break`: always raises Breakpoint, as `syscall` does (R251). -/
def execBreak (_code : BitVec 20) (s : State) : Result := raise .breakpoint s.pc none (advance s)

/-- A TLB instruction's rejection: ReservedInstruction, raised in the decode step, so `pc` stays `ia` (R103, D7). -/
def rejectTlb (s : State) : Result := raise .reservedInstruction s.pc none s

/-- `tlbr` (R252). -/
def execTlbr (s : State) : Result := rejectTlb s

/-- `tlbwi` (R253). -/
def execTlbwi (s : State) : Result := rejectTlb s

/-- `tlbwr` (R254). -/
def execTlbwr (s : State) : Result := rejectTlb s

/-- `tlbp` (R255). -/
def execTlbp (s : State) : Result := rejectTlb s

end Sys2Proof.Machine
end

