-- ==== Sys2Proof/Machine/Step.lean ====
section
/-! DEFINITION. One cycle (spec 40_cycle.md R100-R106). -/

namespace Sys2Proof.Machine

/-- One cycle: fetch and decode, then the instruction. It is defined only while the core runs (R100, R106). -/
def step (s : State) : Host.Outcome State Fault Refusal :=
  match s.halt with
  | .running =>
    match fetch s with
    | .instr i => exec i s
    | .ended r => r
  | .excepted _ => .fault .halted
  | .decodeFault _ => .fault .halted
  | .refused _ => .fault .halted
  | .busFault _ => .fault .halted

/-- The state with the table word `w` of `nbits` bits placed where `step` fetches next (notes/assumptions 4). -/
def State.withFetchWord (s : State) (nbits w : Nat) : State :=
  placeWord (BitVec.ofNat 32 (w % 2 ^ nbits)) (fetchable s)

end Sys2Proof.Machine
end

