-- ==== Sys2Proof/Safety.lean ====
section
/-! DEFINITION. The terms the claims are stated in: what a completed instruction left changed and unchanged, which bytes a physical
address holds, and the invariant of a state a run can reach. -/

namespace Sys2Proof.Machine

/-- The instruction answers a next state, and that state satisfies `post`. -/
def Completes (i : Instr) (s : State) (post : State → Prop) : Prop := ∃ t, exec i s = .next t ∧ post t

/-- Every byte of memory reads as before, and the BIOS image has the length it had. -/
def MemoryKept (s t : State) : Prop := t.biosLen = s.biosLen ∧ ∀ a, t.mem.read a = s.mem.read a

/-- Every general register reads as before. -/
def RegsKept (s t : State) : Prop := ∀ r, t.reg r = s.reg r

/-- `t` is `s` with `x[d]` written to `v` (a write to register 0 discarded), `pc` and `halt` as given, and nothing else changed. -/
structure Writes (s t : State) (d : Reg) (v pc : Word) (halt : Halt) : Prop where
  value : t.reg d = if d = 0 then 0 else v
  others : ∀ r, r ≠ d → t.reg r = s.reg r
  hi : t.hi = s.hi
  lo : t.lo = s.lo
  pc : t.pc = pc
  halt : t.halt = halt
  memory : MemoryKept s t

/-- `t` is `s` with `hi`, `lo` as given, `pc` advanced by 4, and nothing else changed. -/
structure WritesHiLo (s t : State) (hi lo : Word) : Prop where
  hi : t.hi = hi
  lo : t.lo = lo
  regs : RegsKept s t
  pc : t.pc = s.pc + 4
  halt : t.halt = s.halt
  memory : MemoryKept s t

/-- `t` is `s` with `pc` and `halt` as given, and nothing else changed. -/
structure Moves (s t : State) (pc : Word) (halt : Halt) : Prop where
  pc : t.pc = pc
  halt : t.halt = halt
  regs : RegsKept s t
  hi : t.hi = s.hi
  lo : t.lo = s.lo
  memory : MemoryKept s t

/-- `t` is `s` with the `n` bytes from physical address `pa` stored (`byte k` at `pa + k`), `pc` advanced by 4, and nothing
else changed. -/
structure Stores (s t : State) (pa n : Nat) (byte : Nat → Byte) : Prop where
  stored : ∀ k < n, t.mem.read (pa + k) = byte k
  elsewhere : ∀ a, a < pa ∨ pa + n ≤ a → t.mem.read a = s.mem.read a
  bios : t.biosLen = s.biosLen
  regs : RegsKept s t
  hi : t.hi = s.hi
  lo : t.lo = s.lo
  pc : t.pc = s.pc + 4
  halt : t.halt = s.halt

/-- `t` is the halted state of a refused coprocessor instruction: nothing changed but `halt` and `pc`. Of `pc` nothing is said,
since no claim may use it (R256). -/
structure Refuses (s t : State) (mnemonic : String) : Prop where
  halt : t.halt = .refused mnemonic
  regs : RegsKept s t
  hi : t.hi = s.hi
  lo : t.lo = s.lo
  memory : MemoryKept s t

/-- A physical address of RAM or the scratchpad (R44). -/
abbrev Writable (a : Nat) : Prop := a < 0x200000 ∨ (0x1F800000 ≤ a ∧ a < 0x1F800400)

/-- A physical address of the BIOS window (R44). -/
abbrev InBios (a : Nat) : Prop := 0x1FC00000 ≤ a ∧ a < 0x1FC80000

/-- The byte a read of one physical address answers: the device's byte, or 0 where no device is (R46, R51). -/
def physByte (s : State) (a : Nat) : Byte := if Writable a ∨ InBios a then s.mem.read a else 0

/-- An access of `n` bytes at `pa` that reaches the BIOS lies within the BIOS image (R52, R68). -/
abbrev ImageCovers (s : State) (pa : Word) (n : Nat) : Prop := InBios pa.toNat → pa.toNat - 0x1FC00000 + n ≤ s.biosLen

/-- A physical address with a device byte behind it (R44, R68). -/
def Mapped (s : State) (a : Nat) : Prop :=
  Writable a ∨ (0x1FC00000 ≤ a ∧ a < 0x1FC00000 + s.biosLen)

/-- The kinds CORE produces (R282); the other five it never does (R283). -/
def Produced (k : ExcKind) : Prop :=
  k = .addressError ∨ k = .overflow ∨ k = .systemCall ∨ k = .breakpoint ∨ k = .reservedInstruction

/-- A halt record that a cycle can leave: an exception of a produced kind with a `badva` for AddressError alone (R281-R283), a word
that does not decode (R103), or a BusFault in the BIOS window, since no access reaches past RAM or the scratchpad (R52). -/
def LegalHalt : Halt → Prop
  | .running => True
  | .excepted r => Produced r.kind ∧ (r.badva.isSome = true ↔ r.kind = .addressError)
  | .decodeFault w => ∃ e, decodeWord w = .error e
  | .refused _ => True
  | .busFault pa => InBios pa.toNat

/-- The invariant of the states a run can reach. -/
structure Inv (s : State) : Prop where
  /-- The memory is in canonical form. -/
  canonical : s.mem.wf
  /-- Every listed byte has a device behind it. -/
  mapped : ∀ c ∈ s.mem, Mapped s c.1
  /-- The BIOS image fits its window (R7, R68). -/
  bios : s.biosLen ≤ 0x80000
  /-- While the core runs, `pc` is 4-byte aligned (R28). -/
  aligned : s.halt = .running → s.pc.toNat % 4 = 0
  /-- A stopped core holds a legal record. -/
  halt : LegalHalt s.halt

/-- The general register an instruction may write, by the list of R23. -/
def destReg (i : Instr) : Option Reg :=
  match i with
  | .add rd _ _ | .addu rd _ _ | .sub rd _ _ | .subu rd _ _ | .and rd _ _ | .or rd _ _ | .xor rd _ _ | .nor rd _ _ => some rd
  | .slt rd _ _ | .sltu rd _ _ | .sll rd _ _ | .srl rd _ _ | .sra rd _ _ | .sllv rd _ _ | .srlv rd _ _ | .srav rd _ _ => some rd
  | .mfhi rd | .mflo rd | .jalr rd _ => some rd
  | .addi rt _ _ | .addiu rt _ _ | .andi rt _ _ | .ori rt _ _ | .xori rt _ _ | .slti rt _ _ | .sltiu rt _ _ | .lui rt _ => some rt
  | .lb rt _ _ | .lbu rt _ _ | .lh rt _ _ | .lhu rt _ _ | .lw rt _ _ | .lwl rt _ _ | .lwr rt _ _ => some rt
  | .jal _ | .bgezal _ _ | .bltzal _ _ => some 31
  | .jr _ | .syscall _ | .break_ _ | .mthi _ | .mtlo _ | .mult _ _ | .multu _ _ | .div _ _ | .divu _ _ => none
  | .bltz _ _ | .bgez _ _ | .blez _ _ | .bgtz _ _ | .beq _ _ _ | .bne _ _ _ | .j _ => none
  | .sb _ _ _ | .sh _ _ _ | .swl _ _ _ | .sw _ _ _ | .swr _ _ _ => none
  | .tlbr | .tlbwi | .tlbwr | .tlbp | .rfe => none
  | .mfc0 _ _ | .cfc0 _ _ | .mtc0 _ _ | .ctc0 _ _ | .bc0f _ | .bc0t _ | .lwc0 _ _ _ | .swc0 _ _ _ => none
  | .mfc1 _ _ | .cfc1 _ _ | .mtc1 _ _ | .ctc1 _ _ | .bc1f _ | .bc1t _ | .cop1 _ | .lwc1 _ _ _ | .swc1 _ _ _ => none
  | .mfc2 _ _ | .cfc2 _ _ | .mtc2 _ _ | .ctc2 _ _ | .bc2f _ | .bc2t _ | .cop2 _ | .lwc2 _ _ _ | .swc2 _ _ _ => none
  | .mfc3 _ _ | .cfc3 _ _ | .mtc3 _ _ | .ctc3 _ _ | .bc3f _ | .bc3t _ | .cop3 _ | .lwc3 _ _ _ | .swc3 _ _ _ => none

/-- The five stores (R213). -/
def IsStore (i : Instr) : Prop :=
  ∃ rt offset rs, i = .sb rt offset rs ∨ i = .sh rt offset rs ∨ i = .sw rt offset rs ∨ i = .swl rt offset rs ∨ i = .swr rt offset rs

/-- The instructions that write both `hi` and `lo` (R25). -/
def IsMulDiv (i : Instr) : Prop := ∃ rs rt, i = .mult rs rt ∨ i = .multu rs rt ∨ i = .div rs rt ∨ i = .divu rs rt

end Sys2Proof.Machine
end

