-- ==== Sys2Proof/Certificates/Slice0/Obligations.lean ====
section
/-! DEFINITION. The statements for the provers. Each docstring names the rules of spec/ that it formalises, and says where a
clause rests on a decision of the spec (92_eei_decisions.md) or on a choice of the model (notes/assumptions). -/

open Sys2Proof Sys2Proof.Machine

/-! ### Registers -/

/-- R21. -/
def Obligations.RegisterZeroReadsZeroOthersStore : Prop :=
  ∀ (s : State) (r q : Reg) (v : Word),
    s.reg 0 = 0 ∧ s.setReg 0 v = s ∧
    (r ≠ 0 → (s.setReg r v).reg r = v) ∧ (q ≠ r → (s.setReg r v).reg q = s.reg q)

/-! ### ALU (41_alu.md) -/

/-- R124, R125, R126. The sign extension of `addiu`'s immediate is the spec's decision D38. -/
def Obligations.WrappingArithmeticWritesItsResult : Prop :=
  ∀ (s : State) (d rs rt : Reg) (imm : BitVec 16),
    Completes (.addu d rs rt) s
      (fun t => Writes s t d (BitVec.ofNat 32 ((s.reg rs).toNat + (s.reg rt).toNat)) (s.pc + 4) s.halt) ∧
    Completes (.addiu d rs imm) s
      (fun t => Writes s t d (BitVec.ofInt 32 ((s.reg rs).toInt + imm.toInt)) (s.pc + 4) s.halt) ∧
    Completes (.subu d rs rt) s
      (fun t => Writes s t d (BitVec.ofInt 32 ((s.reg rs).toNat - (s.reg rt).toNat)) (s.pc + 4) s.halt)

/-- R121, R122, R123: no signed overflow. The sign extension of `addi`'s immediate is the spec's decision D38. -/
def Obligations.TrappingArithmeticWritesTheExactResult : Prop :=
  ∀ (s : State) (d rs rt : Reg) (imm : BitVec 16),
    let fits := fun n : Int => -2 ^ 31 ≤ n ∧ n ≤ 2 ^ 31 - 1
    let exact := fun (i : Instr) (n : Int) =>
      Completes i s (fun t => ∃ v : Word, v.toInt = n ∧ Writes s t d v (s.pc + 4) s.halt)
    (fits ((s.reg rs).toInt + (s.reg rt).toInt) → exact (.add d rs rt) ((s.reg rs).toInt + (s.reg rt).toInt)) ∧
    (fits ((s.reg rs).toInt + imm.toInt) → exact (.addi d rs imm) ((s.reg rs).toInt + imm.toInt)) ∧
    (fits ((s.reg rs).toInt - (s.reg rt).toInt) → exact (.sub d rs rt) ((s.reg rs).toInt - (s.reg rt).toInt))

/-- R121, R122, R123: Overflow exactly when the signed result does not fit, also with register 0 as destination; where it fits the
instruction completes with `halt` as it was, so it raises nothing. What follows the report is the spec's D1 and D2. -/
def Obligations.TrappingArithmeticRaisesOverflow : Prop :=
  ∀ (s : State) (d rs rt : Reg) (imm : BitVec 16),
    let fits := fun n : Int => -2 ^ 31 ≤ n ∧ n ≤ 2 ^ 31 - 1
    let traps := fun i : Instr => Completes i s (fun t => Moves s t (s.pc + 4) (.excepted ⟨.overflow, s.pc, none⟩))
    let trapsUnlessFits := fun (i : Instr) (n : Int) =>
      (¬ fits n → traps i) ∧ (fits n → Completes i s (fun t => t.halt = s.halt))
    trapsUnlessFits (.add d rs rt) ((s.reg rs).toInt + (s.reg rt).toInt) ∧
    trapsUnlessFits (.addi d rs imm) ((s.reg rs).toInt + imm.toInt) ∧
    trapsUnlessFits (.sub d rs rt) ((s.reg rs).toInt - (s.reg rt).toInt)

/-- R127-R133, R144: each result bit by bit. -/
def Obligations.BitwiseInstructionsWorkBitByBit : Prop :=
  ∀ (s : State) (d rs rt : Reg) (imm : BitVec 16),
    let bits := fun (i : Instr) (f : Nat → Bool) =>
      Completes i s (fun t => ∃ v : Word, (∀ k < 32, v.getLsbD k = f k) ∧ Writes s t d v (s.pc + 4) s.halt)
    let a := fun k => (s.reg rs).getLsbD k
    let b := fun k => (s.reg rt).getLsbD k
    let c := fun k => decide (k < 16) && imm.getLsbD k
    bits (.and d rs rt) (fun k => a k && b k) ∧
    bits (.or d rs rt) (fun k => a k || b k) ∧
    bits (.xor d rs rt) (fun k => a k != b k) ∧
    bits (.nor d rs rt) (fun k => !(a k || b k)) ∧
    bits (.andi d rs imm) (fun k => a k && c k) ∧
    bits (.ori d rs imm) (fun k => a k || c k) ∧
    bits (.xori d rs imm) (fun k => a k != c k) ∧
    bits (.lui d imm) (fun k => decide (16 ≤ k) && imm.getLsbD (k - 16))

/-- R134, R136, R138: shifts by `shamt` as multiplication and division by a power of two. -/
def Obligations.ImmediateShiftsScaleByPowersOfTwo : Prop :=
  ∀ (s : State) (d rt : Reg) (shamt : Nat), shamt < 32 →
    let a := s.reg rt
    Completes (.sll d rt shamt) s
      (fun t => ∃ v : Word, v.toNat = a.toNat * 2 ^ shamt % 2 ^ 32 ∧ Writes s t d v (s.pc + 4) s.halt) ∧
    Completes (.srl d rt shamt) s
      (fun t => ∃ v : Word, v.toNat = a.toNat / 2 ^ shamt ∧ Writes s t d v (s.pc + 4) s.halt) ∧
    Completes (.sra d rt shamt) s
      (fun t => ∃ v : Word, v.toInt = a.toInt / 2 ^ shamt ∧ Writes s t d v (s.pc + 4) s.halt)

/-- R135, R137, R139. That the amount is the low five bits of `x[rs]` is the spec's decision D19. -/
def Obligations.RegisterShiftsUseTheLowFiveBits : Prop :=
  ∀ (s : State) (d rt rs : Reg),
    let a := s.reg rt
    let amount := (s.reg rs).toNat % 32
    Completes (.sllv d rt rs) s
      (fun t => ∃ v : Word, v.toNat = a.toNat * 2 ^ amount % 2 ^ 32 ∧ Writes s t d v (s.pc + 4) s.halt) ∧
    Completes (.srlv d rt rs) s
      (fun t => ∃ v : Word, v.toNat = a.toNat / 2 ^ amount ∧ Writes s t d v (s.pc + 4) s.halt) ∧
    Completes (.srav d rt rs) s
      (fun t => ∃ v : Word, v.toInt = a.toInt / 2 ^ amount ∧ Writes s t d v (s.pc + 4) s.halt)

/-- R140-R143: exactly 1 when the comparison holds and exactly 0 when it does not. `sltiu` sign-extends its immediate and
then compares unsigned. -/
def Obligations.ComparisonsWriteOneOrZero : Prop :=
  ∀ (s : State) (d rs rt : Reg) (imm : BitVec 16),
    let writesWhen := fun (i : Instr) (c : Prop) =>
      Completes i s (fun t => ∃ v : Word, (c → v = 1) ∧ (¬ c → v = 0) ∧ Writes s t d v (s.pc + 4) s.halt)
    writesWhen (.slt d rs rt) ((s.reg rs).toInt < (s.reg rt).toInt) ∧
    writesWhen (.slti d rs imm) ((s.reg rs).toInt < imm.toInt) ∧
    writesWhen (.sltu d rs rt) ((s.reg rs).toNat < (s.reg rt).toNat) ∧
    writesWhen (.sltiu d rs imm) ((s.reg rs).toNat < (BitVec.ofInt 32 imm.toInt).toNat)

/-! ### Multiply, divide, `hi` and `lo` (42_muldiv.md) -/

/-- R161, R162. That `hi` takes the high half is the spec's decision D34. -/
def Obligations.MultiplyFillsHiAndLoWithTheProduct : Prop :=
  ∀ (s : State) (rs rt : Reg),
    Completes (.mult rs rt) s (fun t => ∃ hi lo : Word,
      (hi ++ lo).toInt = (s.reg rs).toInt * (s.reg rt).toInt ∧ WritesHiLo s t hi lo) ∧
    Completes (.multu rs rt) s (fun t => ∃ hi lo : Word,
      (hi ++ lo).toNat = (s.reg rs).toNat * (s.reg rt).toNat ∧ WritesHiLo s t hi lo)

/-- R160, R163. A zero divisor gives 0 and 0. Truncation and the remainder's sign are the spec's decision D33, the case -2^31 / -1 its
D18: there, and only there, `lo` is not the exact quotient. -/
def Obligations.SignedDivisionTruncatesTowardZero : Prop :=
  ∀ (s : State) (rs rt : Reg),
    let n := (s.reg rs).toInt
    let d := (s.reg rt).toInt
    Completes (.div rs rt) s (fun t => ∃ hi lo : Word, WritesHiLo s t hi lo ∧
      (d = 0 → lo = 0 ∧ hi = 0) ∧
      (n = -2 ^ 31 ∧ d = -1 → lo = 0x80000000 ∧ hi = 0) ∧
      (d ≠ 0 → ¬ (n = -2 ^ 31 ∧ d = -1) →
        n = lo.toInt * d + hi.toInt ∧ hi.toInt.natAbs < d.natAbs ∧
        (0 ≤ n → 0 ≤ hi.toInt) ∧ (n ≤ 0 → hi.toInt ≤ 0)))

/-- R164: a zero divisor gives 0 and 0, any other the quotient and the remainder. -/
def Obligations.UnsignedDivisionGivesQuotientAndRemainder : Prop :=
  ∀ (s : State) (rs rt : Reg),
    let n := (s.reg rs).toNat
    let d := (s.reg rt).toNat
    Completes (.divu rs rt) s (fun t => ∃ hi lo : Word, WritesHiLo s t hi lo ∧
      (d = 0 → lo = 0 ∧ hi = 0) ∧ (d ≠ 0 → n = lo.toNat * d + hi.toNat ∧ hi.toNat < d))

/-- R165-R168. -/
def Obligations.HiLoMovesCopyOneRegister : Prop :=
  ∀ (s : State) (r : Reg),
    Completes (.mfhi r) s (fun t => Writes s t r s.hi (s.pc + 4) s.halt) ∧
    Completes (.mflo r) s (fun t => Writes s t r s.lo (s.pc + 4) s.halt) ∧
    Completes (.mthi r) s (fun t => WritesHiLo s t (s.reg r) s.lo) ∧
    Completes (.mtlo r) s (fun t => WritesHiLo s t s.hi (s.reg r))

/-- R25: who writes `hi` and `lo`, who reads them (not even a new `hi` or `lo` depends on the old ones), and that the very next
`mfhi` or `mflo` reads what was written. -/
def Obligations.OnlyTheNamedInstructionsTouchHiAndLo : Prop :=
  ∀ (i : Instr) (s t : State), exec i s = .next t →
    (t.hi ≠ s.hi → IsMulDiv i ∨ ∃ rs, i = .mthi rs) ∧
    (t.lo ≠ s.lo → IsMulDiv i ∨ ∃ rs, i = .mtlo rs) ∧
    (∀ h l, (∀ rd, i ≠ .mfhi rd) → (∀ rd, i ≠ .mflo rd) →
      Completes i (s.setHiLo h l) (fun u => RegsKept t u ∧ u.pc = t.pc ∧ u.halt = t.halt ∧ MemoryKept t u ∧
        ((IsMulDiv i ∨ ∃ rs, i = .mthi rs) → u.hi = t.hi) ∧ ((IsMulDiv i ∨ ∃ rs, i = .mtlo rs) → u.lo = t.lo))) ∧
    (∀ rd, Completes (.mfhi rd) t (fun u => u.reg rd = if rd = 0 then 0 else t.hi)) ∧
    (∀ rd, Completes (.mflo rd) t (fun u => u.reg rd = if rd = 0 then 0 else t.lo))

/-! ### Branches and jumps (43_control.md) -/

/-- R180, R185-R190. The arithmetic modulo 2^32 is the spec's decision D9, the absence of a delay slot its D13. -/
def Obligations.BranchesRedirectExactlyWhenTaken : Prop :=
  ∀ (s : State) (rs rt : Reg) (offset : BitVec 16),
    let a := (s.reg rs).toInt
    let branches := fun (i : Instr) (taken : Prop) =>
      Completes i s (fun t => ∃ pc : Word, Moves s t pc s.halt ∧
        (taken → pc = BitVec.ofInt 32 (s.pc.toNat + 4 + 4 * offset.toInt)) ∧ (¬ taken → pc = s.pc + 4))
    branches (.beq rs rt offset) (s.reg rs = s.reg rt) ∧
    branches (.bne rs rt offset) (s.reg rs ≠ s.reg rt) ∧
    branches (.bgez rs offset) (0 ≤ a) ∧
    branches (.bgtz rs offset) (0 < a) ∧
    branches (.blez rs offset) (a ≤ 0) ∧
    branches (.bltz rs offset) (a < 0)

/-- R183, R184, R191, R192: the link is `ia + 4`, taken or not, and the condition is that of the old `x[rs]` (D17). -/
def Obligations.BranchAndLinkAlwaysLinks : Prop :=
  ∀ (s : State) (rs : Reg) (offset : BitVec 16),
    let a := (s.reg rs).toInt
    let links := fun (i : Instr) (taken : Prop) =>
      Completes i s (fun t => ∃ pc : Word, Writes s t 31 (s.pc + 4) pc s.halt ∧
        (taken → pc = BitVec.ofInt 32 (s.pc.toNat + 4 + 4 * offset.toInt)) ∧ (¬ taken → pc = s.pc + 4))
    links (.bgezal rs offset) (0 ≤ a) ∧ links (.bltzal rs offset) (a < 0)

/-- R181, R193, R194: the low 28 bits are replaced, the top 4 are those of `ia + 4`, and `jal` links to `ia + 8`
(90_conflicts.md C1). -/
def Obligations.JumpsStayInTheRegionOfTheNextInstruction : Prop :=
  ∀ (s : State) (target : BitVec 26),
    let dest := BitVec.ofNat 32 ((s.pc + 4).toNat / 2 ^ 28 * 2 ^ 28 + target.toNat * 4)
    Completes (.j target) s (fun t => Moves s t dest s.halt) ∧
    Completes (.jal target) s (fun t => Writes s t 31 (s.pc + 8) dest s.halt)

/-- R196, R197: an aligned target. `jalr`'s destination and link value are the spec's decisions D14 and D15; that the old `x[rs]` is
the target, also when `rd` = `rs`, is D17. -/
def Obligations.RegisterJumpsReachAnAlignedTarget : Prop :=
  ∀ (s : State) (rd rs : Reg), (s.reg rs).toNat % 4 = 0 →
    Completes (.jr rs) s (fun t => Moves s t (s.reg rs) s.halt) ∧
    Completes (.jalr rd rs) s (fun t => Writes s t rd (s.pc + 8) (s.reg rs) s.halt)

/-- R195 for `jr` and `jalr`: the redirect always happens, and a misaligned target is then reported. -/
def Obligations.RegisterJumpsRedirectAndReportMisalignment : Prop :=
  ∀ (s : State) (rd rs : Reg) (i : Instr), i = .jr rs ∨ i = .jalr rd rs →
    Completes i s (fun t => t.pc = s.reg rs ∧
      ((s.reg rs).toNat % 4 = 0 → t.halt = s.halt) ∧
      ((s.reg rs).toNat % 4 ≠ 0 → t.halt = .excepted ⟨.addressError, s.pc, some (s.reg rs)⟩))

/-- R196, R197: a misaligned target, with the frame. That `jalr`'s link stays written is the spec's decision D16. -/
def Obligations.MisalignedRegisterJumpsKeepTheirWrites : Prop :=
  ∀ (s : State) (rd rs : Reg), (s.reg rs).toNat % 4 ≠ 0 →
    let report := Halt.excepted ⟨.addressError, s.pc, some (s.reg rs)⟩
    Completes (.jr rs) s (fun t => Moves s t (s.reg rs) report) ∧
    Completes (.jalr rd rs) s (fun t => Writes s t rd (s.pc + 8) (s.reg rs) report)

/-! ### Loads and stores (44_loadstore.md) -/

/-- R210: the sum modulo 2^32 is the spec's decision D10. -/
def Obligations.EffectiveAddressIsBasePlusSignedOffset : Prop :=
  ∀ (s : State) (rs : Reg) (offset : BitVec 16),
    effAddr s rs offset = BitVec.ofInt 32 ((s.reg rs).toInt + offset.toInt)

/-- R214, R215: bytes need no alignment. Past the end of a short BIOS image see AccessPastTheImageEndsInBusFault. -/
def Obligations.ByteLoadsExtendTheByte : Prop :=
  ∀ (s : State) (rt rs : Reg) (offset : BitVec 16),
    let pa := translateVa (effAddr s rs offset)
    let b := physByte s pa.toNat
    ImageCovers s pa 1 →
      Completes (.lb rt offset rs) s (fun t => Writes s t rt (BitVec.ofInt 32 b.toInt) (s.pc + 4) s.halt) ∧
      Completes (.lbu rt offset rs) s (fun t => Writes s t rt (BitVec.ofNat 32 b.toNat) (s.pc + 4) s.halt)

/-- R216, R217: an even address, little-endian bytes. Past the end of a short BIOS image see AccessPastTheImageEndsInBusFault. -/
def Obligations.HalfwordLoadsExtendTheHalfword : Prop :=
  ∀ (s : State) (rt rs : Reg) (offset : BitVec 16),
    let ea := effAddr s rs offset
    let pa := translateVa ea
    let v := (physByte s (pa.toNat + 1) ++ physByte s pa.toNat : BitVec 16)
    ea.toNat % 2 = 0 → ImageCovers s pa 2 →
      Completes (.lh rt offset rs) s (fun t => Writes s t rt (BitVec.ofInt 32 v.toInt) (s.pc + 4) s.halt) ∧
      Completes (.lhu rt offset rs) s (fun t => Writes s t rt (BitVec.ofNat 32 v.toNat) (s.pc + 4) s.halt)

/-- R218: a word-aligned address, little-endian bytes. Past the end of a short BIOS image see AccessPastTheImageEndsInBusFault. -/
def Obligations.WordLoadsReadFourBytes : Prop :=
  ∀ (s : State) (rt rs : Reg) (offset : BitVec 16),
    let ea := effAddr s rs offset
    let pa := translateVa ea
    let b := fun k => physByte s (pa.toNat + k)
    ea.toNat % 4 = 0 → ImageCovers s pa 4 →
      Completes (.lw rt offset rs) s (fun t => Writes s t rt (b 3 ++ b 2 ++ b 1 ++ b 0) (s.pc + 4) s.halt)

/-- R219, R220, byte by byte, at every byte offset `k` of the word: `lwl` fills the register's bytes 3 down to 3 - k from the
word's bytes k down to 0, and `lwr` its bytes 0 up to 3 - k from the word's bytes k up to 3; the others are kept. The tables are
the spec's general knowledge (93_implementation_defined.md G15). -/
def Obligations.PartialLoadsMergeBytes : Prop :=
  ∀ (s : State) (rt rs : Reg) (offset : BitVec 16),
    let ea := effAddr s rs offset
    let k := ea.toNat % 4
    let pa := translateVa (ea &&& 0xFFFFFFFC)
    let w := fun j => physByte s (pa.toNat + j)
    let old := fun j => (s.reg rt).extractLsb' (8 * j) 8
    ImageCovers s pa 4 →
      Completes (.lwl rt offset rs) s (fun t => ∃ v : Word, Writes s t rt v (s.pc + 4) s.halt ∧
        ∀ j < 4, v.extractLsb' (8 * j) 8 = if 3 - k ≤ j then w (j - (3 - k)) else old j) ∧
      Completes (.lwr rt offset rs) s (fun t => ∃ v : Word, Writes s t rt v (s.pc + 4) s.halt ∧
        ∀ j < 4, v.extractLsb' (8 * j) 8 = if j ≤ 3 - k then w (k + j) else old j)

/-- The reconstruction property of the source (95_test_vectors.md L1.9, the spec's reading of it): `lwr` at an address and `lwl`
three bytes on load the unaligned little-endian word there, whatever the register held before. -/
def Obligations.UnalignedLoadPairReconstructsTheWord : Prop :=
  ∀ (s : State) (rt rs : Reg) (low high : BitVec 16),
    let ea := effAddr s rs low
    let b := fun j : Nat => physByte s (translateVa (ea + BitVec.ofNat 32 j)).toNat
    rt ≠ 0 → rt ≠ rs → high.toInt = low.toInt + 3 →
    ImageCovers s (translateVa (ea &&& 0xFFFFFFFC)) 4 → ImageCovers s (translateVa ((ea + 3) &&& 0xFFFFFFFC)) 4 →
      Completes (.lwr rt low rs) s (fun t =>
        Completes (.lwl rt high rs) t (fun u => u.reg rt = b 3 ++ b 2 ++ b 1 ++ b 0))

/-- R211: the alignment check comes before any access, and nothing but `pc` and `halt` changes. `lhu`'s check is the spec's decision
D11. -/
def Obligations.MisalignedAccessRaisesAddressError : Prop :=
  ∀ (s : State) (rt rs : Reg) (offset : BitVec 16),
    let ea := effAddr s rs offset
    let traps := fun i : Instr =>
      Completes i s (fun t => Moves s t (s.pc + 4) (.excepted ⟨.addressError, s.pc, some ea⟩))
    (ea.toNat % 2 ≠ 0 → traps (.lh rt offset rs) ∧ traps (.lhu rt offset rs) ∧ traps (.sh rt offset rs)) ∧
    (ea.toNat % 4 ≠ 0 → traps (.lw rt offset rs) ∧ traps (.sw rt offset rs))

/-- R52 (the spec's decisions D20, D21): an access in the BIOS window that passes the end of the image ends in BusFault at its starting
address, with nothing performed. For stores it is the model's reading of R50 beside R52 (notes/assumptions 6), and for `swl` and `swr`
the address is that of the first byte in their order that passes the end (notes/assumptions 7): for `swl` its starting byte, and for
`swr` its starting byte or else the first byte after the image. -/
def Obligations.AccessPastTheImageEndsInBusFault : Prop :=
  ∀ (s : State) (rt rs : Reg) (offset : BitVec 16),
    let ea := effAddr s rs offset
    let faults := fun (i : Instr) (pa : Word) => Completes i s (fun t => Moves s t (s.pc + 4) (.busFault pa))
    let pa := translateVa ea
    let wordPa := translateVa (ea &&& 0xFFFFFFFC)
    (¬ ImageCovers s pa 1 → faults (.lb rt offset rs) pa ∧ faults (.lbu rt offset rs) pa ∧ faults (.sb rt offset rs) pa ∧
      faults (.swl rt offset rs) pa ∧ faults (.swr rt offset rs) pa) ∧
    (ea.toNat % 2 = 0 → ¬ ImageCovers s pa 2 →
      faults (.lh rt offset rs) pa ∧ faults (.lhu rt offset rs) pa ∧ faults (.sh rt offset rs) pa) ∧
    (ea.toNat % 4 = 0 → ¬ ImageCovers s pa 4 → faults (.lw rt offset rs) pa ∧ faults (.sw rt offset rs) pa) ∧
    (¬ ImageCovers s wordPa 4 → faults (.lwl rt offset rs) wordPa ∧ faults (.lwr rt offset rs) wordPa) ∧
    (ImageCovers s pa 1 → ¬ ImageCovers s wordPa 4 →
      faults (.swr rt offset rs) (BitVec.ofNat 32 (0x1FC00000 + s.biosLen)))

/-- R221, R222, R223 with R49: a store to RAM or the scratchpad writes its bytes, lowest address least significant, and nothing
else. The premise that the memory is canonical is the model's own (notes/assumptions 2), kept by every cycle
(StepKeepsTheInvariant). -/
def Obligations.StoresWriteExactlyTheirBytes : Prop :=
  ∀ (s : State) (rt rs : Reg) (offset : BitVec 16),
    let ea := effAddr s rs offset
    let pa := (translateVa ea).toNat
    let byte := fun k => (s.reg rt).extractLsb' (8 * k) 8
    s.mem.wf → Writable pa →
      Completes (.sb rt offset rs) s (fun t => Stores s t pa 1 byte) ∧
      (ea.toNat % 2 = 0 → Completes (.sh rt offset rs) s (fun t => Stores s t pa 2 byte)) ∧
      (ea.toNat % 4 = 0 → Completes (.sw rt offset rs) s (fun t => Stores s t pa 4 byte))

/-- R224, R225: `swl` stores bytes 3 - k .. 3 of the register at the word's bytes 0 .. k, and `swr` bytes 0 .. 3 - k of the register
at the word's bytes k .. 3; nothing else changes. The tables are the spec's general knowledge (G15); the premise on the memory is the
model's own (notes/assumptions 2). -/
def Obligations.PartialStoresWriteExactlyTheirBytes : Prop :=
  ∀ (s : State) (rt rs : Reg) (offset : BitVec 16),
    let ea := effAddr s rs offset
    let k := ea.toNat % 4
    let pa := (translateVa (ea &&& 0xFFFFFFFC)).toNat
    let byte := fun j => (s.reg rt).extractLsb' (8 * j) 8
    s.mem.wf → Writable pa →
      Completes (.swl rt offset rs) s (fun t => Stores s t pa (k + 1) (fun j => byte (3 - k + j))) ∧
      Completes (.swr rt offset rs) s (fun t => Stores s t (pa + k) (4 - k) byte)

/-- R213 for the five stores: memory changes only at RAM and scratchpad bytes the store addresses; to a BIOS or unknown address nothing
is stored and no exception raised, the alignment check of `sh` and `sw` aside (R211); and no store writes a register. -/
def Obligations.StoresChangeOnlyAddressedWritableBytes : Prop :=
  ∀ (s t : State) (rt rs : Reg) (offset : BitVec 16) (i : Instr),
    let ea := effAddr s rs offset
    let pa := (translateVa ea).toNat
    let wordPa := (translateVa (ea &&& 0xFFFFFFFC)).toNat
    i = .sb rt offset rs ∨ i = .sh rt offset rs ∨ i = .sw rt offset rs ∨ i = .swl rt offset rs ∨ i = .swr rt offset rs →
    exec i s = .next t →
      RegsKept s t ∧ t.hi = s.hi ∧ t.lo = s.lo ∧
      (∀ a, t.mem.read a ≠ s.mem.read a → Writable a ∧
        ((i = .sb rt offset rs ∧ a = pa) ∨ (i = .sh rt offset rs ∧ pa ≤ a ∧ a < pa + 2) ∨
         (i = .sw rt offset rs ∧ pa ≤ a ∧ a < pa + 4) ∨ (i = .swl rt offset rs ∧ wordPa ≤ a ∧ a ≤ pa) ∨
         (i = .swr rt offset rs ∧ pa ≤ a ∧ a < wordPa + 4))) ∧
      (¬ Writable pa → MemoryKept s t ∧
        (¬ (i = .sh rt offset rs ∧ ea.toNat % 2 ≠ 0) → ¬ (i = .sw rt offset rs ∧ ea.toNat % 4 ≠ 0) →
          ∀ report, t.halt = .excepted report → s.halt = .excepted report))

/-- R213 with R50, R51: a store within the BIOS image or to an address of no device completes and changes only `pc`. -/
def Obligations.DroppedStoresOnlyAdvance : Prop :=
  ∀ (s : State) (rt rs : Reg) (offset : BitVec 16),
    let ea := effAddr s rs offset
    let pa := translateVa ea
    let advances := fun i : Instr => Completes i s (fun t => Moves s t (s.pc + 4) s.halt)
    ¬ Writable pa.toNat →
      (ImageCovers s pa 1 → advances (.sb rt offset rs) ∧ advances (.swl rt offset rs)) ∧
      (ea.toNat % 2 = 0 → ImageCovers s pa 2 → advances (.sh rt offset rs)) ∧
      (ea.toNat % 4 = 0 → ImageCovers s pa 4 → advances (.sw rt offset rs)) ∧
      (ImageCovers s (translateVa (ea &&& 0xFFFFFFFC)) 4 → advances (.swr rt offset rs))

/-- 90_conflicts.md C9, R218, R223: `sw` then `lw` at one aligned address. In RAM and the scratchpad the load answers the stored value;
in the BIOS image it answers the image's word, and where no device is it answers 0. The premise on the memory is the model's own
(notes/assumptions 2). -/
def Obligations.StoreThenLoadRoundTrip : Prop :=
  ∀ (s : State) (rt rd rs : Reg) (offset : BitVec 16),
    let ea := effAddr s rs offset
    let pa := translateVa ea
    let b := fun k => s.mem.read (pa.toNat + k)
    let loads := fun v : Word =>
      Completes (.sw rt offset rs) s (fun t => Completes (.lw rd offset rs) t (fun u => u.reg rd = v))
    rd ≠ 0 → ea.toNat % 4 = 0 →
      (s.mem.wf → Writable pa.toNat → loads (s.reg rt)) ∧
      (InBios pa.toNat → ImageCovers s pa 4 → loads (b 3 ++ b 2 ++ b 1 ++ b 0)) ∧
      (¬ Writable pa.toNat → ¬ InBios pa.toNat → loads 0)

/-! ### System, TLB and coprocessor instructions (45_system.md) -/

/-- R250, R251. -/
def Obligations.SystemCallAndBreakpointAlwaysRaise : Prop :=
  ∀ (s : State) (code : BitVec 20),
    Completes (.syscall code) s (fun t => Moves s t (s.pc + 4) (.excepted ⟨.systemCall, s.pc, none⟩)) ∧
    Completes (.break_ code) s (fun t => Moves s t (s.pc + 4) (.excepted ⟨.breakpoint, s.pc, none⟩))

/-- R252-R255. That the four are these and that `pc` is not advanced is the spec's decision D7. -/
def Obligations.TlbInstructionsRaiseReservedInstruction : Prop :=
  ∀ (s : State) (i : Instr), i = .tlbr ∨ i = .tlbwi ∨ i = .tlbwr ∨ i = .tlbp →
    Completes i s (fun t => Moves s t s.pc (.excepted ⟨.reservedInstruction, s.pc, none⟩))

/-- R256-R266, the spec's decision D6: each of the 36 coprocessor instructions halts the core with its own mnemonic and changes no
register, `hi`, `lo` or memory byte. -/
def Obligations.CoprocessorInstructionsAreRefusedByName : Prop :=
  ∀ (s : State) (rt rd rs : Reg) (offset : BitVec 16) (cofun : BitVec 25),
    let refuses := fun (i : Instr) (m : String) => Completes i s (fun t => Refuses s t m)
    (refuses (.mfc0 rt rd) "mfc0" ∧ refuses (.mfc1 rt rd) "mfc1" ∧ refuses (.mfc2 rt rd) "mfc2" ∧ refuses (.mfc3 rt rd) "mfc3") ∧
    (refuses (.cfc0 rt rd) "cfc0" ∧ refuses (.cfc1 rt rd) "cfc1" ∧ refuses (.cfc2 rt rd) "cfc2" ∧ refuses (.cfc3 rt rd) "cfc3") ∧
    (refuses (.mtc0 rt rd) "mtc0" ∧ refuses (.mtc1 rt rd) "mtc1" ∧ refuses (.mtc2 rt rd) "mtc2" ∧ refuses (.mtc3 rt rd) "mtc3") ∧
    (refuses (.ctc0 rt rd) "ctc0" ∧ refuses (.ctc1 rt rd) "ctc1" ∧ refuses (.ctc2 rt rd) "ctc2" ∧ refuses (.ctc3 rt rd) "ctc3") ∧
    (refuses (.bc0f offset) "bc0f" ∧ refuses (.bc1f offset) "bc1f" ∧ refuses (.bc2f offset) "bc2f" ∧ refuses (.bc3f offset) "bc3f") ∧
    (refuses (.bc0t offset) "bc0t" ∧ refuses (.bc1t offset) "bc1t" ∧ refuses (.bc2t offset) "bc2t" ∧ refuses (.bc3t offset) "bc3t") ∧
    (refuses (.cop1 cofun) "cop1" ∧ refuses (.cop2 cofun) "cop2" ∧ refuses (.cop3 cofun) "cop3") ∧
    refuses .rfe "rfe" ∧
    (refuses (.lwc0 rt offset rs) "lwc0" ∧ refuses (.lwc1 rt offset rs) "lwc1" ∧ refuses (.lwc2 rt offset rs) "lwc2" ∧
      refuses (.lwc3 rt offset rs) "lwc3") ∧
    (refuses (.swc0 rt offset rs) "swc0" ∧ refuses (.swc1 rt offset rs) "swc1" ∧ refuses (.swc2 rt offset rs) "swc2" ∧
      refuses (.swc3 rt offset rs) "swc3")

/-! ### The cycle (40_cycle.md) -/

/-- R102-R106: when the core runs, `pc` is aligned, the four bytes there are readable and they decode to `i`, one cycle is `i`'s
meaning on the very same state (which advances `pc` itself, R104). -/
def Obligations.StepRunsTheDecodedInstruction : Prop :=
  ∀ (s : State) (i : Instr),
    let pa := translateVa s.pc
    let b := fun k => physByte s (pa.toNat + k)
    s.halt = .running → s.pc.toNat % 4 = 0 → ImageCovers s pa 4 →
    decode [b 0, b 1, b 2, b 3] = .ok (i, []) → step s = exec i s

/-- R102, R103: the three ways a cycle ends at fetch or decode, each with `pc` not advanced. The misaligned fetch is the spec's decision
D8, the undecodable word its D5, the read past the image its D20. -/
def Obligations.FailedFetchLeavesPc : Prop :=
  ∀ (s : State), s.halt = .running →
    let pa := translateVa s.pc
    let b := fun k => physByte s (pa.toNat + k)
    let w : Word := b 3 ++ b 2 ++ b 1 ++ b 0
    let ends := fun h : Halt => ∃ t, step s = .next t ∧ Moves s t s.pc h
    (s.pc.toNat % 4 ≠ 0 → ends (.excepted ⟨.addressError, s.pc, some s.pc⟩)) ∧
    (s.pc.toNat % 4 = 0 → ¬ ImageCovers s pa 4 → ends (.busFault pa)) ∧
    (s.pc.toNat % 4 = 0 → ImageCovers s pa 4 → (∀ i, decodeWord w ≠ .ok i) → ends (.decodeFault w))

/-- R100: a cycle is defined exactly when `halt` is `running` (the spec's decisions D1, D37). -/
def Obligations.StepIsDefinedExactlyWhileRunning : Prop :=
  ∀ s : State, (s.halt = .running ↔ ∃ t, step s = .next t) ∧ (s.halt ≠ .running → step s = .fault .halted)

/-- R51: reads of an address in no device answer 0, writes change nothing; and a fetch there (so `sll r0, r0, 0`, R82, by the spec's own
inference) moves `pc` on and changes nothing else. -/
def Obligations.UnknownAddressesReadZeroAndIgnoreWrites : Prop :=
  ∀ (s : State) (pa : Word) (b : Byte) (h : Half) (w : Word), ¬ Writable pa.toNat → ¬ InBios pa.toNat →
    busReadByte s pa = .ok 0 ∧ busReadHalf s pa = .ok 0 ∧ busReadWord s pa = .ok 0 ∧
    busWriteByte s pa b = .ok s ∧ busWriteHalf s pa h = .ok s ∧ busWriteWord s pa w = .ok s ∧
    (s.halt = .running → s.pc.toNat % 4 = 0 → translateVa s.pc = pa →
      ∃ t, step s = .next t ∧ Moves s t (s.pc + 4) .running)

/-! ### Memory and translation (20_memory.md) -/

/-- R40, R41. The segment boundaries are the spec's decision D31. -/
def Obligations.TranslationMasksTheLowerThreeSegments : Prop :=
  ∀ va : Word,
    (va.toNat < 0xC0000000 → (translateVa va).toNat = va.toNat % 2 ^ 29) ∧
    (0xC0000000 ≤ va.toNat → translateVa va = va) ∧
    segment va = if va.toNat < 0x80000000 then .kuseg else if va.toNat < 0xA0000000 then .kseg0
      else if va.toNat < 0xC0000000 then .kseg1 else .kseg2

/-- R46, R47, R48: reads of backed device bytes, little-endian. -/
def Obligations.DeviceReadsAreLittleEndian : Prop :=
  ∀ (s : State) (pa : Word),
    let reads := fun n : Nat => pa.toNat + n ≤ 0x200000 ∨
      (0x1F800000 ≤ pa.toNat ∧ pa.toNat + n ≤ 0x1F800400) ∨ (InBios pa.toNat ∧ pa.toNat + n ≤ 0x1FC00000 + s.biosLen)
    let dev := fun k => s.mem.read (pa.toNat + k)
    (reads 1 → busReadByte s pa = .ok (dev 0)) ∧
    (reads 2 → busReadHalf s pa = .ok (dev 1 ++ dev 0)) ∧
    (reads 4 → busReadWord s pa = .ok (dev 3 ++ dev 2 ++ dev 1 ++ dev 0))

/-- R49: a write to RAM or the scratchpad sets its bytes, little-endian, and changes nothing else. R50: a write to the BIOS image changes
nothing, so a following read answers what it did. The premise on the memory is the model's own (notes/assumptions 2), and so is reading
R50's BIOS address as one within the image, since R52 faults the others (notes/assumptions 6). -/
def Obligations.DeviceWritesSetTheirBytesAndNothingElse : Prop :=
  ∀ (s : State) (pa : Word) (b : Byte) (h : Half) (w : Word),
    let fits := fun n : Nat => pa.toNat + n ≤ 0x200000 ∨ (0x1F800000 ≤ pa.toNat ∧ pa.toNat + n ≤ 0x1F800400)
    let rom := fun n : Nat => InBios pa.toNat ∧ pa.toNat + n ≤ 0x1FC00000 + s.biosLen
    let sets := fun (result : Except Word State) (n : Nat) (byte : Nat → Byte) =>
      ∃ m, result = .ok { s with mem := m } ∧ (∀ k < n, m.read (pa.toNat + k) = byte k) ∧
        ∀ a, a < pa.toNat ∨ pa.toNat + n ≤ a → m.read a = s.mem.read a
    (s.mem.wf →
      (fits 1 → sets (busWriteByte s pa b) 1 (fun _ => b)) ∧
      (fits 2 → sets (busWriteHalf s pa h) 2 (fun k => h.extractLsb' (8 * k) 8)) ∧
      (fits 4 → sets (busWriteWord s pa w) 4 (fun k => w.extractLsb' (8 * k) 8))) ∧
    (rom 1 → busWriteByte s pa b = .ok s) ∧ (rom 2 → busWriteHalf s pa h = .ok s) ∧ (rom 4 → busWriteWord s pa w = .ok s)

/-- R50, R61, R68: no cycle changes a byte outside RAM and the scratchpad, or the length of the BIOS image. -/
def Obligations.NoCycleChangesTheBios : Prop :=
  ∀ s t : State, step s = .next t → t.biosLen = s.biosLen ∧ ∀ a, ¬ Writable a → t.mem.read a = s.mem.read a

/-- R108, R49: an instruction that is no store changes no byte of memory. -/
def Obligations.OnlyStoresChangeMemory : Prop :=
  ∀ (i : Instr) (s t : State), exec i s = .next t → ¬ IsStore i → MemoryKept s t

/-- R65, R317 (the spec's inference and its D30): a word stored where the next cycle fetches is the word that cycle runs. The premise
on the memory is the model's own (notes/assumptions 2). -/
def Obligations.NextFetchSeesTheStore : Prop :=
  ∀ (s : State) (rt rs : Reg) (offset : BitVec 16) (i : Instr),
    let ea := effAddr s rs offset
    s.mem.wf → s.halt = .running → translateVa ea = translateVa (s.pc + 4) → (s.pc + 4).toNat % 4 = 0 → Writable (translateVa ea).toNat →
    decodeWord (s.reg rt) = .ok i →
      Completes (.sw rt offset rs) s (fun t => step t = exec i t)

/-- The model's canonical form (Sys2Proof/Machine/Ops.lean, notes/assumptions 2): equal bytes are equal memories, so two writes to
different addresses commute and a second write to one address replaces the first. -/
def Obligations.CanonicalMemoriesAreDeterminedByTheirBytes : Prop :=
  ∀ (m m' : Memory) (a a' : Nat) (b b' : Byte), m.wf → m'.wf →
    ((∀ k, m.read k = m'.read k) → m = m') ∧
    (a ≠ a' → (m.write a b).write a' b' = (m.write a' b').write a b) ∧ (m.write a b).write a b' = m.write a b'

/-! ### Whole-machine rules -/

/-- R23: no instruction writes a general register that its row of R23 does not name, and the reset event writes none. -/
def Obligations.OnlyTheDestinationRegisterChanges : Prop :=
  ∀ (i : Instr) (s t : State) (r : Reg), exec i s = .next t →
    (t.reg r ≠ s.reg r → destReg i = some r) ∧ (resetEvent s).reg r = s.reg r

/-- R282, R283, R281: what a cycle's exception can be. The kind is one of the five CORE produces, the report names the instruction's own
address, and `badva` is there for AddressError alone (`ia` and `badva` are the spec's D2). -/
def Obligations.ExceptionReportsNameTheInstruction : Prop :=
  ∀ (s t : State) (report : Report), step s = .next t → t.halt = .excepted report →
    Produced report.kind ∧ report.ia = s.pc ∧ (report.badva.isSome = true ↔ report.kind = .addressError)

/-- R287 (the spec's inference): an exception leaves memory, `hi` and `lo` as they were, and every register but the one a `jalr`
links into, whose write before the report is the spec's D16. -/
def Obligations.ExceptionsArePrecise : Prop :=
  ∀ (i : Instr) (s t : State) (report : Report), s.halt = .running → exec i s = .next t → t.halt = .excepted report →
    MemoryKept s t ∧ t.hi = s.hi ∧ t.lo = s.lo ∧ ∀ r, (∀ rs, i ≠ .jalr r rs) → t.reg r = s.reg r

/-- R28, R44, R52, R68, R281-R283: the invariant (Sys2Proof/Safety.lean) that every cycle keeps. -/
def Obligations.StepKeepsTheInvariant : Prop :=
  ∀ s t : State, Inv s → step s = .next t → Inv t

/-- R34, R35, R311: construction from any parameters that fit gives a state of the invariant, with `pc`, `halt`, the registers and the
image as given. The model's reset state is the construction whose open parameters are all 0 or empty (DESIGN CHOICE, notes/assumptions
1, 2 and 3). -/
def Obligations.ConstructionMeetsTheInvariant : Prop :=
  (∀ p : Config.Params, p.Fits →
    let s := construct p
    Inv s ∧ s.pc = 0xBFC00000 ∧ s.halt = .running ∧ s.gpr = p.gpr ∧ s.hi = p.hi ∧ s.lo = p.lo ∧ s.biosLen = p.bios.length ∧
    (∀ k b, p.ram[k]? = some b → s.mem.read k = b) ∧
    (∀ k b, p.scratch[k]? = some b → s.mem.read (0x1F800000 + k) = b) ∧
    (∀ k b, p.bios[k]? = some b → s.mem.read (0x1FC00000 + k) = b)) ∧
  State.reset = construct ⟨Vector.replicate 31 0, 0, 0, [], [], []⟩

/-- The invariant holds at the model's reset state. -/
def Obligations.ResetMeetsTheInvariant : Prop := Inv State.reset

/-- R310: the reset event. That it changes nothing else is the spec's decision D24. -/
def Obligations.ResetEventSetsPcAndHaltOnly : Prop :=
  ∀ s : State, Moves s (resetEvent s) 0xBFC00000 .running

/-- R312, R313 (the spec's inference): after construction, and after a reset event, the first cycle runs the word at BIOS offset 0; with
an empty image it ends in BusFault. -/
def Obligations.FirstCycleRunsTheWordAtBiosOffsetZero : Prop :=
  (∀ p : Config.Params, p.Fits →
    (∀ (b0 b1 b2 b3 : Byte) (rest : List Byte) (i : Instr), p.bios = b0 :: b1 :: b2 :: b3 :: rest →
      decode [b0, b1, b2, b3] = .ok (i, []) → step (construct p) = exec i (construct p)) ∧
    (p.bios = [] → ∃ t, step (construct p) = .next t ∧ Moves (construct p) t 0xBFC00000 (.busFault 0x1FC00000))) ∧
  (∀ (s : State) (i : Instr),
    let b := fun k : Nat => s.mem.read (0x1FC00000 + k)
    (4 ≤ s.biosLen → decode [b 0, b 1, b 2, b 3] = .ok (i, []) → step (resetEvent s) = exec i (resetEvent s)) ∧
    (s.biosLen = 0 → ∃ t, step (resetEvent s) = .next t ∧ Moves s t 0xBFC00000 (.busFault 0x1FC00000)))

/-! ### Encoding (30_encoding.md; every encoding is the spec's decision D32) -/

/-- R79: every well-formed instruction's word decodes to it, with every operand. -/
def Obligations.DecodeOfEncodeIsTheInstruction : Prop :=
  ∀ i : Instr, i.wf = true → decodeWord (encode i) = .ok i

/-- R79: what a word decodes to is well formed and encodes to that word, so no two instructions share a word and no bit of an accepted
word is ignored. -/
def Obligations.EncodeOfDecodeIsTheWord : Prop :=
  ∀ (w : Word) (i : Instr), decodeWord w = .ok i → i.wf = true ∧ encode i = w

/-- R79 against spec/opcode_table.json: a word decodes to an instruction of a row exactly when it satisfies the row's `match` and `mask`. -/
def Obligations.DecodingAgreesWithTheOpcodeTable : Prop :=
  ∀ (w : Word) (i : Instr),
    w &&& (tableRow i).2 = (tableRow i).1 ↔ ∃ j, decodeWord w = .ok j ∧ tableRow j = tableRow i

/-- R70: a decoder always consumes exactly 4 bytes, whatever follows them. -/
def Obligations.DecodeConsumesFourBytes : Prop :=
  ∀ (bytes rest : List Byte) (i : Instr), decode bytes = .ok (i, rest) →
    ∃ w, bytes = bytesOfWord w ++ rest ∧ decodeWord w = .ok i

/-- Words written out in 95_test_vectors.md, one or more from each family of the table. That the last two do not decode is the spec's
(R79); the names of their errors are the model's own choice (notes/assumptions 11). -/
def Obligations.SampleWordsDecode : Prop :=
  decodeWord 0x00221820 = .ok (.add 3 1 2) ∧ decodeWord 0x2022FFFF = .ok (.addi 2 1 0xFFFF) ∧
  decodeWord 0x00021FC3 = .ok (.sra 3 2 31) ∧ decodeWord 0x00221804 = .ok (.sllv 3 2 1) ∧
  decodeWord 0x0022001A = .ok (.div 1 2) ∧ decodeWord 0x00001810 = .ok (.mfhi 3) ∧
  decodeWord 0x10220003 = .ok (.beq 1 2 3) ∧ decodeWord 0x07F10010 = .ok (.bgezal 31 16) ∧
  decodeWord 0x0C004100 = .ok (.jal 0x4100) ∧ decodeWord 0x0100F809 = .ok (.jalr 31 8) ∧
  decodeWord 0x8C22FFFC = .ok (.lw 2 0xFFFC 1) ∧ decodeWord 0xB8220003 = .ok (.swr 2 3 1) ∧
  decodeWord 0x0048D14D = .ok (.break_ 0x12345) ∧ decodeWord 0x42000008 = .ok .tlbp ∧
  decodeWord 0x40026000 = .ok (.mfc0 2 12) ∧ decodeWord 0x4A000001 = .ok (.cop2 1) ∧
  decodeWord 0x00200000 = .error .requiredZero ∧ decodeWord 0xFC000000 = .error .reservedOpcode
end

