-- ==== Sys2Proof/Laws/Encoding.lean ====
section
/-! SUPPORT. The fields of a word put together by each format (spec 30_encoding.md R71-R75): one lemma per field per format. -/

namespace Sys2Proof

/-! ### `rType` -/

@[simp] theorem opF_rType (rs rt rd sh : BitVec 5) (fn : BitVec 6) : opF (rType rs rt rd sh fn) = 0x00#6 := by
  ext i h
  simp [opF, rType]
  grind

@[simp] theorem rsF_rType (rs rt rd sh : BitVec 5) (fn : BitVec 6) : rsF (rType rs rt rd sh fn) = rs := by
  ext i h
  simp [rsF, rType]
  grind

@[simp] theorem rtF_rType (rs rt rd sh : BitVec 5) (fn : BitVec 6) : rtF (rType rs rt rd sh fn) = rt := by
  ext i h
  simp [rtF, rType]
  grind

@[simp] theorem rdF_rType (rs rt rd sh : BitVec 5) (fn : BitVec 6) : rdF (rType rs rt rd sh fn) = rd := by
  ext i h
  simp [rdF, rType]
  grind

@[simp] theorem shamtF_rType (rs rt rd sh : BitVec 5) (fn : BitVec 6) : shamtF (rType rs rt rd sh fn) = sh := by
  ext i h
  simp [shamtF, rType]
  grind

@[simp] theorem functF_rType (rs rt rd sh : BitVec 5) (fn : BitVec 6) : functF (rType rs rt rd sh fn) = fn := by
  ext i h
  simp [functF, rType]
  grind

/-! ### `codeType` -/

@[simp] theorem opF_codeType (code : BitVec 20) (fn : BitVec 6) : opF (codeType code fn) = 0x00#6 := by
  ext i h
  simp [opF, codeType]
  grind

@[simp] theorem codeF_codeType (code : BitVec 20) (fn : BitVec 6) : codeF (codeType code fn) = code := by
  ext i h
  simp [codeF, codeType]
  grind

@[simp] theorem functF_codeType (code : BitVec 20) (fn : BitVec 6) : functF (codeType code fn) = fn := by
  ext i h
  simp [functF, codeType]
  grind

/-! ### `iType` -/

@[simp] theorem opF_iType (op : BitVec 6) (rs rt : BitVec 5) (imm : BitVec 16) : opF (iType op rs rt imm) = op := by
  ext i h
  simp [opF, iType]
  grind

@[simp] theorem rsF_iType (op : BitVec 6) (rs rt : BitVec 5) (imm : BitVec 16) : rsF (iType op rs rt imm) = rs := by
  ext i h
  simp [rsF, iType]
  grind

@[simp] theorem rtF_iType (op : BitVec 6) (rs rt : BitVec 5) (imm : BitVec 16) : rtF (iType op rs rt imm) = rt := by
  ext i h
  simp [rtF, iType]
  grind

@[simp] theorem immF_iType (op : BitVec 6) (rs rt : BitVec 5) (imm : BitVec 16) : immF (iType op rs rt imm) = imm := by
  ext i h
  simp [immF, iType]
  grind

/-! ### `jType` -/

@[simp] theorem opF_jType (op : BitVec 6) (target : BitVec 26) : opF (jType op target) = op := by
  ext i h
  simp [opF, jType]
  grind

@[simp] theorem targetF_jType (op : BitVec 6) (target : BitVec 26) : targetF (jType op target) = target := by
  ext i h
  simp [targetF, jType]
  grind

/-! ### `copMoveType` -/

@[simp] theorem opF_copMoveType (op : BitVec 6) (sub rt rd : BitVec 5) : opF (copMoveType op sub rt rd) = op := by
  ext i h
  simp [opF, copMoveType]
  grind

@[simp] theorem rsF_copMoveType (op : BitVec 6) (sub rt rd : BitVec 5) : rsF (copMoveType op sub rt rd) = sub := by
  ext i h
  simp [rsF, copMoveType]
  grind

@[simp] theorem rtF_copMoveType (op : BitVec 6) (sub rt rd : BitVec 5) : rtF (copMoveType op sub rt rd) = rt := by
  ext i h
  simp [rtF, copMoveType]
  grind

@[simp] theorem rdF_copMoveType (op : BitVec 6) (sub rt rd : BitVec 5) : rdF (copMoveType op sub rt rd) = rd := by
  ext i h
  simp [rdF, copMoveType]
  grind

@[simp] theorem copLowF_copMoveType (op : BitVec 6) (sub rt rd : BitVec 5) : copLowF (copMoveType op sub rt rd) = 0#11 := by
  ext i h
  simp [copLowF, copMoveType]
  grind

/-! ### `copOpType` -/

@[simp] theorem opF_copOpType (op : BitVec 6) (cofun : BitVec 25) : opF (copOpType op cofun) = op := by
  ext i h
  simp [opF, copOpType]
  grind

@[simp] theorem coF_copOpType (op : BitVec 6) (cofun : BitVec 25) : coF (copOpType op cofun) = 1#1 := by
  ext i h
  simp [coF, copOpType]
  grind

@[simp] theorem cofunF_copOpType (op : BitVec 6) (cofun : BitVec 25) : cofunF (copOpType op cofun) = cofun := by
  ext i h
  simp [cofunF, copOpType]
  grind

/-! ### `cop0OpType` -/

@[simp] theorem opF_cop0OpType (fn : BitVec 6) : opF (cop0OpType fn) = 0x10#6 := by
  revert fn
  decide

@[simp] theorem coF_cop0OpType (fn : BitVec 6) : coF (cop0OpType fn) = 1#1 := by
  revert fn
  decide

@[simp] theorem copHighF_cop0OpType (fn : BitVec 6) : copHighF (cop0OpType fn) = 0#19 := by
  revert fn
  decide

@[simp] theorem functF_cop0OpType (fn : BitVec 6) : functF (cop0OpType fn) = fn := by
  revert fn
  decide

/-! ### The coprocessor-operation bit -/

/-- `co` is the top bit of `rs`. -/
theorem coF_eq (w : Word) : coF w = (rsF w).extractLsb' 4 1 := by
  ext i h
  obtain rfl : i = 0 := by omega
  simp [coF, rsF]

/-! ### A word and its four bytes -/

theorem bytesOfWord_wordOfBytes (b0 b1 b2 b3 : Byte) : bytesOfWord (wordOfBytes b0 b1 b2 b3) = [b0, b1, b2, b3] := by
  simp only [bytesOfWord, List.cons.injEq, and_true]
  refine ⟨?_, ?_, ?_, ?_⟩ <;> ext i h <;> simp [wordOfBytes] <;> grind

theorem wordOfBytes_bytesOfWord (w : Word) :
    wordOfBytes (w.extractLsb' 0 8) (w.extractLsb' 8 8) (w.extractLsb' 16 8) (w.extractLsb' 24 8) = w := by
  ext i h
  simp [wordOfBytes]
  grind

end Sys2Proof
end

