-- ==== Sys2Proof/Laws/Memory.lean ====
section
/-! SUPPORT. The laws of the byte list: reading after writing, and the canonical form. -/

namespace Sys2Proof.Machine

/-- A list whose addresses all lie above `k` holds at `k` what an unlisted address holds. -/
theorem read_of_all_above {m : Memory} {k : Nat} (h : ∀ c ∈ m, k < c.1) : m.read k = unlistedByte := by
  induction m with
  | nil => rfl
  | cons c m ih =>
    obtain ⟨a, b⟩ := c
    have h1 : k < a := h (a, b) (by simp)
    have h2 : k ≠ a := by omega
    simp only [Memory.read, h2, if_false]
    exact ih fun c hc => h c (by simp [hc])

/-- In a canonical list, every address after the head is above the head's. -/
theorem wf_cons {a : Nat} {b : Byte} {m : Memory} :
    Memory.wf ((a, b) :: m) ↔ (∀ c ∈ m, a < c.1) ∧ b ≠ unlistedByte ∧ Memory.wf m := by
  simp only [Memory.wf, List.pairwise_cons, List.forall_mem_cons]
  tauto

theorem wf_nil : Memory.wf [] := by simp [Memory.wf]

/-- Every address of a written list is the written one or was listed. -/
theorem mem_write {m : Memory} {k : Nat} {v : Byte} {c : Host.Cell} (h : c ∈ m.write k v) : c.1 = k ∨ c ∈ m := by
  induction m with
  | nil =>
    simp only [Memory.write] at h
    split at h <;> simp_all
  | cons d m ih =>
    obtain ⟨a, b⟩ := d
    simp only [Memory.write] at h
    split at h
    · split at h
      · exact .inr h
      · rcases List.mem_cons.1 h with h | h
        · exact .inl (by simp [h])
        · exact .inr h
    · split at h
      · split at h
        · exact .inr (by simp [h])
        · rcases List.mem_cons.1 h with h | h
          · exact .inl (by simp_all)
          · exact .inr (by simp [h])
      · rcases List.mem_cons.1 h with h | h
        · simp [h]
        · rcases ih h with h | h <;> simp [h]

/-- A write keeps the canonical form. -/
theorem write_wf {m : Memory} (k : Nat) (v : Byte) (h : m.wf) : (m.write k v).wf := by
  induction m with
  | nil =>
    simp only [Memory.write]
    split
    · exact wf_nil
    · next hv => exact wf_cons.2 ⟨by simp, hv, wf_nil⟩
  | cons c m ih =>
    obtain ⟨a, b⟩ := c
    obtain ⟨h1, h2, h3⟩ := wf_cons.1 h
    simp only [Memory.write]
    split
    · next hk =>
      split
      · exact h
      · next hv =>
        refine wf_cons.2 ⟨fun c hc => ?_, hv, h⟩
        rcases List.mem_cons.1 hc with rfl | hc
        · exact hk
        · have := h1 c hc; omega
    · split
      · split
        · exact h3
        · next hv => exact wf_cons.2 ⟨h1, hv, h3⟩
      · refine wf_cons.2 ⟨fun c hc => ?_, h2, ih h3⟩
        rcases mem_write hc with hc | hc
        · omega
        · exact h1 c hc

/-- A write leaves every other address alone. No canonical form is needed. -/
theorem read_write_of_ne (m : Memory) {k a : Nat} (v : Byte) (h : a ≠ k) : (m.write k v).read a = m.read a := by
  induction m with
  | nil =>
    simp only [Memory.write]
    split <;> simp [Memory.read, h]
  | cons c m ih =>
    obtain ⟨x, b⟩ := c
    simp only [Memory.write]
    split
    · split <;> simp [Memory.read, h]
    · split
      · next hx =>
        have : a ≠ x := by omega
        split <;> simp [Memory.read, this]
      · simp only [Memory.read, ih]

/-- In a canonical list, a read after a write to the same address gives the value written. -/
theorem read_write_same {m : Memory} (k : Nat) (v : Byte) (hm : m.wf) : (m.write k v).read k = v := by
  induction m with
  | nil =>
    simp only [Memory.write]
    split <;> simp_all [Memory.read]
  | cons c m ih =>
    obtain ⟨x, b⟩ := c
    obtain ⟨h1, h2, h3⟩ := wf_cons.1 hm
    simp only [Memory.write]
    split
    · next hk =>
      split
      · next hv =>
        have : k ≠ x := by omega
        simp only [Memory.read, this, if_false]
        rw [read_of_all_above fun c hc => by have := h1 c hc; omega, hv]
      · simp [Memory.read]
    · split
      · next hx =>
        split
        · next hv => rw [read_of_all_above fun c hc => by have := h1 c hc; omega, hv]
        · simp [Memory.read, hx]
      · next hx => simp [Memory.read, hx, ih h3]

/-! ### Halfwords and words -/

theorem write16_wf {m : Memory} (a : Nat) (v : Half) (h : m.wf) : (m.write16 a v).wf := write_wf _ _ (write_wf _ _ h)

theorem write32_wf {m : Memory} (a : Nat) (v : Word) (h : m.wf) : (m.write32 a v).wf :=
  write_wf _ _ (write_wf _ _ (write_wf _ _ (write_wf _ _ h)))

/-- A halfword write leaves every byte outside its two alone. -/
theorem read_write16_of_outside (m : Memory) {a k : Nat} (v : Half) (h : k < a ∨ a + 2 ≤ k) :
    (m.write16 a v).read k = m.read k := by
  unfold Memory.write16
  rw [read_write_of_ne _ _ (by omega), read_write_of_ne _ _ (by omega)]

/-- A word write leaves every byte outside its four alone. -/
theorem read_write32_of_outside (m : Memory) {a k : Nat} (v : Word) (h : k < a ∨ a + 4 ≤ k) :
    (m.write32 a v).read k = m.read k := by
  unfold Memory.write32
  rw [read_write_of_ne _ _ (by omega), read_write_of_ne _ _ (by omega), read_write_of_ne _ _ (by omega),
    read_write_of_ne _ _ (by omega)]

/-- A halfword write stores its two bytes, the lower address less significant. -/
theorem read_write16 {m : Memory} (a : Nat) (v : Half) (hm : m.wf) {k : Nat} (hk : k < 2) :
    (m.write16 a v).read (a + k) = v.extractLsb' (8 * k) 8 := by
  unfold Memory.write16
  have h1 := write_wf a (v.extractLsb' 0 8) hm
  obtain rfl | rfl : k = 0 ∨ k = 1 := by omega
  · rw [read_write_of_ne _ _ (by omega)]
    exact read_write_same _ _ hm
  · exact read_write_same _ _ h1

/-- A word write stores its four bytes, the lowest address least significant. -/
theorem read_write32 {m : Memory} (a : Nat) (v : Word) (hm : m.wf) {k : Nat} (hk : k < 4) :
    (m.write32 a v).read (a + k) = v.extractLsb' (8 * k) 8 := by
  unfold Memory.write32
  have h1 := write_wf a (v.extractLsb' 0 8) hm
  have h2 := write_wf (a + 1) (v.extractLsb' 8 8) h1
  have h3 := write_wf (a + 2) (v.extractLsb' 16 8) h2
  obtain rfl | rfl | rfl | rfl : k = 0 ∨ k = 1 ∨ k = 2 ∨ k = 3 := by omega
  · rw [read_write_of_ne _ _ (by omega), read_write_of_ne _ _ (by omega), read_write_of_ne _ _ (by omega)]
    exact read_write_same _ _ hm
  · rw [read_write_of_ne _ _ (by omega), read_write_of_ne _ _ (by omega)]
    exact read_write_same _ _ h1
  · rw [read_write_of_ne _ _ (by omega)]
    exact read_write_same _ _ h2
  · exact read_write_same _ _ h3

/-- Every address of a memory after a halfword write is one of its two or was listed. -/
theorem mem_write16 {m : Memory} {a : Nat} {v : Half} {c : Host.Cell} (h : c ∈ m.write16 a v) :
    (a ≤ c.1 ∧ c.1 < a + 2) ∨ c ∈ m := by
  unfold Memory.write16 at h
  rcases mem_write h with h | h
  · omega
  rcases mem_write h with h | h
  · omega
  exact .inr h

/-- Every address of a memory after a word write is one of its four or was listed. -/
theorem mem_write32 {m : Memory} {a : Nat} {v : Word} {c : Host.Cell} (h : c ∈ m.write32 a v) :
    (a ≤ c.1 ∧ c.1 < a + 4) ∨ c ∈ m := by
  unfold Memory.write32 at h
  rcases mem_write h with h | h
  · omega
  rcases mem_write h with h | h
  · omega
  rcases mem_write h with h | h
  · omega
  rcases mem_write h with h | h
  · omega
  exact .inr h

/-! ### Byte strings -/

/-- Every cell of a byte string lies within it. -/
theorem mem_ofBytes {a : Nat} {bs : List Byte} {c : Host.Cell} (h : c ∈ Memory.ofBytes a bs) :
    a ≤ c.1 ∧ c.1 < a + bs.length ∧ c.2 ≠ unlistedByte := by
  induction bs generalizing a with
  | nil => simp [Memory.ofBytes] at h
  | cons b bs ih =>
    have up : c ∈ Memory.ofBytes (a + 1) bs → a ≤ c.1 ∧ c.1 < a + (b :: bs).length ∧ c.2 ≠ unlistedByte := fun h => by
      have := ih h
      simp only [List.length_cons]
      exact ⟨by omega, by omega, this.2.2⟩
    simp only [Memory.ofBytes] at h
    split at h
    · exact up h
    · next hb =>
      rcases List.mem_cons.1 h with rfl | h
      · simpa using hb
      · exact up h

/-- The cells of a byte string are in canonical form. -/
theorem ofBytes_wf (a : Nat) (bs : List Byte) : (Memory.ofBytes a bs).wf := by
  induction bs generalizing a with
  | nil => exact wf_nil
  | cons b bs ih =>
    simp only [Memory.ofBytes]
    split
    · exact ih _
    · next hb => exact wf_cons.2 ⟨fun c hc => by have := mem_ofBytes hc; omega, hb, ih _⟩

/-- The bytes of a byte string read back. -/
theorem read_ofBytes {a k : Nat} {bs : List Byte} {b : Byte} (h : bs[k]? = some b) :
    (Memory.ofBytes a bs).read (a + k) = b := by
  induction bs generalizing a k with
  | nil => simp at h
  | cons c bs ih =>
    cases k with
    | zero =>
      obtain rfl : c = b := by simpa using h
      simp only [Memory.ofBytes]
      split
      · next hc => rw [read_of_all_above fun d hd => by have := mem_ofBytes hd; omega, hc]
      · simp [Memory.read]
    | succ k =>
      have step := ih (a := a + 1) (k := k) (by simpa using h)
      rw [show a + (k + 1) = a + 1 + k by omega]
      simp only [Memory.ofBytes]
      split
      · exact step
      · simp only [Memory.read, show a + 1 + k ≠ a by omega, if_false]
        exact step

/-- Canonical lists one wholly below the other, joined, are canonical. -/
theorem append_wf {m m' : Memory} (h : m.wf) (h' : m'.wf) (hlt : ∀ c ∈ m, ∀ d ∈ m', c.1 < d.1) : (m ++ m').wf := by
  refine ⟨List.pairwise_append.2 ⟨h.1, h'.1, hlt⟩, fun c hc => ?_⟩
  rcases List.mem_append.1 hc with hc | hc
  · exact h.2 c hc
  · exact h'.2 c hc

/-- A read passes by a list that does not name the address. -/
theorem read_append_right {m m' : Memory} {k : Nat} (h : ∀ c ∈ m, c.1 ≠ k) : Memory.read (m ++ m') k = m'.read k := by
  induction m with
  | nil => rfl
  | cons c m ih =>
    obtain ⟨a, b⟩ := c
    have hne : k ≠ a := fun e => h (a, b) (by simp) e.symm
    simp only [List.cons_append, Memory.read, hne, if_false]
    exact ih fun c hc => h c (by simp [hc])

/-- A read stops in the first list where the second does not name the address. -/
theorem read_append_left {m m' : Memory} {k : Nat} (h : ∀ c ∈ m', c.1 ≠ k) : Memory.read (m ++ m') k = m.read k := by
  induction m with
  | nil =>
    induction m' with
    | nil => rfl
    | cons c m' ih =>
      obtain ⟨a, b⟩ := c
      have hne : k ≠ a := fun e => h (a, b) (by simp) e.symm
      simp only [List.nil_append, Memory.read, hne, if_false] at ih ⊢
      exact ih fun c hc => h c (by simp [hc])
  | cons c m ih =>
    obtain ⟨a, b⟩ := c
    simp only [List.cons_append, Memory.read]
    split
    · rfl
    · exact ih

end Sys2Proof.Machine
end

