-- ==== Sys2Proof/Laws/State.lean ====
section
/-! SUPPORT. One lemma per field per update of the state, and the laws of the general registers (spec 10_state.md R21). -/

namespace Sys2Proof.Machine

/-! ### `x[r] <- v` -/

@[simp] theorem setReg_hi (s : State) (r : Reg) (v : Word) : (s.setReg r v).hi = s.hi := by
  unfold State.setReg; split <;> rfl
@[simp] theorem setReg_lo (s : State) (r : Reg) (v : Word) : (s.setReg r v).lo = s.lo := by
  unfold State.setReg; split <;> rfl
@[simp] theorem setReg_pc (s : State) (r : Reg) (v : Word) : (s.setReg r v).pc = s.pc := by
  unfold State.setReg; split <;> rfl
@[simp] theorem setReg_halt (s : State) (r : Reg) (v : Word) : (s.setReg r v).halt = s.halt := by
  unfold State.setReg; split <;> rfl
@[simp] theorem setReg_mem (s : State) (r : Reg) (v : Word) : (s.setReg r v).mem = s.mem := by
  unfold State.setReg; split <;> rfl
@[simp] theorem setReg_biosLen (s : State) (r : Reg) (v : Word) : (s.setReg r v).biosLen = s.biosLen := by
  unfold State.setReg; split <;> rfl

/-- Two indices other than 0 name the same slot only if they are equal. -/
theorem slot_injective {r q : Reg} (hr : r ≠ 0#5) (hq : q ≠ 0#5) (h : r.toNat - 1 = q.toNat - 1) : r = q := by
  have h1 : r.toNat ≠ 0 := fun h0 => hr (BitVec.eq_of_toNat_eq (by simpa using h0))
  have h2 : q.toNat ≠ 0 := fun h0 => hq (BitVec.eq_of_toNat_eq (by simpa using h0))
  exact BitVec.eq_of_toNat_eq (by omega)

@[simp] theorem reg_zero (s : State) : s.reg 0#5 = 0#32 := by simp [State.reg]

@[simp] theorem setReg_zero (s : State) (v : Word) : s.setReg 0#5 v = s := by simp [State.setReg]

/-- A register other than 0 reads the value written. -/
theorem reg_setReg_same (s : State) {r : Reg} (v : Word) (h : r ≠ 0#5) : (s.setReg r v).reg r = v := by
  simp [State.reg, State.setReg, h]

/-- A write leaves every other register alone. -/
theorem reg_setReg_of_ne (s : State) {r q : Reg} (v : Word) (h : q ≠ r) : (s.setReg r v).reg q = s.reg q := by
  by_cases hr : r = 0#5
  · simp [State.setReg, hr]
  by_cases hq : q = 0#5
  · simp [State.reg, hq]
  have hne : r.toNat - 1 ≠ q.toNat - 1 := fun e => h (slot_injective hr hq e).symm
  simp [State.reg, State.setReg, hr, hq, hne]

/-- Both cases at once. -/
theorem reg_setReg (s : State) (r q : Reg) (v : Word) :
    (s.setReg r v).reg q = if q = r then (if r = 0#5 then 0#32 else v) else s.reg q := by
  by_cases h : q = r
  · subst h
    by_cases h0 : q = 0#5
    · simp [h0]
    · simp [h0, reg_setReg_same]
  · simp [h, reg_setReg_of_ne]

/-! ### `hi`, `lo` and `pc` -/

@[simp] theorem setHiLo_reg (s : State) (h l : Word) (r : Reg) : (s.setHiLo h l).reg r = s.reg r := rfl
@[simp] theorem setHiLo_hi (s : State) (h l : Word) : (s.setHiLo h l).hi = h := rfl
@[simp] theorem setHiLo_lo (s : State) (h l : Word) : (s.setHiLo h l).lo = l := rfl
@[simp] theorem setHiLo_pc (s : State) (h l : Word) : (s.setHiLo h l).pc = s.pc := rfl
@[simp] theorem setHiLo_halt (s : State) (h l : Word) : (s.setHiLo h l).halt = s.halt := rfl
@[simp] theorem setHiLo_mem (s : State) (h l : Word) : (s.setHiLo h l).mem = s.mem := rfl
@[simp] theorem setHiLo_biosLen (s : State) (h l : Word) : (s.setHiLo h l).biosLen = s.biosLen := rfl

@[simp] theorem setHi_reg (s : State) (v : Word) (r : Reg) : (s.setHi v).reg r = s.reg r := rfl
@[simp] theorem setHi_hi (s : State) (v : Word) : (s.setHi v).hi = v := rfl
@[simp] theorem setHi_lo (s : State) (v : Word) : (s.setHi v).lo = s.lo := rfl
@[simp] theorem setHi_pc (s : State) (v : Word) : (s.setHi v).pc = s.pc := rfl
@[simp] theorem setHi_halt (s : State) (v : Word) : (s.setHi v).halt = s.halt := rfl
@[simp] theorem setHi_mem (s : State) (v : Word) : (s.setHi v).mem = s.mem := rfl
@[simp] theorem setHi_biosLen (s : State) (v : Word) : (s.setHi v).biosLen = s.biosLen := rfl

@[simp] theorem setLo_reg (s : State) (v : Word) (r : Reg) : (s.setLo v).reg r = s.reg r := rfl
@[simp] theorem setLo_hi (s : State) (v : Word) : (s.setLo v).hi = s.hi := rfl
@[simp] theorem setLo_lo (s : State) (v : Word) : (s.setLo v).lo = v := rfl
@[simp] theorem setLo_pc (s : State) (v : Word) : (s.setLo v).pc = s.pc := rfl
@[simp] theorem setLo_halt (s : State) (v : Word) : (s.setLo v).halt = s.halt := rfl
@[simp] theorem setLo_mem (s : State) (v : Word) : (s.setLo v).mem = s.mem := rfl
@[simp] theorem setLo_biosLen (s : State) (v : Word) : (s.setLo v).biosLen = s.biosLen := rfl

@[simp] theorem setPc_reg (s : State) (v : Word) (r : Reg) : (s.setPc v).reg r = s.reg r := rfl
@[simp] theorem setPc_hi (s : State) (v : Word) : (s.setPc v).hi = s.hi := rfl
@[simp] theorem setPc_lo (s : State) (v : Word) : (s.setPc v).lo = s.lo := rfl
@[simp] theorem setPc_pc (s : State) (v : Word) : (s.setPc v).pc = v := rfl
@[simp] theorem setPc_halt (s : State) (v : Word) : (s.setPc v).halt = s.halt := rfl
@[simp] theorem setPc_mem (s : State) (v : Word) : (s.setPc v).mem = s.mem := rfl
@[simp] theorem setPc_biosLen (s : State) (v : Word) : (s.setPc v).biosLen = s.biosLen := rfl

@[simp] theorem advance_reg (s : State) (r : Reg) : (advance s).reg r = s.reg r := rfl
@[simp] theorem advance_hi (s : State) : (advance s).hi = s.hi := rfl
@[simp] theorem advance_lo (s : State) : (advance s).lo = s.lo := rfl
@[simp] theorem advance_pc (s : State) : (advance s).pc = s.pc + 4 := rfl
@[simp] theorem advance_halt (s : State) : (advance s).halt = s.halt := rfl
@[simp] theorem advance_mem (s : State) : (advance s).mem = s.mem := rfl
@[simp] theorem advance_biosLen (s : State) : (advance s).biosLen = s.biosLen := rfl

/-! ### `halt` and the memory -/

@[simp] theorem withHalt_reg (s : State) (h : Halt) (r : Reg) : ({ s with halt := h } : State).reg r = s.reg r := rfl
@[simp] theorem withMem_reg (s : State) (m : Memory) (r : Reg) : ({ s with mem := m } : State).reg r = s.reg r := rfl

@[simp] theorem resetEvent_reg (s : State) (r : Reg) : (resetEvent s).reg r = s.reg r := rfl
@[simp] theorem resetEvent_hi (s : State) : (resetEvent s).hi = s.hi := rfl
@[simp] theorem resetEvent_lo (s : State) : (resetEvent s).lo = s.lo := rfl
@[simp] theorem resetEvent_pc (s : State) : (resetEvent s).pc = Config.resetPc := rfl
@[simp] theorem resetEvent_halt (s : State) : (resetEvent s).halt = .running := rfl
@[simp] theorem resetEvent_mem (s : State) : (resetEvent s).mem = s.mem := rfl
@[simp] theorem resetEvent_biosLen (s : State) : (resetEvent s).biosLen = s.biosLen := rfl

end Sys2Proof.Machine
end

