-- ==== Sys2Proof/Laws/Ops.lean ====
section
/-! SUPPORT. One lemma per shared operation that says everything it can do: translation, routing, the Bus, the ends of the
instruction families, and the cycle. The device map stands in plain numbers (spec 20_memory.md R44). -/

namespace Sys2Proof.Machine

/-! ### Translation and alignment -/

/-- The top three bits of a virtual address, as a number. -/
theorem topBits_toNat (va : Word) : (va.extractLsb' 29 3).toNat = va.toNat / 2 ^ 29 := by
  have := va.isLt
  rw [BitVec.extractLsb'_toNat, Nat.shiftRight_eq_div_pow]
  exact Nat.mod_eq_of_lt (by omega)

/-- The segment, by the top three bits as a number (R40). -/
theorem segment_eq (va : Word) :
    segment va = if va.toNat / 2 ^ 29 < 4 then .kuseg else if va.toNat / 2 ^ 29 = 4 then .kseg0
      else if va.toNat / 2 ^ 29 = 5 then .kseg1 else .kseg2 := by
  rw [← topBits_toNat]
  unfold segment
  generalize va.extractLsb' 29 3 = q
  revert q
  decide

/-- Translation in numbers (R41). -/
theorem translateVa_toNat (va : Word) :
    (translateVa va).toNat = if va.toNat < 0xC0000000 then va.toNat % 2 ^ 29 else va.toNat := by
  have hlt := va.isLt
  have hand : (va &&& 0x1FFFFFFF).toNat = va.toNat % 2 ^ 29 := by
    rw [BitVec.toNat_and]
    exact Nat.and_two_pow_sub_one_eq_mod _ 29
  unfold translateVa
  rw [segment_eq]
  split <;> rename_i h <;> (repeat' split at h) <;> simp only [reduceCtorEq] at h <;> (try rw [hand]) <;> split <;> omega

/-- Translation keeps the place in the word. -/
theorem translateVa_mod_four (va : Word) : (translateVa va).toNat % 4 = va.toNat % 4 := by
  rw [translateVa_toNat]; split <;> omega

theorem translateVa_mod_two (va : Word) : (translateVa va).toNat % 2 = va.toNat % 2 := by
  rw [translateVa_toNat]; split <;> omega

/-- Within one aligned word, translation keeps distances. -/
theorem translateVa_add {va : Word} (ha : va.toNat % 4 = 0) {i : Nat} (hi : i < 4) :
    (translateVa (va + BitVec.ofNat 32 i)).toNat = (translateVa va).toNat + i := by
  have := va.isLt
  have e : (va + BitVec.ofNat 32 i).toNat = va.toNat + i := by
    rw [BitVec.toNat_add, BitVec.toNat_ofNat]
    omega
  rw [translateVa_toNat, translateVa_toNat, e]
  split <;> split <;> omega

theorem aligned4_eq (va : Word) : aligned4 va = decide (va.toNat % 4 = 0) := by
  have h : (va.extractLsb' 0 2).toNat = va.toNat % 4 := by simp [BitVec.extractLsb'_toNat]
  rw [aligned4, beq_eq_decide, decide_eq_decide, ← h]
  exact ⟨fun e => by rw [e]; rfl, fun e => BitVec.eq_of_toNat_eq e⟩

theorem aligned2_eq (va : Word) : aligned2 va = decide (va.toNat % 2 = 0) := by
  have h : (va.extractLsb' 0 1).toNat = va.toNat % 2 := by simp [BitVec.extractLsb'_toNat]
  rw [aligned2, beq_eq_decide, decide_eq_decide, ← h]
  exact ⟨fun e => by rw [e]; rfl, fun e => BitVec.eq_of_toNat_eq e⟩

theorem byteOffset_eq (ea : Word) : byteOffset ea = ea.toNat % 4 := by
  simp [byteOffset, BitVec.extractLsb'_toNat]

theorem wordMask_bits : ∀ j : Fin 32, (0xFFFFFFFC : BitVec 32).getLsbD j.val = decide (2 ≤ j.val) := by decide

theorem wordAddr_toNat (ea : Word) : (wordAddr ea).toNat = ea.toNat / 4 * 4 := by
  have h : wordAddr ea = (ea >>> 2) <<< 2 := by
    apply BitVec.eq_of_getLsbD_eq
    intro i hi
    have hm := wordMask_bits ⟨i, hi⟩
    simp only at hm
    rw [wordAddr, BitVec.getLsbD_and, hm, BitVec.getLsbD_shiftLeft, BitVec.getLsbD_ushiftRight]
    by_cases h2 : i < 2
    · simp [h2]
    · simp [h2, hi, show 2 + (i - 2) = i by omega, show 2 ≤ i by omega]
  have := ea.isLt
  rw [h, BitVec.toNat_shiftLeft, BitVec.toNat_ushiftRight, Nat.shiftRight_eq_div_pow, Nat.shiftLeft_eq]
  omega

/-! ### Routing (R44, R45, R52) -/

/-- The device, in numbers. -/
theorem deviceOf_eq (pa : Word) :
    deviceOf pa = if pa.toNat < 0x200000 then .ram
      else if 0x1F800000 ≤ pa.toNat ∧ pa.toNat < 0x1F800400 then .scratchpad
      else if InBios pa.toNat then .bios else .unknown := by
  unfold deviceOf
  rfl

/-- Everything routing can answer, in numbers. -/
theorem route_eq (s : State) (pa : Word) (n : Nat) :
    s.route pa n =
      if pa.toNat < 0x200000 then (if pa.toNat + n ≤ 0x200000 then .readWrite else .unbacked)
      else if 0x1F800000 ≤ pa.toNat ∧ pa.toNat < 0x1F800400 then
        (if pa.toNat + n ≤ 0x1F800400 then .readWrite else .unbacked)
      else if InBios pa.toNat then (if pa.toNat - 0x1FC00000 + n ≤ s.biosLen then .readOnly else .unbacked)
      else .unknown := by
  unfold State.route
  rw [deviceOf_eq]
  by_cases h1 : pa.toNat < 0x200000
  · have e : backed Config.ramBase Config.ramSize pa n = decide (pa.toNat + n ≤ 0x200000) := rfl
    simp only [h1, e, if_true, decide_eq_true_eq]
  by_cases h2 : 0x1F800000 ≤ pa.toNat ∧ pa.toNat < 0x1F800400
  · have e : backed Config.scratchBase Config.scratchSize pa n = decide (pa.toNat + n ≤ 0x1F800400) := by
      unfold backed Config.scratchBase Config.scratchSize
      rw [decide_eq_decide]
      omega
    simp only [h1, h2, e, if_true, if_false, and_self, decide_eq_true_eq]
  by_cases h3 : InBios pa.toNat
  · have e : backed Config.biosBase s.biosLen pa n = decide (pa.toNat - 0x1FC00000 + n ≤ s.biosLen) := rfl
    rw [if_neg h1, if_neg h2, if_pos h3, if_neg h1, if_neg h2, if_pos h3]
    simp only [e, decide_eq_true_eq]
  · rw [if_neg h1, if_neg h2, if_neg h3, if_neg h1, if_neg h2, if_neg h3]

/-- An access that a writable byte starts, and that does not cross its device's end, is read-write. -/
theorem route_writable {s : State} {pa : Word} {n : Nat} (h : Writable pa.toNat) (hn : pa.toNat % n = 0)
    (h4 : n = 1 ∨ n = 2 ∨ n = 4) : s.route pa n = .readWrite := by
  rw [route_eq]
  unfold Writable at h
  rcases h4 with rfl | rfl | rfl <;> split_ifs <;> first | rfl | omega

/-- In the BIOS window: read-only within the image, unbacked past its end. -/
theorem route_bios {s : State} {pa : Word} {n : Nat} (h : InBios pa.toNat) :
    s.route pa n = if pa.toNat - 0x1FC00000 + n ≤ s.biosLen then .readOnly else .unbacked := by
  rw [route_eq]
  unfold InBios at h
  split_ifs <;> first | rfl | omega

/-- In no device: unknown. -/
theorem route_unknown {s : State} {pa : Word} {n : Nat} (h : ¬ Writable pa.toNat) (h' : ¬ InBios pa.toNat) :
    s.route pa n = .unknown := by
  rw [route_eq]
  unfold Writable at h
  split_ifs <;> first | rfl | omega

/-- What a read-write route says of the addresses. -/
theorem writable_of_route {s : State} {pa : Word} {n k : Nat} (h : s.route pa n = .readWrite) (hk : k < n) :
    Writable (pa.toNat + k) := by
  rw [route_eq] at h
  unfold Writable
  split_ifs at h <;> omega

@[simp] theorem advance_route (s : State) (pa : Word) (n : Nat) : (advance s).route pa n = s.route pa n := rfl
@[simp] theorem withMem_route (s : State) (m : Memory) (pa : Word) (n : Nat) :
    ({ s with mem := m } : State).route pa n = s.route pa n := rfl

/-- An aligned access of 1, 2 or 4 bytes is unbacked exactly where the BIOS image does not cover it (R52). -/
theorem route_unbacked_iff {s : State} {pa : Word} {n : Nat} (hn : pa.toNat % n = 0) (h4 : n = 1 ∨ n = 2 ∨ n = 4) :
    s.route pa n = .unbacked ↔ ¬ ImageCovers s pa n := by
  unfold ImageCovers
  by_cases hw : Writable pa.toNat
  · rw [route_writable hw hn h4]
    have : ¬ InBios pa.toNat := by unfold Writable at hw; unfold InBios; omega
    simp [this]
  by_cases hb : InBios pa.toNat
  · rw [route_bios hb]
    split_ifs <;> simp_all
  · rw [route_unknown hw hb]
    simp [hb]

/-! ### The Bus -/

/-- Everything a Bus read can answer (R46-R48, R51, R52). -/
theorem busRead_cases {w : Nat} (s : State) (pa : Word) (n : Nat) (v : BitVec w) :
    ((s.route pa n = .readWrite ∨ s.route pa n = .readOnly) ∧ busRead s pa n v = .ok v) ∨
    (s.route pa n = .unknown ∧ busRead s pa n v = .ok 0) ∨
    (s.route pa n = .unbacked ∧ busRead s pa n v = .error pa) := by
  unfold busRead
  cases s.route pa n <;> simp

/-- Everything a Bus write can answer (R49-R52). -/
theorem busWrite_cases (s : State) (pa : Word) (n : Nat) (m : Memory) :
    (s.route pa n = .readWrite ∧ busWrite s pa n m = .ok { s with mem := m }) ∨
    ((s.route pa n = .readOnly ∨ s.route pa n = .unknown) ∧ busWrite s pa n m = .ok s) ∨
    (s.route pa n = .unbacked ∧ busWrite s pa n m = .error pa) := by
  unfold busWrite
  cases s.route pa n <;> simp

/-- What any Bus write leaves when it answers a state: the memory alone may differ, and then the access was read-write. -/
theorem busWrite_ok {s t : State} {pa : Word} {n : Nat} {m : Memory} (h : busWrite s pa n m = .ok t) :
    t = s ∨ (t = { s with mem := m } ∧ s.route pa n = .readWrite) := by
  rcases busWrite_cases s pa n m with ⟨hr, e⟩ | ⟨_, e⟩ | ⟨_, e⟩ <;> rw [e] at h
  · exact .inr ⟨by simpa using h.symm, hr⟩
  · exact .inl (by simpa using h.symm)
  · simp at h

/-! ### Memory access by virtual address -/

/-- A device's byte. -/
theorem physByte_device {s : State} {a : Nat} (h : Writable a ∨ InBios a) : physByte s a = s.mem.read a := if_pos h

/-- No device's byte (R51). -/
theorem physByte_unknown {s : State} {a : Nat} (h : ¬ Writable a) (h' : ¬ InBios a) : physByte s a = 0 :=
  if_neg (not_or.2 ⟨h, h'⟩)

/-- The bytes of one aligned access lie where its first byte lies: all in RAM or the scratchpad, all in the BIOS window, or all
in no device (R45). -/
theorem aligned_region {a n k : Nat} (hn : a % n = 0) (h4 : n = 1 ∨ n = 2 ∨ n = 4) (hk : k < n) :
    (Writable (a + k) ↔ Writable a) ∧ (InBios (a + k) ↔ InBios a) := by
  unfold Writable InBios
  rcases h4 with rfl | rfl | rfl <;> omega

/-- One byte of an aligned access (R45, R51). -/
theorem physByte_aligned (s : State) {a n k : Nat} (hn : a % n = 0) (h4 : n = 1 ∨ n = 2 ∨ n = 4) (hk : k < n) :
    physByte s (a + k) = if Writable a ∨ InBios a then s.mem.read (a + k) else 0 := by
  obtain ⟨h1, h2⟩ := aligned_region hn h4 hk
  by_cases h : Writable a ∨ InBios a
  · rw [if_pos h, physByte_device (h.imp h1.2 h2.2)]
  · rw [if_neg h, physByte_unknown (fun e => h (.inl (h1.1 e))) (fun e => h (.inr (h2.1 e)))]

/-- Everything an aligned Bus read can answer, by the image alone: the value, 0 in no device, or a BusFault (R46-R48, R51, R52). -/
theorem busRead_aligned {w : Nat} (s : State) {pa : Word} {n : Nat} (v : BitVec w) (hn : pa.toNat % n = 0)
    (h4 : n = 1 ∨ n = 2 ∨ n = 4) :
    (ImageCovers s pa n → busRead s pa n v = .ok (if Writable pa.toNat ∨ InBios pa.toNat then v else 0)) ∧
    (¬ ImageCovers s pa n → busRead s pa n v = .error pa) := by
  unfold busRead
  refine ⟨fun h => ?_, fun h => by rw [(route_unbacked_iff hn h4).2 h]⟩
  by_cases hw : Writable pa.toNat
  · rw [route_writable hw hn h4, if_pos (.inl hw)]
  by_cases hb : InBios pa.toNat
  · rw [route_bios hb, if_pos (h hb), if_pos (.inr hb)]
  · rw [route_unknown hw hb, if_neg (not_or.2 ⟨hw, hb⟩)]

/-- Everything a byte read can answer (R46, R51, R52). -/
theorem memReadByte_eq (s : State) (va : Word) :
    (ImageCovers s (translateVa va) 1 → memReadByte s va = .ok (physByte s (translateVa va).toNat)) ∧
    (¬ ImageCovers s (translateVa va) 1 → memReadByte s va = .error (translateVa va)) :=
  busRead_aligned s _ (Nat.mod_one _) (.inl rfl)

/-- Everything an aligned halfword read can answer (R47, R51, R52). -/
theorem memReadHalf_eq (s : State) {va : Word} (ha : va.toNat % 2 = 0) :
    (ImageCovers s (translateVa va) 2 →
      memReadHalf s va = .ok (physByte s ((translateVa va).toNat + 1) ++ physByte s (translateVa va).toNat)) ∧
    (¬ ImageCovers s (translateVa va) 2 → memReadHalf s va = .error (translateVa va)) := by
  rw [← translateVa_mod_two] at ha
  have h := busRead_aligned s (s.mem.read16 (translateVa va).toNat) ha (by omega)
  refine ⟨fun hc => (h.1 hc).trans ?_, h.2⟩
  rw [physByte_aligned s ha (by omega) (by omega), physByte]
  split <;> rfl

/-- Everything an aligned word read can answer (R48, R51, R52). -/
theorem memReadWord_eq (s : State) {va : Word} (ha : va.toNat % 4 = 0) :
    let b := fun k => physByte s ((translateVa va).toNat + k)
    (ImageCovers s (translateVa va) 4 → memReadWord s va = .ok (b 3 ++ b 2 ++ b 1 ++ b 0)) ∧
    (¬ ImageCovers s (translateVa va) 4 → memReadWord s va = .error (translateVa va)) := by
  rw [← translateVa_mod_four] at ha
  have h := busRead_aligned s (s.mem.read32 (translateVa va).toNat) ha (by omega)
  refine ⟨fun hc => (h.1 hc).trans ?_, h.2⟩
  dsimp only
  have e := fun k => physByte_aligned s (k := k) ha (by omega)
  rw [e 3 (by omega), e 2 (by omega), e 1 (by omega), e 0 (by omega)]
  split <;> rfl

/-- Everything an aligned Bus write can answer: the bytes set in RAM and the scratchpad, nothing elsewhere, or a BusFault
(R49-R52). -/
theorem busWrite_aligned (s : State) {pa : Word} {n : Nat} (m : Memory) (hn : pa.toNat % n = 0) (h4 : n = 1 ∨ n = 2 ∨ n = 4) :
    (Writable pa.toNat → busWrite s pa n m = .ok { s with mem := m }) ∧
    (¬ Writable pa.toNat → ImageCovers s pa n → busWrite s pa n m = .ok s) ∧
    (¬ ImageCovers s pa n → busWrite s pa n m = .error pa) := by
  unfold busWrite
  refine ⟨fun hw => by rw [route_writable hw hn h4], fun hw hc => ?_, fun hc => by rw [(route_unbacked_iff hn h4).2 hc]⟩
  by_cases hb : InBios pa.toNat
  · rw [route_bios hb, if_pos (hc hb)]
  · rw [route_unknown hw hb]

/-- Everything a byte write can answer (R49-R52). -/
theorem memWriteByte_eq (s : State) (va : Word) (v : Byte) :
    (Writable (translateVa va).toNat → memWriteByte s va v = .ok { s with mem := s.mem.write (translateVa va).toNat v }) ∧
    (¬ Writable (translateVa va).toNat → ImageCovers s (translateVa va) 1 → memWriteByte s va v = .ok s) ∧
    (¬ ImageCovers s (translateVa va) 1 → memWriteByte s va v = .error (translateVa va)) :=
  busWrite_aligned s _ (Nat.mod_one _) (.inl rfl)

/-! ### The ends of the instruction families -/

/-- Everything an ALU instruction that cannot trap leaves (R120). -/
theorem writeResult_writes (d : Reg) (v : Word) (s : State) :
    ∃ t, writeResult d v s = .next t ∧ Writes s t d v (s.pc + 4) s.halt :=
  ⟨_, rfl, by simp [reg_setReg], fun r hr => by simp [reg_setReg, hr], by simp, by simp, by simp, by simp,
    by simp, fun a => by simp⟩

/-- `add`, `addi` and `sub` write, or raise Overflow with nothing else changed (R120). -/
theorem writeOrTrap_cases (o : Bool) (d : Reg) (v : Word) (s : State) :
    ∃ t, writeOrTrap o d v s = .next t ∧
      ((o = false ∧ Writes s t d v (s.pc + 4) s.halt) ∨
       (o = true ∧ Moves s t (s.pc + 4) (.excepted ⟨.overflow, s.pc, none⟩))) := by
  cases o with
  | false =>
    obtain ⟨t, h, hw⟩ := writeResult_writes d v s
    exact ⟨t, h, .inl ⟨rfl, hw⟩⟩
  | true => exact ⟨_, rfl, .inr ⟨rfl, rfl, rfl, fun _ => rfl, rfl, rfl, rfl, fun _ => rfl⟩⟩

/-- A multiply or divide writes `hi` and `lo` alone (R160). -/
theorem writesHiLo_setHiLo (h l : Word) (s : State) : WritesHiLo s ((advance s).setHiLo h l) h l :=
  ⟨rfl, rfl, fun _ => rfl, rfl, rfl, rfl, fun _ => rfl⟩

/-- A branch moves `pc` alone (R180). -/
theorem branchIf_moves (taken : Bool) (offset : BitVec 16) (s : State) :
    ∃ t, branchIf taken offset (advance s) = .next t ∧
      Moves s t (if taken then branchTarget (s.pc + 4) offset else s.pc + 4) s.halt := by
  cases taken <;> exact ⟨_, rfl, rfl, rfl, fun _ => rfl, rfl, rfl, rfl, fun _ => rfl⟩

/-- A branch-and-link writes register 31 whether or not it is taken (R183). -/
theorem branchAndLink_writes (taken : Bool) (offset : BitVec 16) (s : State) :
    ∃ t, branchAndLink taken offset (advance s) = .next t ∧
      Writes s t 31 (s.pc + 4) (if taken then branchTarget (s.pc + 4) offset else s.pc + 4) s.halt := by
  have h31 : (31 : Reg) ≠ 0 := by decide
  cases taken <;>
    exact ⟨_, rfl, by simp [reg_setReg, linkReg], fun r hr => reg_setReg_of_ne _ _ hr, by simp, by simp,
      by simp, by simp, by simp, fun a => by simp⟩

/-- A register jump redirects, and reports a misaligned target (R195). -/
theorem jumpRegister_cases (t ia : Word) (s : State) :
    jumpRegister t ia s = .next { s with
      pc := t, halt := if t.toNat % 4 = 0 then s.halt else .excepted ⟨.addressError, ia, some t⟩ } := by
  unfold jumpRegister
  rw [aligned4_eq]
  by_cases h : t.toNat % 4 = 0 <;> simp [h, raise, State.setPc]

/-- A load ends with its value in the destination register, or with a BusFault and nothing else changed (R52, R212). -/
theorem finishLoad_cases (rt : Reg) (value : Except Word Word) (s : State) :
    ∃ t, finishLoad rt value (advance s) = .next t ∧
      ((∃ v, value = .ok v ∧ Writes s t rt v (s.pc + 4) s.halt) ∨
       (∃ pa, value = .error pa ∧ Moves s t (s.pc + 4) (.busFault pa))) := by
  cases value with
  | ok v =>
    obtain ⟨t, h, hw⟩ := writeResult_writes rt v s
    exact ⟨t, h, .inl ⟨v, rfl, hw⟩⟩
  | error pa => exact ⟨_, rfl, .inr ⟨pa, rfl, rfl, rfl, fun _ => rfl, rfl, rfl, rfl, fun _ => rfl⟩⟩

/-- A store ends in the state its access left, or with a BusFault and nothing else changed (R52, R213). -/
theorem finishStore_cases (stored : Except Word State) (s : State) :
    ∃ t, finishStore stored (advance s) = .next t ∧
      (stored = .ok t ∨ (∃ pa, stored = .error pa ∧ Moves s t (s.pc + 4) (.busFault pa))) := by
  cases stored with
  | ok u => exact ⟨u, rfl, .inl rfl⟩
  | error pa => exact ⟨_, rfl, .inr ⟨pa, rfl, rfl, rfl, fun _ => rfl, rfl, rfl, rfl, fun _ => rfl⟩⟩

/-- The alignment check lets the access run, or raises AddressError with nothing else changed (R211). -/
theorem checkAlign_cases (ok : Bool) (ia ea : Word) (s : State) (body : Result) :
    (ok = true ∧ checkAlign ok ia ea (advance s) body = body) ∨
    (ok = false ∧ ∃ t, checkAlign ok ia ea (advance s) body = .next t ∧
      Moves s t (s.pc + 4) (.excepted ⟨.addressError, ia, some ea⟩)) := by
  cases ok with
  | true => exact .inl ⟨rfl, rfl⟩
  | false => exact .inr ⟨rfl, _, rfl, rfl, rfl, fun _ => rfl, rfl, rfl, rfl, fun _ => rfl⟩

/-- Byte writes one at a time leave the memory alone to differ, and only at writable addresses they name. -/
theorem memWriteBytes_ok {s t : State} {ws : List (Word × Byte)} (h : memWriteBytes s ws = .ok t) :
    ∃ m, t = { s with mem := m } ∧ (s.mem.wf → m.wf) ∧
      (∀ a, (∀ c ∈ ws, Writable (translateVa c.1).toNat → (translateVa c.1).toNat ≠ a) → m.read a = s.mem.read a) ∧
      (∀ c ∈ m, c ∈ s.mem ∨ (Writable c.1 ∧ ∃ d ∈ ws, (translateVa d.1).toNat = c.1)) := by
  induction ws generalizing s with
  | nil =>
    simp only [memWriteBytes, Except.ok.injEq] at h
    exact ⟨s.mem, h ▸ rfl, id, fun _ _ => rfl, fun c hc => .inl hc⟩
  | cons w ws ih =>
    obtain ⟨va, v⟩ := w
    simp only [memWriteBytes] at h
    split at h
    · simp at h
    · next u hu =>
      obtain ⟨m, ht, hwf, hread, hmem⟩ := ih h
      rcases busWrite_ok hu with rfl | ⟨rfl, hr⟩
      · exact ⟨m, ht, hwf, fun a ha => hread a fun c hc => ha c (by simp [hc]), fun c hc =>
          (hmem c hc).imp_right fun ⟨hw, d, hd, e⟩ => ⟨hw, d, by simp [hd], e⟩⟩
      · have hw : Writable (translateVa va).toNat := by simpa using writable_of_route hr (k := 0) (by omega)
        refine ⟨m, by rw [ht], fun h0 => hwf (write_wf _ _ h0), fun a ha => ?_, fun c hc => ?_⟩
        · rw [hread a fun c hc => ha c (by simp [hc])]
          exact read_write_of_ne _ _ (Ne.symm (ha (va, v) (by simp) hw))
        · rcases hmem c hc with hc | ⟨hcw, d, hd, e⟩
          · rcases mem_write hc with e | hc
            · exact .inr ⟨e ▸ hw, (va, v), by simp, e.symm⟩
            · exact .inl hc
          · exact .inr ⟨hcw, d, by simp [hd], e⟩

/-! ### The cycle -/

/-- Everything the fetch can answer (R102, R103). -/
theorem fetch_cases (s : State) :
    (s.pc.toNat % 4 ≠ 0 ∧ fetch s = .ended (raise .addressError s.pc (some s.pc) s)) ∨
    (s.pc.toNat % 4 = 0 ∧ ∃ pa, memReadWord s s.pc = .error pa ∧ fetch s = .ended (busFault pa s)) ∨
    (s.pc.toNat % 4 = 0 ∧ ∃ w, memReadWord s s.pc = .ok w ∧
      ((∃ e, decodeWord w = .error e ∧ fetch s = .ended (decodeFault w s)) ∨
       ∃ i, decodeWord w = .ok i ∧ fetch s = .instr i)) := by
  unfold fetch
  rw [aligned4_eq]
  by_cases h : s.pc.toNat % 4 = 0
  · simp only [h, decide_true, if_true]
    cases hm : memReadWord s s.pc with
    | error pa => exact .inr (.inl ⟨trivial, pa, rfl, rfl⟩)
    | ok w =>
      refine .inr (.inr ⟨trivial, w, rfl, ?_⟩)
      cases hd : decodeWord w with
      | error e => exact .inl ⟨e, rfl, by simp [hd]⟩
      | ok i => exact .inr ⟨i, rfl, by simp [hd]⟩
  · exact .inl ⟨h, by simp [h]⟩

/-- What one cycle can do: the core was running, and the cycle ended at fetch with `pc` where it was, or ran one instruction
(R100-R106). -/
theorem step_cases {s t : State} (h : step s = .next t) :
    s.halt = .running ∧
    ((s.pc.toNat % 4 ≠ 0 ∧ t = { s with halt := .excepted ⟨.addressError, s.pc, some s.pc⟩ }) ∨
     (∃ pa, s.pc.toNat % 4 = 0 ∧ memReadWord s s.pc = .error pa ∧ t = { s with halt := .busFault pa }) ∨
     (∃ w e, memReadWord s s.pc = .ok w ∧ decodeWord w = .error e ∧ t = { s with halt := .decodeFault w }) ∨
     (∃ w i, s.pc.toNat % 4 = 0 ∧ memReadWord s s.pc = .ok w ∧ decodeWord w = .ok i ∧ exec i s = .next t)) := by
  unfold step at h
  cases hh : s.halt with
  | running =>
    simp only [hh] at h
    refine ⟨rfl, ?_⟩
    rcases fetch_cases s with ⟨ha, hf⟩ | ⟨ha, pa, hm, hf⟩ | ⟨ha, w, hm, ⟨e, hd, hf⟩ | ⟨i, hd, hf⟩⟩ <;> rw [hf] at h
    · exact .inl ⟨ha, by simpa [raise] using h.symm⟩
    · exact .inr (.inl ⟨pa, ha, hm, by simpa [busFault] using h.symm⟩)
    · exact .inr (.inr (.inl ⟨w, e, hm, hd, by simpa [decodeFault] using h.symm⟩))
    · exact .inr (.inr (.inr ⟨w, i, ha, hm, hd, h⟩))
  | excepted r => simp [hh] at h
  | decodeFault w => simp [hh] at h
  | refused m => simp [hh] at h
  | busFault pa => simp [hh] at h

end Sys2Proof.Machine
end

