-- ==== Sys2Proof/Laws/Exec.lean ====
section
/-! SUPPORT. Everything one instruction can do, said once: `exec_ends`. The rules over all instructions follow from it (spec
40_cycle.md R101; 60_exceptions.md R281-R283). -/

namespace Sys2Proof.Machine

/-- How an instruction can leave `pc` and `halt`. -/
inductive EndsWith (s : State) (pc : Word) : Halt → Prop where
  /-- The core is as it was, and `pc` stays aligned. -/
  | normal (h : s.pc.toNat % 4 = 0 → pc.toNat % 4 = 0) : EndsWith s pc s.halt
  /-- An AddressError with its address. -/
  | address (va : Word) : EndsWith s pc (.excepted ⟨.addressError, s.pc, some va⟩)
  /-- Another exception that CORE produces. -/
  | exception (k : ExcKind) (hk : k = .overflow ∨ k = .systemCall ∨ k = .breakpoint ∨ k = .reservedInstruction) :
    EndsWith s pc (.excepted ⟨k, s.pc, none⟩)
  /-- A coprocessor instruction. -/
  | refused (m : String) : EndsWith s pc (.refused m)
  /-- A read or a write past the BIOS image. -/
  | busFault (pa : Word) (h : InBios pa.toNat) : EndsWith s pc (.busFault pa)

/-- What an instruction can leave, by shape. -/
inductive Ends (i : Instr) (s : State) : State → Prop where
  /-- The register of R23 is written, with `pc` and `halt` as they end; a `halt` other than before is `jalr`'s alone. -/
  | writes (d : Reg) (v pc : Word) (hl : Halt) (hd : destReg i = some d) (hh : hl = s.halt ∨ ∃ rd rs, i = .jalr rd rs)
    (he : EndsWith s pc hl) : Ends i s { s.setReg d v with pc := pc, halt := hl }
  /-- `hi` and `lo` alone. -/
  | writesHiLo (h l : Word) (who : IsMulDiv i ∨ ((∃ rs, i = .mthi rs) ∧ l = s.lo) ∨ ((∃ rs, i = .mtlo rs) ∧ h = s.hi)) :
    Ends i s { s with hi := h, lo := l, pc := s.pc + 4 }
  /-- `pc` and `halt` alone. -/
  | moves (pc : Word) (hl : Halt) (he : EndsWith s pc hl) : Ends i s { s with pc := pc, halt := hl }
  /-- Bytes of RAM and the scratchpad. -/
  | stores (m : Memory) (hs : IsStore i) (hwf : s.mem.wf → m.wf) (hread : ∀ a, ¬ Writable a → m.read a = s.mem.read a)
    (hmem : ∀ c ∈ m, c ∈ s.mem ∨ Writable c.1) : Ends i s { s with pc := s.pc + 4, mem := m }

theorem add_four_aligned {pc : Word} (h : pc.toNat % 4 = 0) : (pc + 4).toNat % 4 = 0 := by
  have e : (4 : Word).toNat = 4 := rfl
  rw [BitVec.toNat_add, e]
  omega

theorem branchTarget_aligned {pc : Word} (offset : BitVec 16) (h : pc.toNat % 4 = 0) :
    (branchTarget (pc + 4) offset).toNat % 4 = 0 := by
  have := add_four_aligned h
  rw [branchTarget, BitVec.toNat_add, BitVec.toNat_shiftLeft, Nat.shiftLeft_eq]
  omega

theorem jumpTarget_aligned (pc : Word) (target : BitVec 26) : (jumpTarget pc target).toNat % 4 = 0 := by
  rw [jumpTarget, BitVec.toNat_append, BitVec.toNat_ofNat, Nat.zero_mod, Nat.or_zero, Nat.shiftLeft_eq]
  omega

variable {i : Instr} {s t : State}

theorem writeResult_ends {d : Reg} {v : Word} (hd : destReg i = some d) (h : writeResult d v s = .next t) : Ends i s t := by
  cases h
  convert Ends.writes d v (s.pc + 4) s.halt hd (.inl rfl) (.normal add_four_aligned) using 1
  unfold State.setReg
  split <;> rfl

theorem writeOrTrap_ends {o : Bool} {d : Reg} {v : Word} (hd : destReg i = some d) (h : writeOrTrap o d v s = .next t) :
    Ends i s t := by
  cases o with
  | false => exact writeResult_ends hd h
  | true =>
    cases h
    exact .moves _ _ (.exception .overflow (.inl rfl))

theorem branchIf_ends {taken : Bool} {offset : BitVec 16} (h : branchIf taken offset (advance s) = .next t) : Ends i s t := by
  cases taken <;> cases h
  · exact .moves _ _ (.normal add_four_aligned)
  · exact .moves _ _ (.normal (branchTarget_aligned offset))

theorem branchAndLink_ends {taken : Bool} {offset : BitVec 16} (hd : destReg i = some 31)
    (h : branchAndLink taken offset (advance s) = .next t) : Ends i s t := by
  cases taken <;> cases h
  · exact .writes 31 _ _ _ hd (.inl rfl) (.normal add_four_aligned)
  · exact .writes 31 _ _ _ hd (.inl rfl) (.normal (branchTarget_aligned offset))

/-- The end of `jr` and `jalr`. -/
theorem endsWith_jump (s : State) (pc : Word) :
    EndsWith s pc (if pc.toNat % 4 = 0 then s.halt else .excepted ⟨.addressError, s.pc, some pc⟩) := by
  split
  · next h => exact .normal fun _ => h
  · exact .address pc

theorem raise_ends {k : ExcKind} {u : State} (hs : u = { s with pc := u.pc })
    (hk : k = .overflow ∨ k = .systemCall ∨ k = .breakpoint ∨ k = .reservedInstruction)
    (h : raise k s.pc none u = .next t) : Ends i s t := by
  cases h
  rw [hs]
  exact .moves _ _ (.exception k hk)

theorem refuse_ends {m : String} (h : refuse m (advance s) = .next t) : Ends i s t := by
  cases h
  exact .moves _ _ (.refused m)

theorem checkAlign_ends {ok : Bool} {ea : Word} {body : Result} (h : checkAlign ok s.pc ea (advance s) body = .next t)
    (hb : ok = true → body = .next t → Ends i s t) : Ends i s t := by
  cases ok with
  | true => exact hb rfl h
  | false =>
    cases h
    exact .moves _ _ (.address ea)

/-- A read that ends in a BusFault lies in the BIOS window, and so does a write. -/
theorem busRead_error {w n : Nat} {pa pa' : Word} {v : BitVec w} (hn : pa.toNat % n = 0) (h4 : n = 1 ∨ n = 2 ∨ n = 4)
    (h : busRead s pa n v = .error pa') : InBios pa'.toNat := by
  rcases busRead_cases s pa n v with ⟨_, e⟩ | ⟨_, e⟩ | ⟨hr, e⟩ <;> rw [e] at h <;> cases h
  by_contra hb
  exact (route_unbacked_iff hn h4).1 hr fun hc => absurd hc hb

theorem busWrite_error {n : Nat} {pa pa' : Word} {m : Memory} (hn : pa.toNat % n = 0) (h4 : n = 1 ∨ n = 2 ∨ n = 4)
    (h : busWrite s pa n m = .error pa') : InBios pa'.toNat := by
  rcases busWrite_cases s pa n m with ⟨_, e⟩ | ⟨_, e⟩ | ⟨hr, e⟩ <;> rw [e] at h <;> cases h
  by_contra hb
  exact (route_unbacked_iff hn h4).1 hr fun hc => absurd hc hb

theorem memReadByte_error {va pa : Word} (h : memReadByte s va = .error pa) : InBios pa.toNat :=
  busRead_error (Nat.mod_one _) (.inl rfl) h

theorem memReadHalf_error {va pa : Word} (ha : va.toNat % 2 = 0) (h : memReadHalf s va = .error pa) : InBios pa.toNat :=
  busRead_error ((translateVa_mod_two va).trans ha) (.inr (.inl rfl)) h

theorem memReadWord_error {va pa : Word} (ha : va.toNat % 4 = 0) (h : memReadWord s va = .error pa) : InBios pa.toNat :=
  busRead_error ((translateVa_mod_four va).trans ha) (.inr (.inr rfl)) h

theorem memWriteBytes_error {ws : List (Word × Byte)} {pa : Word} (h : memWriteBytes s ws = .error pa) : InBios pa.toNat := by
  induction ws generalizing s with
  | nil => cases h
  | cons w ws ih =>
    simp only [memWriteBytes] at h
    split at h
    · next e =>
      cases h
      exact busWrite_error (Nat.mod_one _) (.inl rfl) e
    · exact ih h

theorem map_error {α β : Type} {x : Except Word α} {f : α → β} {pa : Word} (h : x.map f = .error pa) : x = .error pa := by
  cases x <;> cases h
  rfl

theorem finishLoad_ends {rt : Reg} {value : Except Word Word} (hd : destReg i = some rt)
    (herr : ∀ pa, value = .error pa → InBios pa.toNat) (h : finishLoad rt value (advance s) = .next t) : Ends i s t := by
  cases value with
  | ok v => exact writeResult_ends hd h
  | error pa =>
    cases h
    exact .moves _ _ (.busFault pa (herr pa rfl))

theorem finishStore_ends {stored : Except Word State} (hs : IsStore i)
    (hok : ∀ u, stored = .ok u → ∃ m, u = { advance s with mem := m } ∧ (s.mem.wf → m.wf) ∧
      (∀ a, ¬ Writable a → m.read a = s.mem.read a) ∧ ∀ c ∈ m, c ∈ s.mem ∨ Writable c.1)
    (herr : ∀ pa, stored = .error pa → InBios pa.toNat) (h : finishStore stored (advance s) = .next t) : Ends i s t := by
  cases stored with
  | ok u =>
    cases h
    obtain ⟨m, e, hwf, hread, hmem⟩ := hok _ rfl
    rw [e]
    exact .stores m hs hwf hread hmem
  | error pa =>
    cases h
    exact .moves _ _ (.busFault pa (herr pa rfl))

/-- What one Bus write of a store leaves. -/
theorem busWrite_advance {n : Nat} {pa : Word} {m : Memory} {u : State} (hwf : s.mem.wf → m.wf)
    (hread : ∀ a, a < pa.toNat ∨ pa.toNat + n ≤ a → m.read a = s.mem.read a)
    (hmem : ∀ c ∈ m, c ∈ s.mem ∨ (pa.toNat ≤ c.1 ∧ c.1 < pa.toNat + n)) (h : busWrite (advance s) pa n m = .ok u) :
    ∃ m, u = { advance s with mem := m } ∧ (s.mem.wf → m.wf) ∧ (∀ a, ¬ Writable a → m.read a = s.mem.read a) ∧
      ∀ c ∈ m, c ∈ s.mem ∨ Writable c.1 := by
  rcases busWrite_ok h with rfl | ⟨rfl, hr⟩
  · exact ⟨s.mem, rfl, id, fun _ _ => rfl, fun c hc => .inl hc⟩
  have hin : ∀ a, pa.toNat ≤ a ∧ a < pa.toNat + n → Writable a := fun a ha => by
    have := writable_of_route (k := a - pa.toNat) hr (by omega)
    rwa [show pa.toNat + (a - pa.toNat) = a by omega] at this
  refine ⟨m, rfl, hwf, fun a ha => hread a ?_, fun c hc => (hmem c hc).imp_right (hin _)⟩
  by_contra hc
  exact ha (hin a (by omega))

/-- What the byte writes of `swl` and `swr` leave. -/
theorem memWriteBytes_advance {ws : List (Word × Byte)} {u : State} (h : memWriteBytes (advance s) ws = .ok u) :
    ∃ m, u = { advance s with mem := m } ∧ (s.mem.wf → m.wf) ∧ (∀ a, ¬ Writable a → m.read a = s.mem.read a) ∧
      ∀ c ∈ m, c ∈ s.mem ∨ Writable c.1 := by
  obtain ⟨m, e, hwf, hread, hmem⟩ := memWriteBytes_ok h
  exact ⟨m, e, hwf, fun a ha => hread a fun c _ hw e => ha (e ▸ hw), fun c hc => (hmem c hc).imp_right And.left⟩

theorem of_aligned2 {va : Word} (h : aligned2 va = true) : va.toNat % 2 = 0 := by
  rw [aligned2_eq] at h
  exact of_decide_eq_true h

theorem of_aligned4 {va : Word} (h : aligned4 va = true) : va.toNat % 4 = 0 := by
  rw [aligned4_eq] at h
  exact of_decide_eq_true h

theorem wordAddr_aligned (ea : Word) : (wordAddr ea).toNat % 4 = 0 := by
  rw [wordAddr_toNat]
  omega

/-- Everything one instruction can do. -/
theorem exec_ends (h : exec i s = .next t) : Ends i s t := by
  cases i with
  | sll _ _ _ => exact writeResult_ends rfl h
  | srl _ _ _ => exact writeResult_ends rfl h
  | sra _ _ _ => exact writeResult_ends rfl h
  | sllv _ _ _ => exact writeResult_ends rfl h
  | srlv _ _ _ => exact writeResult_ends rfl h
  | srav _ _ _ => exact writeResult_ends rfl h
  | jr rs =>
    have e := (jumpRegister_cases (s.reg rs) s.pc (advance s)).symm.trans h
    cases e
    exact .moves _ _ (endsWith_jump s _)
  | jalr rd rs =>
    have e := (jumpRegister_cases (s.reg rs) s.pc ((advance s).setReg rd (s.pc + 8))).symm.trans h
    simp only [setReg_halt, advance_halt] at e
    cases e
    convert Ends.writes rd (s.pc + 8) _ _ rfl (.inr ⟨rd, rs, rfl⟩) (endsWith_jump s (s.reg rs)) using 1
    unfold State.setReg
    split <;> rfl
  | syscall _ => exact raise_ends rfl (.inr (.inl rfl)) h
  | break_ _ => exact raise_ends rfl (.inr (.inr (.inl rfl))) h
  | mfhi _ => exact writeResult_ends rfl h
  | mthi _ =>
    cases h
    exact .writesHiLo _ s.lo (.inr (.inl ⟨⟨_, rfl⟩, rfl⟩))
  | mflo _ => exact writeResult_ends rfl h
  | mtlo _ =>
    cases h
    exact .writesHiLo s.hi _ (.inr (.inr ⟨⟨_, rfl⟩, rfl⟩))
  | mult _ _ =>
    cases h
    exact .writesHiLo _ _ (.inl ⟨_, _, .inl rfl⟩)
  | multu _ _ =>
    cases h
    exact .writesHiLo _ _ (.inl ⟨_, _, .inr (.inl rfl)⟩)
  | div _ _ =>
    cases h
    exact .writesHiLo _ _ (.inl ⟨_, _, .inr (.inr (.inl rfl))⟩)
  | divu _ _ =>
    cases h
    exact .writesHiLo _ _ (.inl ⟨_, _, .inr (.inr (.inr rfl))⟩)
  | add _ _ _ => exact writeOrTrap_ends rfl h
  | addu _ _ _ => exact writeResult_ends rfl h
  | sub _ _ _ => exact writeOrTrap_ends rfl h
  | subu _ _ _ => exact writeResult_ends rfl h
  | and _ _ _ => exact writeResult_ends rfl h
  | or _ _ _ => exact writeResult_ends rfl h
  | xor _ _ _ => exact writeResult_ends rfl h
  | nor _ _ _ => exact writeResult_ends rfl h
  | slt _ _ _ => exact writeResult_ends rfl h
  | sltu _ _ _ => exact writeResult_ends rfl h
  | bltz _ _ => exact branchIf_ends h
  | bgez _ _ => exact branchIf_ends h
  | bltzal _ _ => exact branchAndLink_ends rfl h
  | bgezal _ _ => exact branchAndLink_ends rfl h
  | j _ =>
    cases h
    exact .moves _ _ (.normal fun _ => jumpTarget_aligned _ _)
  | jal _ =>
    cases h
    exact .writes 31 _ _ _ rfl (.inl rfl) (.normal fun _ => jumpTarget_aligned _ _)
  | beq _ _ _ => exact branchIf_ends h
  | bne _ _ _ => exact branchIf_ends h
  | blez _ _ => exact branchIf_ends h
  | bgtz _ _ => exact branchIf_ends h
  | addi _ _ _ => exact writeOrTrap_ends rfl h
  | addiu _ _ _ => exact writeResult_ends rfl h
  | slti _ _ _ => exact writeResult_ends rfl h
  | sltiu _ _ _ => exact writeResult_ends rfl h
  | andi _ _ _ => exact writeResult_ends rfl h
  | ori _ _ _ => exact writeResult_ends rfl h
  | xori _ _ _ => exact writeResult_ends rfl h
  | lui _ _ => exact writeResult_ends rfl h
  | lb _ _ _ => exact finishLoad_ends rfl (fun _ e => memReadByte_error (map_error e)) h
  | lh _ _ _ =>
    exact checkAlign_ends h fun ha => finishLoad_ends rfl fun _ e => memReadHalf_error (of_aligned2 ha) (map_error e)
  | lwl _ _ _ => exact finishLoad_ends rfl (fun _ e => memReadWord_error (wordAddr_aligned _) (map_error e)) h
  | lw _ _ _ => exact checkAlign_ends h fun ha => finishLoad_ends rfl fun _ e => memReadWord_error (of_aligned4 ha) e
  | lbu _ _ _ => exact finishLoad_ends rfl (fun _ e => memReadByte_error (map_error e)) h
  | lhu _ _ _ =>
    exact checkAlign_ends h fun ha => finishLoad_ends rfl fun _ e => memReadHalf_error (of_aligned2 ha) (map_error e)
  | lwr _ _ _ => exact finishLoad_ends rfl (fun _ e => memReadWord_error (wordAddr_aligned _) (map_error e)) h
  | sb rt offset rs =>
    exact finishStore_ends ⟨rt, offset, rs, .inl rfl⟩ (fun u e => busWrite_advance (write_wf _ _) (fun a ha => read_write_of_ne _ _ (by omega))
      (fun c hc => (mem_write hc).symm.imp_right fun e => by omega) e) (fun _ e => busWrite_error (Nat.mod_one _) (.inl rfl) e) h
  | sh rt offset rs =>
    exact checkAlign_ends h fun ha => finishStore_ends ⟨rt, offset, rs, .inr (.inl rfl)⟩
      (fun u e => busWrite_advance (write16_wf _ _) (fun a ha => read_write16_of_outside _ _ ha) (fun c hc => (mem_write16 hc).symm) e)
      (fun _ e => busWrite_error ((translateVa_mod_two _).trans (of_aligned2 ha)) (.inr (.inl rfl)) e)
  | swl rt offset rs =>
    exact finishStore_ends ⟨rt, offset, rs, .inr (.inr (.inr (.inl rfl)))⟩ (fun _ e => memWriteBytes_advance e)
      (fun _ e => memWriteBytes_error e) h
  | sw rt offset rs =>
    exact checkAlign_ends h fun ha => finishStore_ends ⟨rt, offset, rs, .inr (.inr (.inl rfl))⟩
      (fun u e => busWrite_advance (write32_wf _ _) (fun a ha => read_write32_of_outside _ _ ha) (fun c hc => (mem_write32 hc).symm) e)
      (fun _ e => busWrite_error ((translateVa_mod_four _).trans (of_aligned4 ha)) (.inr (.inr rfl)) e)
  | swr rt offset rs =>
    exact finishStore_ends ⟨rt, offset, rs, .inr (.inr (.inr (.inr rfl)))⟩ (fun _ e => memWriteBytes_advance e)
      (fun _ e => memWriteBytes_error e) h
  | tlbr => exact raise_ends rfl (.inr (.inr (.inr rfl))) h
  | tlbwi => exact raise_ends rfl (.inr (.inr (.inr rfl))) h
  | tlbwr => exact raise_ends rfl (.inr (.inr (.inr rfl))) h
  | tlbp => exact raise_ends rfl (.inr (.inr (.inr rfl))) h
  | rfe => exact refuse_ends h
  | mfc0 _ _ => exact refuse_ends h
  | cfc0 _ _ => exact refuse_ends h
  | mtc0 _ _ => exact refuse_ends h
  | ctc0 _ _ => exact refuse_ends h
  | bc0f _ => exact refuse_ends h
  | bc0t _ => exact refuse_ends h
  | lwc0 _ _ _ => exact refuse_ends h
  | swc0 _ _ _ => exact refuse_ends h
  | mfc1 _ _ => exact refuse_ends h
  | cfc1 _ _ => exact refuse_ends h
  | mtc1 _ _ => exact refuse_ends h
  | ctc1 _ _ => exact refuse_ends h
  | bc1f _ => exact refuse_ends h
  | bc1t _ => exact refuse_ends h
  | cop1 _ => exact refuse_ends h
  | lwc1 _ _ _ => exact refuse_ends h
  | swc1 _ _ _ => exact refuse_ends h
  | mfc2 _ _ => exact refuse_ends h
  | cfc2 _ _ => exact refuse_ends h
  | mtc2 _ _ => exact refuse_ends h
  | ctc2 _ _ => exact refuse_ends h
  | bc2f _ => exact refuse_ends h
  | bc2t _ => exact refuse_ends h
  | cop2 _ => exact refuse_ends h
  | lwc2 _ _ _ => exact refuse_ends h
  | swc2 _ _ _ => exact refuse_ends h
  | mfc3 _ _ => exact refuse_ends h
  | cfc3 _ _ => exact refuse_ends h
  | mtc3 _ _ => exact refuse_ends h
  | ctc3 _ _ => exact refuse_ends h
  | bc3f _ => exact refuse_ends h
  | bc3t _ => exact refuse_ends h
  | cop3 _ => exact refuse_ends h
  | lwc3 _ _ _ => exact refuse_ends h
  | swc3 _ _ _ => exact refuse_ends h

end Sys2Proof.Machine
end

