-- ==== Sys2Proof/Laws/PerInstr.lean ====
section
/-! SUPPORT. The round trip per instruction: one lemma per constructor of `Instr` (spec 30_encoding.md R79). -/

namespace Sys2Proof.Laws.RoundTrip

set_option Elab.async false

/-- A well-formed instruction's word decodes to it. -/
def Statement (i : Instr) : Prop := i.wf = true → decodeWord (encode i) = .ok i

theorem sll (rd : Reg) (rt : Reg) (shamt : Nat) : Statement (.sll rd rt shamt) := fun h => by
  have hs : shamt < 32 := by simpa [Instr.wf, shamtOk] using h
  simp [encode, decodeWord, decodeSpecial, ifZero, Nat.mod_eq_of_lt hs]

theorem srl (rd : Reg) (rt : Reg) (shamt : Nat) : Statement (.srl rd rt shamt) := fun h => by
  have hs : shamt < 32 := by simpa [Instr.wf, shamtOk] using h
  simp [encode, decodeWord, decodeSpecial, ifZero, Nat.mod_eq_of_lt hs]

theorem sra (rd : Reg) (rt : Reg) (shamt : Nat) : Statement (.sra rd rt shamt) := fun h => by
  have hs : shamt < 32 := by simpa [Instr.wf, shamtOk] using h
  simp [encode, decodeWord, decodeSpecial, ifZero, Nat.mod_eq_of_lt hs]

theorem sllv (rd : Reg) (rt : Reg) (rs : Reg) : Statement (.sllv rd rt rs) := fun _ => by
  simp [encode, decodeWord, decodeSpecial, ifZero]

theorem srlv (rd : Reg) (rt : Reg) (rs : Reg) : Statement (.srlv rd rt rs) := fun _ => by
  simp [encode, decodeWord, decodeSpecial, ifZero]

theorem srav (rd : Reg) (rt : Reg) (rs : Reg) : Statement (.srav rd rt rs) := fun _ => by
  simp [encode, decodeWord, decodeSpecial, ifZero]

theorem jr (rs : Reg) : Statement (.jr rs) := fun _ => by
  simp [encode, decodeWord, decodeSpecial, ifZero]

theorem jalr (rd : Reg) (rs : Reg) : Statement (.jalr rd rs) := fun _ => by
  simp [encode, decodeWord, decodeSpecial, ifZero]

theorem syscall (code : BitVec 20) : Statement (.syscall code) := fun _ => by
  simp [encode, decodeWord, decodeSpecial]

theorem break_ (code : BitVec 20) : Statement (.break_ code) := fun _ => by
  simp [encode, decodeWord, decodeSpecial]

theorem mfhi (rd : Reg) : Statement (.mfhi rd) := fun _ => by
  simp [encode, decodeWord, decodeSpecial, ifZero]

theorem mthi (rs : Reg) : Statement (.mthi rs) := fun _ => by
  simp [encode, decodeWord, decodeSpecial, ifZero]

theorem mflo (rd : Reg) : Statement (.mflo rd) := fun _ => by
  simp [encode, decodeWord, decodeSpecial, ifZero]

theorem mtlo (rs : Reg) : Statement (.mtlo rs) := fun _ => by
  simp [encode, decodeWord, decodeSpecial, ifZero]

theorem mult (rs : Reg) (rt : Reg) : Statement (.mult rs rt) := fun _ => by
  simp [encode, decodeWord, decodeSpecial, ifZero]

theorem multu (rs : Reg) (rt : Reg) : Statement (.multu rs rt) := fun _ => by
  simp [encode, decodeWord, decodeSpecial, ifZero]

theorem div (rs : Reg) (rt : Reg) : Statement (.div rs rt) := fun _ => by
  simp [encode, decodeWord, decodeSpecial, ifZero]

theorem divu (rs : Reg) (rt : Reg) : Statement (.divu rs rt) := fun _ => by
  simp [encode, decodeWord, decodeSpecial, ifZero]

theorem add (rd : Reg) (rs : Reg) (rt : Reg) : Statement (.add rd rs rt) := fun _ => by
  simp [encode, decodeWord, decodeSpecial, ifZero]

theorem addu (rd : Reg) (rs : Reg) (rt : Reg) : Statement (.addu rd rs rt) := fun _ => by
  simp [encode, decodeWord, decodeSpecial, ifZero]

theorem sub (rd : Reg) (rs : Reg) (rt : Reg) : Statement (.sub rd rs rt) := fun _ => by
  simp [encode, decodeWord, decodeSpecial, ifZero]

theorem subu (rd : Reg) (rs : Reg) (rt : Reg) : Statement (.subu rd rs rt) := fun _ => by
  simp [encode, decodeWord, decodeSpecial, ifZero]

theorem and (rd : Reg) (rs : Reg) (rt : Reg) : Statement (.and rd rs rt) := fun _ => by
  simp [encode, decodeWord, decodeSpecial, ifZero]

theorem or (rd : Reg) (rs : Reg) (rt : Reg) : Statement (.or rd rs rt) := fun _ => by
  simp [encode, decodeWord, decodeSpecial, ifZero]

theorem xor (rd : Reg) (rs : Reg) (rt : Reg) : Statement (.xor rd rs rt) := fun _ => by
  simp [encode, decodeWord, decodeSpecial, ifZero]

theorem nor (rd : Reg) (rs : Reg) (rt : Reg) : Statement (.nor rd rs rt) := fun _ => by
  simp [encode, decodeWord, decodeSpecial, ifZero]

theorem slt (rd : Reg) (rs : Reg) (rt : Reg) : Statement (.slt rd rs rt) := fun _ => by
  simp [encode, decodeWord, decodeSpecial, ifZero]

theorem sltu (rd : Reg) (rs : Reg) (rt : Reg) : Statement (.sltu rd rs rt) := fun _ => by
  simp [encode, decodeWord, decodeSpecial, ifZero]

theorem bltz (rs : Reg) (offset : BitVec 16) : Statement (.bltz rs offset) := fun _ => by
  simp [encode, decodeWord, decodeRegimm]

theorem bgez (rs : Reg) (offset : BitVec 16) : Statement (.bgez rs offset) := fun _ => by
  simp [encode, decodeWord, decodeRegimm]

theorem bltzal (rs : Reg) (offset : BitVec 16) : Statement (.bltzal rs offset) := fun _ => by
  simp [encode, decodeWord, decodeRegimm]

theorem bgezal (rs : Reg) (offset : BitVec 16) : Statement (.bgezal rs offset) := fun _ => by
  simp [encode, decodeWord, decodeRegimm]

theorem j (target : BitVec 26) : Statement (.j target) := fun _ => by
  simp [encode, decodeWord]

theorem jal (target : BitVec 26) : Statement (.jal target) := fun _ => by
  simp [encode, decodeWord]

theorem beq (rs : Reg) (rt : Reg) (offset : BitVec 16) : Statement (.beq rs rt offset) := fun _ => by
  simp [encode, decodeWord]

theorem bne (rs : Reg) (rt : Reg) (offset : BitVec 16) : Statement (.bne rs rt offset) := fun _ => by
  simp [encode, decodeWord]

theorem blez (rs : Reg) (offset : BitVec 16) : Statement (.blez rs offset) := fun _ => by
  simp [encode, decodeWord, ifZero]

theorem bgtz (rs : Reg) (offset : BitVec 16) : Statement (.bgtz rs offset) := fun _ => by
  simp [encode, decodeWord, ifZero]

theorem addi (rt : Reg) (rs : Reg) (imm : BitVec 16) : Statement (.addi rt rs imm) := fun _ => by
  simp [encode, decodeWord]

theorem addiu (rt : Reg) (rs : Reg) (imm : BitVec 16) : Statement (.addiu rt rs imm) := fun _ => by
  simp [encode, decodeWord]

theorem slti (rt : Reg) (rs : Reg) (imm : BitVec 16) : Statement (.slti rt rs imm) := fun _ => by
  simp [encode, decodeWord]

theorem sltiu (rt : Reg) (rs : Reg) (imm : BitVec 16) : Statement (.sltiu rt rs imm) := fun _ => by
  simp [encode, decodeWord]

theorem andi (rt : Reg) (rs : Reg) (imm : BitVec 16) : Statement (.andi rt rs imm) := fun _ => by
  simp [encode, decodeWord]

theorem ori (rt : Reg) (rs : Reg) (imm : BitVec 16) : Statement (.ori rt rs imm) := fun _ => by
  simp [encode, decodeWord]

theorem xori (rt : Reg) (rs : Reg) (imm : BitVec 16) : Statement (.xori rt rs imm) := fun _ => by
  simp [encode, decodeWord]

theorem lui (rt : Reg) (imm : BitVec 16) : Statement (.lui rt imm) := fun _ => by
  simp [encode, decodeWord, ifZero]

theorem lb (rt : Reg) (offset : BitVec 16) (rs : Reg) : Statement (.lb rt offset rs) := fun _ => by
  simp [encode, decodeWord]

theorem lh (rt : Reg) (offset : BitVec 16) (rs : Reg) : Statement (.lh rt offset rs) := fun _ => by
  simp [encode, decodeWord]

theorem lwl (rt : Reg) (offset : BitVec 16) (rs : Reg) : Statement (.lwl rt offset rs) := fun _ => by
  simp [encode, decodeWord]

theorem lw (rt : Reg) (offset : BitVec 16) (rs : Reg) : Statement (.lw rt offset rs) := fun _ => by
  simp [encode, decodeWord]

theorem lbu (rt : Reg) (offset : BitVec 16) (rs : Reg) : Statement (.lbu rt offset rs) := fun _ => by
  simp [encode, decodeWord]

theorem lhu (rt : Reg) (offset : BitVec 16) (rs : Reg) : Statement (.lhu rt offset rs) := fun _ => by
  simp [encode, decodeWord]

theorem lwr (rt : Reg) (offset : BitVec 16) (rs : Reg) : Statement (.lwr rt offset rs) := fun _ => by
  simp [encode, decodeWord]

theorem sb (rt : Reg) (offset : BitVec 16) (rs : Reg) : Statement (.sb rt offset rs) := fun _ => by
  simp [encode, decodeWord]

theorem sh (rt : Reg) (offset : BitVec 16) (rs : Reg) : Statement (.sh rt offset rs) := fun _ => by
  simp [encode, decodeWord]

theorem swl (rt : Reg) (offset : BitVec 16) (rs : Reg) : Statement (.swl rt offset rs) := fun _ => by
  simp [encode, decodeWord]

theorem sw (rt : Reg) (offset : BitVec 16) (rs : Reg) : Statement (.sw rt offset rs) := fun _ => by
  simp [encode, decodeWord]

theorem swr (rt : Reg) (offset : BitVec 16) (rs : Reg) : Statement (.swr rt offset rs) := fun _ => by
  simp [encode, decodeWord]

theorem tlbr : Statement .tlbr := fun _ => by
  simp [encode, decodeWord, decodeCop0, decodeCop0Op, ifZero]

theorem tlbwi : Statement .tlbwi := fun _ => by
  simp [encode, decodeWord, decodeCop0, decodeCop0Op, ifZero]

theorem tlbwr : Statement .tlbwr := fun _ => by
  simp [encode, decodeWord, decodeCop0, decodeCop0Op, ifZero]

theorem tlbp : Statement .tlbp := fun _ => by
  simp [encode, decodeWord, decodeCop0, decodeCop0Op, ifZero]

theorem rfe : Statement .rfe := fun _ => by
  simp [encode, decodeWord, decodeCop0, decodeCop0Op, ifZero]

theorem mfc0 (rt : Reg) (rd : Reg) : Statement (.mfc0 rt rd) := fun _ => by
  simp [encode, decodeWord, decodeCop0, coF_eq, decodeCopMove, ifZero]

theorem cfc0 (rt : Reg) (rd : Reg) : Statement (.cfc0 rt rd) := fun _ => by
  simp [encode, decodeWord, decodeCop0, coF_eq, decodeCopMove, ifZero]

theorem mtc0 (rt : Reg) (rd : Reg) : Statement (.mtc0 rt rd) := fun _ => by
  simp [encode, decodeWord, decodeCop0, coF_eq, decodeCopMove, ifZero]

theorem ctc0 (rt : Reg) (rd : Reg) : Statement (.ctc0 rt rd) := fun _ => by
  simp [encode, decodeWord, decodeCop0, coF_eq, decodeCopMove, ifZero]

theorem bc0f (offset : BitVec 16) : Statement (.bc0f offset) := fun _ => by
  simp [encode, decodeWord, decodeCop0, coF_eq, decodeCopMove]

theorem bc0t (offset : BitVec 16) : Statement (.bc0t offset) := fun _ => by
  simp [encode, decodeWord, decodeCop0, coF_eq, decodeCopMove]

theorem lwc0 (rt : Reg) (offset : BitVec 16) (rs : Reg) : Statement (.lwc0 rt offset rs) := fun _ => by
  simp [encode, decodeWord]

theorem swc0 (rt : Reg) (offset : BitVec 16) (rs : Reg) : Statement (.swc0 rt offset rs) := fun _ => by
  simp [encode, decodeWord]

theorem mfc1 (rt : Reg) (rd : Reg) : Statement (.mfc1 rt rd) := fun _ => by
  simp [encode, decodeWord, decodeCop1, coF_eq, decodeCopMove, ifZero]

theorem cfc1 (rt : Reg) (rd : Reg) : Statement (.cfc1 rt rd) := fun _ => by
  simp [encode, decodeWord, decodeCop1, coF_eq, decodeCopMove, ifZero]

theorem mtc1 (rt : Reg) (rd : Reg) : Statement (.mtc1 rt rd) := fun _ => by
  simp [encode, decodeWord, decodeCop1, coF_eq, decodeCopMove, ifZero]

theorem ctc1 (rt : Reg) (rd : Reg) : Statement (.ctc1 rt rd) := fun _ => by
  simp [encode, decodeWord, decodeCop1, coF_eq, decodeCopMove, ifZero]

theorem bc1f (offset : BitVec 16) : Statement (.bc1f offset) := fun _ => by
  simp [encode, decodeWord, decodeCop1, coF_eq, decodeCopMove]

theorem bc1t (offset : BitVec 16) : Statement (.bc1t offset) := fun _ => by
  simp [encode, decodeWord, decodeCop1, coF_eq, decodeCopMove]

theorem cop1 (cofun : BitVec 25) : Statement (.cop1 cofun) := fun _ => by
  simp [encode, decodeWord, decodeCop1]

theorem lwc1 (rt : Reg) (offset : BitVec 16) (rs : Reg) : Statement (.lwc1 rt offset rs) := fun _ => by
  simp [encode, decodeWord]

theorem swc1 (rt : Reg) (offset : BitVec 16) (rs : Reg) : Statement (.swc1 rt offset rs) := fun _ => by
  simp [encode, decodeWord]

theorem mfc2 (rt : Reg) (rd : Reg) : Statement (.mfc2 rt rd) := fun _ => by
  simp [encode, decodeWord, decodeCop2, coF_eq, decodeCopMove, ifZero]

theorem cfc2 (rt : Reg) (rd : Reg) : Statement (.cfc2 rt rd) := fun _ => by
  simp [encode, decodeWord, decodeCop2, coF_eq, decodeCopMove, ifZero]

theorem mtc2 (rt : Reg) (rd : Reg) : Statement (.mtc2 rt rd) := fun _ => by
  simp [encode, decodeWord, decodeCop2, coF_eq, decodeCopMove, ifZero]

theorem ctc2 (rt : Reg) (rd : Reg) : Statement (.ctc2 rt rd) := fun _ => by
  simp [encode, decodeWord, decodeCop2, coF_eq, decodeCopMove, ifZero]

theorem bc2f (offset : BitVec 16) : Statement (.bc2f offset) := fun _ => by
  simp [encode, decodeWord, decodeCop2, coF_eq, decodeCopMove]

theorem bc2t (offset : BitVec 16) : Statement (.bc2t offset) := fun _ => by
  simp [encode, decodeWord, decodeCop2, coF_eq, decodeCopMove]

theorem cop2 (cofun : BitVec 25) : Statement (.cop2 cofun) := fun _ => by
  simp [encode, decodeWord, decodeCop2]

theorem lwc2 (rt : Reg) (offset : BitVec 16) (rs : Reg) : Statement (.lwc2 rt offset rs) := fun _ => by
  simp [encode, decodeWord]

theorem swc2 (rt : Reg) (offset : BitVec 16) (rs : Reg) : Statement (.swc2 rt offset rs) := fun _ => by
  simp [encode, decodeWord]

theorem mfc3 (rt : Reg) (rd : Reg) : Statement (.mfc3 rt rd) := fun _ => by
  simp [encode, decodeWord, decodeCop3, coF_eq, decodeCopMove, ifZero]

theorem cfc3 (rt : Reg) (rd : Reg) : Statement (.cfc3 rt rd) := fun _ => by
  simp [encode, decodeWord, decodeCop3, coF_eq, decodeCopMove, ifZero]

theorem mtc3 (rt : Reg) (rd : Reg) : Statement (.mtc3 rt rd) := fun _ => by
  simp [encode, decodeWord, decodeCop3, coF_eq, decodeCopMove, ifZero]

theorem ctc3 (rt : Reg) (rd : Reg) : Statement (.ctc3 rt rd) := fun _ => by
  simp [encode, decodeWord, decodeCop3, coF_eq, decodeCopMove, ifZero]

theorem bc3f (offset : BitVec 16) : Statement (.bc3f offset) := fun _ => by
  simp [encode, decodeWord, decodeCop3, coF_eq, decodeCopMove]

theorem bc3t (offset : BitVec 16) : Statement (.bc3t offset) := fun _ => by
  simp [encode, decodeWord, decodeCop3, coF_eq, decodeCopMove]

theorem cop3 (cofun : BitVec 25) : Statement (.cop3 cofun) := fun _ => by
  simp [encode, decodeWord, decodeCop3]

theorem lwc3 (rt : Reg) (offset : BitVec 16) (rs : Reg) : Statement (.lwc3 rt offset rs) := fun _ => by
  simp [encode, decodeWord]

theorem swc3 (rt : Reg) (offset : BitVec 16) (rs : Reg) : Statement (.swc3 rt offset rs) := fun _ => by
  simp [encode, decodeWord]

end Sys2Proof.Laws.RoundTrip
end

