-- ==== Sys2Proof/Tests/Slice0.lean ====
section
/-! SUPPORT. The tests: ill-formed terms refused, every constructor's decoding, one cycle of every instruction, and a witness for the
hypotheses of every obligation. Every word is written out from the spec's encodings (30_encoding.md); the expected results of the
one-cycle tests are the vectors of 95_test_vectors.md (L1 and L2). -/

namespace Sys2Proof.Tests
open Sys2Proof.Machine

/-! ### Helpers -/

/-- A running state with the registers and bytes given; `hi` and `lo` as the vectors have them. -/
def start (pc : Word) (xs : List (Reg × Word)) (m : Memory) (biosLen : Nat) : State :=
  xs.foldl (fun s c => s.setReg c.1 c.2)
    { State.reset with pc := pc, hi := 0xDEAD0040, lo := 0xDEAD0041, mem := m, biosLen := biosLen }

/-- The next state, if there is one. -/
def next (r : Result) : Option State :=
  match r with
  | .next t => some t
  | .fault _ => none
  | .refused _ => none

/-- One cycle of the word placed at `pc`. -/
def cycle (pc word : Word) (xs : List (Reg × Word)) (m : Memory) : Option State :=
  next (step (placeWord word (start pc xs m 0x80000)))

/-- One cycle at 0x80001000 with `hi` and `lo` given. -/
def cycleHiLo (word hi lo : Word) : Option State :=
  next (step (placeWord word ((start 0x80001000 [] [] 0).setHiLo hi lo)))

/-! ### Well-formedness: the one check, with an ill-formed term of each shape it refuses -/

theorem test_wf_refuses_shift_amount_32 :
    (Instr.sll 1 2 32).wf = false ∧ (Instr.srl 1 2 32).wf = false ∧ (Instr.sra 1 2 32).wf = false := by decide

theorem test_wf_accepts_shift_amount_31 :
    (Instr.sll 1 2 31).wf = true ∧ (Instr.srl 1 2 31).wf = true ∧ (Instr.sra 1 2 31).wf = true := by decide

/-! ### Decoding -/

/-- R72, R78. -/
theorem test_decode_shifts :
    decodeWord 0b000000_00000_00010_00011_00101_000000 = .ok (.sll 3 2 5) ∧
    decodeWord 0b000000_00000_00010_00011_00101_000010 = .ok (.srl 3 2 5) ∧
    decodeWord 0b000000_00000_00010_00011_00101_000011 = .ok (.sra 3 2 5) ∧
    decodeWord 0b000000_00001_00010_00011_00000_000100 = .ok (.sllv 3 2 1) ∧
    decodeWord 0b000000_00001_00010_00011_00000_000110 = .ok (.srlv 3 2 1) ∧
    decodeWord 0b000000_00001_00010_00011_00000_000111 = .ok (.srav 3 2 1) := by decide

/-- R72, R78. -/
theorem test_decode_register_arithmetic :
    decodeWord 0b000000_00001_00010_00011_00000_100000 = .ok (.add 3 1 2) ∧
    decodeWord 0b000000_00001_00010_00011_00000_100001 = .ok (.addu 3 1 2) ∧
    decodeWord 0b000000_00001_00010_00011_00000_100010 = .ok (.sub 3 1 2) ∧
    decodeWord 0b000000_00001_00010_00011_00000_100011 = .ok (.subu 3 1 2) ∧
    decodeWord 0b000000_00001_00010_00011_00000_100100 = .ok (.and 3 1 2) ∧
    decodeWord 0b000000_00001_00010_00011_00000_100101 = .ok (.or 3 1 2) ∧
    decodeWord 0b000000_00001_00010_00011_00000_100110 = .ok (.xor 3 1 2) ∧
    decodeWord 0b000000_00001_00010_00011_00000_100111 = .ok (.nor 3 1 2) ∧
    decodeWord 0b000000_00001_00010_00011_00000_101010 = .ok (.slt 3 1 2) ∧
    decodeWord 0b000000_00001_00010_00011_00000_101011 = .ok (.sltu 3 1 2) := by decide

/-- R73, R77. -/
theorem test_decode_immediates :
    decodeWord 0b001000_00001_00010_1000000000000100 = .ok (.addi 2 1 0x8004) ∧
    decodeWord 0b001001_00001_00010_1000000000000100 = .ok (.addiu 2 1 0x8004) ∧
    decodeWord 0b001010_00001_00010_1000000000000100 = .ok (.slti 2 1 0x8004) ∧
    decodeWord 0b001011_00001_00010_1000000000000100 = .ok (.sltiu 2 1 0x8004) ∧
    decodeWord 0b001100_00001_00010_1000000000000100 = .ok (.andi 2 1 0x8004) ∧
    decodeWord 0b001101_00001_00010_1000000000000100 = .ok (.ori 2 1 0x8004) ∧
    decodeWord 0b001110_00001_00010_1000000000000100 = .ok (.xori 2 1 0x8004) ∧
    decodeWord 0b001111_00000_00010_1000000000000100 = .ok (.lui 2 0x8004) := by decide

/-- R72, R78. -/
theorem test_decode_multiply_divide :
    decodeWord 0b000000_00001_00010_00000_00000_011000 = .ok (.mult 1 2) ∧
    decodeWord 0b000000_00001_00010_00000_00000_011001 = .ok (.multu 1 2) ∧
    decodeWord 0b000000_00001_00010_00000_00000_011010 = .ok (.div 1 2) ∧
    decodeWord 0b000000_00001_00010_00000_00000_011011 = .ok (.divu 1 2) ∧
    decodeWord 0b000000_00000_00000_00011_00000_010000 = .ok (.mfhi 3) ∧
    decodeWord 0b000000_00000_00000_00011_00000_010010 = .ok (.mflo 3) ∧
    decodeWord 0b000000_00100_00000_00000_00000_010001 = .ok (.mthi 4) ∧
    decodeWord 0b000000_00100_00000_00000_00000_010011 = .ok (.mtlo 4) := by decide

/-- R73, R77, R80. -/
theorem test_decode_branches :
    decodeWord 0b000100_00001_00010_1000000000000100 = .ok (.beq 1 2 0x8004) ∧
    decodeWord 0b000101_00001_00010_1000000000000100 = .ok (.bne 1 2 0x8004) ∧
    decodeWord 0b000110_00001_00000_1000000000000100 = .ok (.blez 1 0x8004) ∧
    decodeWord 0b000111_00001_00000_1000000000000100 = .ok (.bgtz 1 0x8004) ∧
    decodeWord 0b000001_00001_00000_1000000000000100 = .ok (.bltz 1 0x8004) ∧
    decodeWord 0b000001_00001_00001_1000000000000100 = .ok (.bgez 1 0x8004) ∧
    decodeWord 0b000001_00001_10000_1000000000000100 = .ok (.bltzal 1 0x8004) ∧
    decodeWord 0b000001_00001_10001_1000000000000100 = .ok (.bgezal 1 0x8004) := by decide

/-- R72, R74. -/
theorem test_decode_jumps :
    decodeWord 0b000010_10000000000000000001000001 = .ok (.j 0x2000041) ∧
    decodeWord 0b000011_10000000000000000001000001 = .ok (.jal 0x2000041) ∧
    decodeWord 0b000000_00001_00000_00000_00000_001000 = .ok (.jr 1) ∧
    decodeWord 0b000000_01000_00000_11111_00000_001001 = .ok (.jalr 31 8) := by decide

/-- R73, R77. -/
theorem test_decode_loads :
    decodeWord 0b100000_00001_00010_1000000000000100 = .ok (.lb 2 0x8004 1) ∧
    decodeWord 0b100100_00001_00010_1000000000000100 = .ok (.lbu 2 0x8004 1) ∧
    decodeWord 0b100001_00001_00010_1000000000000100 = .ok (.lh 2 0x8004 1) ∧
    decodeWord 0b100101_00001_00010_1000000000000100 = .ok (.lhu 2 0x8004 1) ∧
    decodeWord 0b100011_00001_00010_1000000000000100 = .ok (.lw 2 0x8004 1) ∧
    decodeWord 0b100010_00001_00010_1000000000000100 = .ok (.lwl 2 0x8004 1) ∧
    decodeWord 0b100110_00001_00010_1000000000000100 = .ok (.lwr 2 0x8004 1) := by decide

/-- R73, R77. -/
theorem test_decode_stores :
    decodeWord 0b101000_00001_00010_1000000000000100 = .ok (.sb 2 0x8004 1) ∧
    decodeWord 0b101001_00001_00010_1000000000000100 = .ok (.sh 2 0x8004 1) ∧
    decodeWord 0b101011_00001_00010_1000000000000100 = .ok (.sw 2 0x8004 1) ∧
    decodeWord 0b101010_00001_00010_1000000000000100 = .ok (.swl 2 0x8004 1) ∧
    decodeWord 0b101110_00001_00010_1000000000000100 = .ok (.swr 2 0x8004 1) := by decide

/-- R72, R75. -/
theorem test_decode_system :
    decodeWord 0b000000_00010010001101000101_001100 = .ok (.syscall 0x12345) ∧
    decodeWord 0b000000_00010010001101000101_001101 = .ok (.break_ 0x12345) ∧
    decodeWord 0b010000_1_0000000000000000000_000001 = .ok .tlbr ∧
    decodeWord 0b010000_1_0000000000000000000_000010 = .ok .tlbwi ∧
    decodeWord 0b010000_1_0000000000000000000_000110 = .ok .tlbwr ∧
    decodeWord 0b010000_1_0000000000000000000_001000 = .ok .tlbp ∧
    decodeWord 0b010000_1_0000000000000000000_010000 = .ok .rfe := by decide

/-- R75, R81. -/
theorem test_decode_coprocessor_moves :
    decodeWord 0b010000_00000_00010_01100_00000000000 = .ok (.mfc0 2 12) ∧
    decodeWord 0b010000_00010_00010_01100_00000000000 = .ok (.cfc0 2 12) ∧
    decodeWord 0b010000_00100_00010_01100_00000000000 = .ok (.mtc0 2 12) ∧
    decodeWord 0b010000_00110_00010_01100_00000000000 = .ok (.ctc0 2 12) ∧
    decodeWord 0b010001_00000_00010_01100_00000000000 = .ok (.mfc1 2 12) ∧
    decodeWord 0b010001_00010_00010_01100_00000000000 = .ok (.cfc1 2 12) ∧
    decodeWord 0b010001_00100_00010_01100_00000000000 = .ok (.mtc1 2 12) ∧
    decodeWord 0b010001_00110_00010_01100_00000000000 = .ok (.ctc1 2 12) ∧
    decodeWord 0b010010_00000_00010_01100_00000000000 = .ok (.mfc2 2 12) ∧
    decodeWord 0b010010_00010_00010_01100_00000000000 = .ok (.cfc2 2 12) ∧
    decodeWord 0b010010_00100_00010_01100_00000000000 = .ok (.mtc2 2 12) ∧
    decodeWord 0b010010_00110_00010_01100_00000000000 = .ok (.ctc2 2 12) ∧
    decodeWord 0b010011_00000_00010_01100_00000000000 = .ok (.mfc3 2 12) ∧
    decodeWord 0b010011_00010_00010_01100_00000000000 = .ok (.cfc3 2 12) ∧
    decodeWord 0b010011_00100_00010_01100_00000000000 = .ok (.mtc3 2 12) ∧
    decodeWord 0b010011_00110_00010_01100_00000000000 = .ok (.ctc3 2 12) := by decide

/-- R75, R81. -/
theorem test_decode_coprocessor_branches_and_operations :
    decodeWord 0b010000_01000_00000_1000000000000100 = .ok (.bc0f 0x8004) ∧
    decodeWord 0b010000_01000_00001_1000000000000100 = .ok (.bc0t 0x8004) ∧
    decodeWord 0b010001_01000_00000_1000000000000100 = .ok (.bc1f 0x8004) ∧
    decodeWord 0b010001_01000_00001_1000000000000100 = .ok (.bc1t 0x8004) ∧
    decodeWord 0b010010_01000_00000_1000000000000100 = .ok (.bc2f 0x8004) ∧
    decodeWord 0b010010_01000_00001_1000000000000100 = .ok (.bc2t 0x8004) ∧
    decodeWord 0b010011_01000_00000_1000000000000100 = .ok (.bc3f 0x8004) ∧
    decodeWord 0b010011_01000_00001_1000000000000100 = .ok (.bc3t 0x8004) ∧
    decodeWord 0b010001_1_1000000000000000000000001 = .ok (.cop1 0x1000001) ∧
    decodeWord 0b010010_1_1000000000000000000000001 = .ok (.cop2 0x1000001) ∧
    decodeWord 0b010011_1_1000000000000000000000001 = .ok (.cop3 0x1000001) := by decide

/-- R73, R77. -/
theorem test_decode_coprocessor_memory :
    decodeWord 0b110000_00001_00010_1000000000000100 = .ok (.lwc0 2 0x8004 1) ∧
    decodeWord 0b110001_00001_00010_1000000000000100 = .ok (.lwc1 2 0x8004 1) ∧
    decodeWord 0b110010_00001_00010_1000000000000100 = .ok (.lwc2 2 0x8004 1) ∧
    decodeWord 0b110011_00001_00010_1000000000000100 = .ok (.lwc3 2 0x8004 1) ∧
    decodeWord 0b111000_00001_00010_1000000000000100 = .ok (.swc0 2 0x8004 1) ∧
    decodeWord 0b111001_00001_00010_1000000000000100 = .ok (.swc1 2 0x8004 1) ∧
    decodeWord 0b111010_00001_00010_1000000000000100 = .ok (.swc2 2 0x8004 1) ∧
    decodeWord 0b111011_00001_00010_1000000000000100 = .ok (.swc3 2 0x8004 1) := by decide

/-- Words that do not decode, by name (95_test_vectors.md, Cycle 1 to 9). -/
theorem test_decode_refuses :
    decodeWord 0x00200000 = .error .requiredZero ∧ decodeWord 0x00000001 = .error .reservedFunct ∧
    decodeWord 0xFC000000 = .error .reservedOpcode ∧ decodeWord 0x04020000 = .error .reservedRegimm ∧
    decodeWord 0x42000003 = .error .reservedCop ∧ decodeWord 0x42000041 = .error .requiredZero ∧
    decodeWord 0x40026001 = .error .requiredZero ∧ decodeWord 0x0000002C = .error .reservedFunct ∧
    decodeWord 0x70000000 = .error .reservedOpcode := by decide

/-- Bytes: little-endian, exactly four consumed (R57, R70). -/
theorem test_decode_bytes :
    decode [0x05, 0x00, 0x01, 0x24, 0xFF] = .ok (.addiu 1 0 5, [0xFF]) ∧ decode [0x05, 0x00, 0x01] = .error .truncated ∧
    decodeTableWord 32 0x24010005 = some (.addiu 1 0 5) ∧ decodeTableWord 32 0xFC000000 = none := by decide

/-! ### One cycle of every instruction -/

theorem test_add :
    (cycle 0x80001000 0x00221820 [(1, 0x80000000), (2, 0x80000000), (3, 0x1234)] []).map (fun t => (t.reg 3, t.pc, t.halt)) = some (0x1234, 0x80001004, .excepted ⟨.overflow, 0x80001000, none⟩) ∧
    (cycle 0x80001000 0x00221820 [(1, 0x3C), (2, 0x9)] []).map (fun t => (t.reg 3, t.pc)) = some (0x45, 0x80001004) := by decide

theorem test_addi :
    (cycle 0x80001000 0x20220001 [(1, 0x7FFFFFFF), (2, 0x5)] []).map (fun t => (t.reg 2, t.pc, t.halt)) = some (0x5, 0x80001004, .excepted ⟨.overflow, 0x80001000, none⟩) ∧
    (cycle 0x80001000 0x20228000 [(1, 0x80007FFF)] []).map (fun t => (t.pc, t.halt)) = some (0x80001004, .excepted ⟨.overflow, 0x80001000, none⟩) := by decide

theorem test_sub :
    (cycle 0x80001000 0x00221822 [(1, 0x5), (2, 0x7)] []).map (fun t => (t.reg 3, t.pc)) = some (0xFFFFFFFE, 0x80001004) ∧
    (cycle 0x80001000 0x00021822 [(2, 0x80000000), (3, 0x9)] []).map (fun t => (t.reg 3, t.pc, t.halt)) = some (0x9, 0x80001004, .excepted ⟨.overflow, 0x80001000, none⟩) := by decide

theorem test_addu :
    (cycle 0x80001000 0x00221821 [(1, 0xFFFFFFFF), (2, 0x1)] []).map (fun t => (t.reg 3, t.pc)) = some (0x0, 0x80001004) ∧
    (cycle 0x80001000 0x00221821 [(1, 0x7FFFFFFF), (2, 0x1)] []).map (fun t => (t.reg 3, t.pc)) = some (0x80000000, 0x80001004) := by decide

theorem test_addiu :
    (cycle 0x80001000 0x24220001 [(1, 0xFFFFFFFF)] []).map (fun t => (t.reg 2, t.pc)) = some (0x0, 0x80001004) ∧
    (cycle 0x80001000 0x2422FFFF [(1, 0x0)] []).map (fun t => (t.reg 2, t.pc)) = some (0xFFFFFFFF, 0x80001004) := by decide

theorem test_subu :
    (cycle 0x80001000 0x00221823 [(1, 0x0), (2, 0x1)] []).map (fun t => (t.reg 3, t.pc)) = some (0xFFFFFFFF, 0x80001004) ∧
    (cycle 0x80001000 0x00221823 [(1, 0x80000000), (2, 0x1)] []).map (fun t => (t.reg 3, t.pc)) = some (0x7FFFFFFF, 0x80001004) := by decide

theorem test_and :
    (cycle 0x80001000 0x00221824 [(1, 0xF0F0F0F0), (2, 0xFF00FF00)] []).map (fun t => (t.reg 3, t.pc)) = some (0xF000F000, 0x80001004) := by decide

theorem test_andi :
    (cycle 0x80001000 0x3022FFFF [(1, 0xFFFFFFFF)] []).map (fun t => (t.reg 2, t.pc)) = some (0xFFFF, 0x80001004) := by decide

theorem test_or :
    (cycle 0x80001000 0x00221825 [(1, 0xFFFF), (2, 0xFF0000)] []).map (fun t => (t.reg 3, t.pc)) = some (0xFFFFFF, 0x80001004) := by decide

theorem test_ori :
    (cycle 0x80001000 0x34228000 [(1, 0x0)] []).map (fun t => (t.reg 2, t.pc)) = some (0x8000, 0x80001004) := by decide

theorem test_nor :
    (cycle 0x80001000 0x00221827 [(1, 0x0), (2, 0x0)] []).map (fun t => (t.reg 3, t.pc)) = some (0xFFFFFFFF, 0x80001004) := by decide

theorem test_xor :
    (cycle 0x80001000 0x00211826 [(1, 0x12345678)] []).map (fun t => (t.reg 3, t.pc)) = some (0x0, 0x80001004) := by decide

theorem test_xori :
    (cycle 0x80001000 0x38228000 [(1, 0xFFFFFFFF)] []).map (fun t => (t.reg 2, t.pc)) = some (0xFFFF7FFF, 0x80001004) := by decide

theorem test_sll :
    (cycle 0x80001000 0x00021800 [(2, 0x89ABCDEF)] []).map (fun t => (t.reg 3, t.pc)) = some (0x89ABCDEF, 0x80001004) ∧
    (cycle 0x80001000 0x00021FC0 [(2, 0x3)] []).map (fun t => (t.reg 3, t.pc)) = some (0x80000000, 0x80001004) := by decide

theorem test_sllv :
    (cycle 0x80001000 0x00221804 [(2, 0x1), (1, 0x20)] []).map (fun t => (t.reg 3, t.pc)) = some (0x1, 0x80001004) ∧
    (cycle 0x80001000 0x00221804 [(2, 0x1), (1, 0xFFFFFFFF)] []).map (fun t => (t.reg 3, t.pc)) = some (0x80000000, 0x80001004) := by decide

theorem test_srl :
    (cycle 0x80001000 0x00021FC2 [(2, 0x80000000)] []).map (fun t => (t.reg 3, t.pc)) = some (0x1, 0x80001004) := by decide

theorem test_srlv :
    (cycle 0x80001000 0x00221806 [(2, 0x80000000), (1, 0x21)] []).map (fun t => (t.reg 3, t.pc)) = some (0x40000000, 0x80001004) := by decide

theorem test_sra :
    (cycle 0x80001000 0x00021FC3 [(2, 0x80000000)] []).map (fun t => (t.reg 3, t.pc)) = some (0xFFFFFFFF, 0x80001004) ∧
    (cycle 0x80001000 0x00021903 [(2, 0x7FFFFFFF)] []).map (fun t => (t.reg 3, t.pc)) = some (0x7FFFFFF, 0x80001004) := by decide

theorem test_srav :
    (cycle 0x80001000 0x00221807 [(2, 0x80000000), (1, 0x20)] []).map (fun t => (t.reg 3, t.pc)) = some (0x80000000, 0x80001004) ∧
    (cycle 0x80001000 0x00221807 [(2, 0xF0000000), (1, 0x3F)] []).map (fun t => (t.reg 3, t.pc)) = some (0xFFFFFFFF, 0x80001004) := by decide

theorem test_slt :
    (cycle 0x80001000 0x0022182A [(1, 0x80000000), (2, 0x7FFFFFFF)] []).map (fun t => (t.reg 3, t.pc)) = some (0x1, 0x80001004) ∧
    (cycle 0x80001000 0x0021182A [(1, 0x5)] []).map (fun t => (t.reg 3, t.pc)) = some (0x0, 0x80001004) := by decide

theorem test_slti :
    (cycle 0x80001000 0x28220000 [(1, 0xFFFFFFFF)] []).map (fun t => (t.reg 2, t.pc)) = some (0x1, 0x80001004) ∧
    (cycle 0x80001000 0x28228000 [(1, 0x80000000)] []).map (fun t => (t.reg 2, t.pc)) = some (0x1, 0x80001004) := by decide

theorem test_sltu :
    (cycle 0x80001000 0x0022182B [(1, 0x7FFFFFFF), (2, 0x80000000)] []).map (fun t => (t.reg 3, t.pc)) = some (0x1, 0x80001004) := by decide

theorem test_sltiu :
    (cycle 0x80001000 0x2C22FFFF [(1, 0xFFFFFFFE)] []).map (fun t => (t.reg 2, t.pc)) = some (0x1, 0x80001004) ∧
    (cycle 0x80001000 0x2C22FFFF [(1, 0xFFFFFFFF)] []).map (fun t => (t.reg 2, t.pc)) = some (0x0, 0x80001004) := by decide

theorem test_lui :
    (cycle 0x80001000 0x3C001234 [] []).map (fun t => t.pc) = some 0x80001004 := by decide

theorem test_mult :
    (cycle 0x80001000 0x00220018 [(1, 0xFFFFFFFF), (2, 0xFFFFFFFF)] []).map (fun t => (t.hi, t.lo, t.pc)) = some (0x0, 0x1, 0x80001004) ∧
    (cycle 0x80001000 0x00220018 [(1, 0x80000000), (2, 0x1)] []).map (fun t => (t.hi, t.lo, t.pc)) = some (0xFFFFFFFF, 0x80000000, 0x80001004) := by decide

theorem test_multu :
    (cycle 0x80001000 0x00220019 [(1, 0xFFFFFFFF), (2, 0xFFFFFFFF)] []).map (fun t => (t.hi, t.lo, t.pc)) = some (0xFFFFFFFE, 0x1, 0x80001004) ∧
    (cycle 0x80001000 0x00200019 [(1, 0x12345678)] []).map (fun t => (t.hi, t.lo, t.pc)) = some (0x0, 0x0, 0x80001004) := by decide

theorem test_div :
    (cycle 0x80001000 0x0022001A [(1, 0x7), (2, 0xFFFFFFFE)] []).map (fun t => (t.hi, t.lo, t.pc)) = some (0x1, 0xFFFFFFFD, 0x80001004) ∧
    (cycle 0x80001000 0x0022001A [(1, 0x80000000), (2, 0xFFFFFFFF)] []).map (fun t => (t.hi, t.lo, t.pc)) = some (0x0, 0x80000000, 0x80001004) := by decide

theorem test_divu :
    (cycle 0x80001000 0x0022001B [(1, 0x80000000), (2, 0xFFFFFFFF)] []).map (fun t => (t.hi, t.lo, t.pc)) = some (0x80000000, 0x0, 0x80001004) ∧
    (cycle 0x80001000 0x0022001B [(1, 0xFFFFFFFF), (2, 0x0)] []).map (fun t => (t.hi, t.lo, t.pc)) = some (0x0, 0x0, 0x80001004) := by decide

theorem test_mfhi :
    (cycleHiLo 0x00000010 0x1234 0xDEAD0041).map (fun t => t.pc) = some 0x80001004 ∧
    (cycleHiLo 0x00001810 0x1234 0xDEAD0041).map (fun t => (t.reg 3, t.pc)) = some (0x1234, 0x80001004) := by decide

theorem test_mflo :
    (cycleHiLo 0x00001812 0xDEAD0040 0xCAFEF00D).map (fun t => (t.reg 3, t.pc)) = some (0xCAFEF00D, 0x80001004) := by decide

theorem test_mthi :
    (cycle 0x80001000 0x00000011 [] []).map (fun t => (t.hi, t.lo, t.pc)) = some (0x0, 0xDEAD0041, 0x80001004) := by decide

theorem test_mtlo :
    (cycle 0x80001000 0x00800013 [(4, 0x7)] []).map (fun t => (t.hi, t.lo, t.pc)) = some (0xDEAD0040, 0x7, 0x80001004) := by decide

theorem test_beq :
    (cycle 0x80001000 0x10220003 [(1, 0x4), (2, 0x4)] []).map (fun t => t.pc) = some 0x80001010 ∧
    (cycle 0x80001000 0x10220003 [(1, 0x4), (2, 0x5)] []).map (fun t => t.pc) = some 0x80001004 := by decide

theorem test_bne :
    (cycle 0x80001000 0x14228000 [(1, 0x1), (2, 0x2)] []).map (fun t => t.pc) = some 0x7FFE1004 := by decide

theorem test_bgez :
    (cycle 0x80001000 0x04210001 [(1, 0x0)] []).map (fun t => t.pc) = some 0x80001008 ∧
    (cycle 0x80001000 0x04210001 [(1, 0x80000000)] []).map (fun t => t.pc) = some 0x80001004 := by decide

theorem test_bgtz :
    (cycle 0x80001000 0x1C200001 [(1, 0x0)] []).map (fun t => t.pc) = some 0x80001004 := by decide

theorem test_blez :
    (cycle 0x80001000 0x18200001 [(1, 0x0)] []).map (fun t => t.pc) = some 0x80001008 := by decide

theorem test_bltz :
    (cycle 0x80001000 0x04200001 [(1, 0xFFFFFFFF)] []).map (fun t => t.pc) = some 0x80001008 := by decide

theorem test_bgezal :
    (cycle 0x80001000 0x07F10010 [(31, 0x80000000)] []).map (fun t => (t.reg 31, t.pc)) = some (0x80001004, 0x80001004) ∧
    (cycle 0x80001000 0x04110010 [] []).map (fun t => (t.reg 31, t.pc)) = some (0x80001004, 0x80001044) := by decide

theorem test_bltzal :
    (cycle 0x80001000 0x07F00010 [(31, 0x80000000)] []).map (fun t => (t.reg 31, t.pc)) = some (0x80001004, 0x80001044) ∧
    (cycle 0x80001000 0x04100010 [] []).map (fun t => (t.reg 31, t.pc)) = some (0x80001004, 0x80001004) := by decide

theorem test_j :
    (cycle 0x80001000 0x08000040 [] []).map (fun t => t.pc) = some 0x80000100 ∧
    (cycle 0x80001000 0x0BFFFFFF [] []).map (fun t => t.pc) = some 0x8FFFFFFC := by decide

theorem test_jal :
    (cycle 0x80010000 0x0C004100 [] []).map (fun t => (t.reg 31, t.pc)) = some (0x80010008, 0x80010400) := by decide

theorem test_jr :
    (cycle 0x80001000 0x00200008 [(1, 0xFFFFFFFD)] []).map (fun t => (t.pc, t.halt)) = some (0xFFFFFFFD, .excepted ⟨.addressError, 0x80001000, some 0xFFFFFFFD⟩) ∧
    (cycle 0x80001000 0x03E00008 [(31, 0x80010008)] []).map (fun t => t.pc) = some 0x80010008 := by decide

theorem test_jalr :
    (cycle 0x80001000 0x0100F809 [(8, 0xFFFFFFFD)] []).map (fun t => (t.reg 31, t.pc, t.halt)) = some (0x80001008, 0xFFFFFFFD, .excepted ⟨.addressError, 0x80001000, some 0xFFFFFFFD⟩) ∧
    (cycle 0x80001000 0x00A02809 [(5, 0x80003000)] []).map (fun t => (t.reg 5, t.pc)) = some (0x80001008, 0x80003000) := by decide

theorem test_lb :
    (cycle 0x80001000 0x80220000 [(1, 0x80000100)] [(0x100, 0xF0)]).map (fun t => (t.reg 2, t.pc)) = some (0xFFFFFFF0, 0x80001004) ∧
    (cycle 0x80001000 0x80220000 [(1, 0x80000100)] [(0x100, 0x7F)]).map (fun t => (t.reg 2, t.pc)) = some (0x7F, 0x80001004) := by decide

theorem test_lbu :
    (cycle 0x80001000 0x90220000 [(1, 0x80000100)] [(0x100, 0xF0)]).map (fun t => (t.reg 2, t.pc)) = some (0xF0, 0x80001004) := by decide

theorem test_lh :
    (cycle 0x80001000 0x84220000 [(1, 0x80000100)] [(0x100, 0x34), (0x101, 0x92)]).map (fun t => (t.reg 2, t.pc)) = some (0xFFFF9234, 0x80001004) ∧
    (cycle 0x80001000 0x84220001 [(1, 0x80000100), (2, 0x5)] []).map (fun t => (t.reg 2, t.pc, t.halt)) = some (0x5, 0x80001004, .excepted ⟨.addressError, 0x80001000, some 0x80000101⟩) := by decide

theorem test_lhu :
    (cycle 0x80001000 0x94220000 [(1, 0x80000100)] [(0x100, 0x34), (0x101, 0x92)]).map (fun t => (t.reg 2, t.pc)) = some (0x9234, 0x80001004) ∧
    (cycle 0x80001000 0x94220003 [(1, 0x80000100), (2, 0x5)] []).map (fun t => (t.reg 2, t.pc, t.halt)) = some (0x5, 0x80001004, .excepted ⟨.addressError, 0x80001000, some 0x80000103⟩) := by decide

theorem test_lw :
    (cycle 0x80001000 0x8C020100 [] [(0x100, 0x11), (0x101, 0x22), (0x102, 0x33), (0x103, 0x44)]).map (fun t => (t.reg 2, t.pc)) = some (0x44332211, 0x80001004) ∧
    (cycle 0x80001000 0x8C220002 [(1, 0x80000100), (2, 0x5)] []).map (fun t => (t.reg 2, t.pc, t.halt)) = some (0x5, 0x80001004, .excepted ⟨.addressError, 0x80001000, some 0x80000102⟩) := by decide

theorem test_lwl :
    (cycle 0x80001000 0x88220000 [(1, 0x80000100), (2, 0xAABBCCDD)] [(0x100, 0x11), (0x101, 0x22), (0x102, 0x33), (0x103, 0x44)]).map (fun t => (t.reg 2, t.pc)) = some (0x11BBCCDD, 0x80001004) ∧
    (cycle 0x80001000 0x88220002 [(1, 0x80000100), (2, 0xAABBCCDD)] [(0x100, 0x11), (0x101, 0x22), (0x102, 0x33), (0x103, 0x44)]).map (fun t => (t.reg 2, t.pc)) = some (0x332211DD, 0x80001004) := by decide

theorem test_lwr :
    (cycle 0x80001000 0x98220001 [(1, 0x80000100), (2, 0xAABBCCDD)] [(0x100, 0x11), (0x101, 0x22), (0x102, 0x33), (0x103, 0x44)]).map (fun t => (t.reg 2, t.pc)) = some (0xAA443322, 0x80001004) ∧
    (cycle 0x80001000 0x98220003 [(1, 0x80000100), (2, 0xAABBCCDD)] [(0x100, 0x11), (0x101, 0x22), (0x102, 0x33), (0x103, 0x44)]).map (fun t => (t.reg 2, t.pc)) = some (0xAABBCC44, 0x80001004) := by decide

theorem test_sb :
    (cycle 0x80001000 0xA0220003 [(1, 0x80000100), (2, 0x12345678)] []).map (fun t => (t.mem.read 0x103, t.pc)) = some (0x78, 0x80001004) := by decide

theorem test_sh :
    (cycle 0x80001000 0xA4220002 [(1, 0x80000100), (2, 0x12345678)] []).map (fun t => (t.mem.read 0x102, t.mem.read 0x103, t.pc)) = some (0x78, 0x56, 0x80001004) ∧
    (cycle 0x80001000 0xA4220001 [(1, 0x80000100), (2, 0x12345678)] []).map (fun t => (t.pc, t.halt)) = some (0x80001004, .excepted ⟨.addressError, 0x80001000, some 0x80000101⟩) := by decide

theorem test_sw :
    (cycle 0x80001000 0xAC220000 [(1, 0xBFC00000), (2, 0x1)] []).map (fun t => t.pc) = some 0x80001004 ∧
    (cycle 0x80001000 0xAC220000 [(1, 0x1F800000), (2, 0xCAFEBABE)] []).map (fun t => (t.mem.read 0x1F800000, t.mem.read 0x1F800001, t.mem.read 0x1F800002, t.mem.read 0x1F800003, t.pc)) = some (0xBE, 0xBA, 0xFE, 0xCA, 0x80001004) := by decide

theorem test_swl :
    (cycle 0x80001000 0xA8220001 [(1, 0x80000100), (2, 0xAABBCCDD)] [(0x100, 0x11), (0x101, 0x22), (0x102, 0x33), (0x103, 0x44)]).map (fun t => (t.mem.read 0x100, t.mem.read 0x101, t.pc)) = some (0xBB, 0xAA, 0x80001004) ∧
    (cycle 0x80001000 0xA8220002 [(1, 0x80000100), (2, 0xAABBCCDD)] [(0x100, 0x11), (0x101, 0x22), (0x102, 0x33), (0x103, 0x44)]).map (fun t => (t.mem.read 0x100, t.mem.read 0x101, t.mem.read 0x102)) = some (0xCC, 0xBB, 0xAA) := by decide

theorem test_swr :
    (cycle 0x80001000 0xB8220001 [(1, 0x80000100), (2, 0xAABBCCDD)] [(0x100, 0x11), (0x101, 0x22), (0x102, 0x33), (0x103, 0x44)]).map (fun t => (t.mem.read 0x101, t.mem.read 0x102, t.mem.read 0x103)) = some (0xDD, 0xCC, 0xBB) ∧
    (cycle 0x80001000 0xB8220003 [(1, 0x80000100), (2, 0xAABBCCDD)] [(0x100, 0x11), (0x101, 0x22), (0x102, 0x33), (0x103, 0x44)]).map (fun t => (t.mem.read 0x103, t.pc)) = some (0xDD, 0x80001004) := by decide

theorem test_syscall :
    (cycle 0x80001000 0x0000000C [] []).map (fun t => (t.pc, t.halt)) = some (0x80001004, .excepted ⟨.systemCall, 0x80001000, none⟩) := by decide

theorem test_break :
    (cycle 0x80001000 0x0048D14D [] []).map (fun t => (t.pc, t.halt)) = some (0x80001004, .excepted ⟨.breakpoint, 0x80001000, none⟩) := by decide

theorem test_tlbr :
    (cycle 0x80001000 0x42000001 [] []).map (fun t => (t.pc, t.halt)) = some (0x80001000, .excepted ⟨.reservedInstruction, 0x80001000, none⟩) ∧
    (cycle 0x80001000 0x42000041 [] []).map (fun t => (t.pc, t.halt)) = some (0x80001000, .decodeFault 0x42000041) := by decide

theorem test_tlbwi :
    (cycle 0x80001000 0x42000002 [] []).map (fun t => (t.pc, t.halt)) = some (0x80001000, .excepted ⟨.reservedInstruction, 0x80001000, none⟩) := by decide

theorem test_tlbwr :
    (cycle 0x80001000 0x42000006 [] []).map (fun t => (t.pc, t.halt)) = some (0x80001000, .excepted ⟨.reservedInstruction, 0x80001000, none⟩) := by decide

theorem test_tlbp :
    (cycle 0x80001000 0x42000008 [] []).map (fun t => (t.pc, t.halt)) = some (0x80001000, .excepted ⟨.reservedInstruction, 0x80001000, none⟩) := by decide

theorem test_coprocessor_moves :
    (cycle 0x80001000 0x40026000 [(2, 5)] []).map (fun t => (t.reg 2, t.halt)) = some (5, .refused "mfc0") ∧
    (cycle 0x80001000 0x40806000 [] []).map (fun t => t.halt) = some (.refused "mtc0") ∧
    (cycle 0x80001000 0x48420800 [] []).map (fun t => t.halt) = some (.refused "cfc2") ∧
    (cycle 0x80001000 0x48C20800 [] []).map (fun t => t.halt) = some (.refused "ctc2") := by decide

theorem test_coprocessor_others :
    (cycle 0x80001000 0x45000001 [] []).map (fun t => t.halt) = some (.refused "bc1f") ∧
    (cycle 0x80001000 0x41010001 [] []).map (fun t => t.halt) = some (.refused "bc0t") ∧
    (cycle 0x80001000 0x4A000001 [] []).map (fun t => t.halt) = some (.refused "cop2") ∧
    (cycle 0x80001000 0x42000010 [] []).map (fun t => t.halt) = some (.refused "rfe") ∧
    (cycle 0x80001000 0xC8410000 [] []).map (fun t => t.halt) = some (.refused "lwc2") ∧
    (cycle 0x80001000 0xE8410000 [] []).map (fun t => t.halt) = some (.refused "swc2") := by decide

/-! ### The cycle, fetch and reset -/

/-- Cycle 1, 10 and 11. -/
theorem test_cycle_fetch :
    (cycle 0x80001000 0x00200000 [] []).map (fun t => (t.pc, t.halt)) = some (0x80001000, .decodeFault 0x00200000) ∧
    (cycle 0x80001000 0x00000000 [] []).map (fun t => (t.pc, t.halt)) = some (0x80001004, .running) ∧
    (next (step (start 0x80001002 [] [] 0))).map (fun t => (t.pc, t.halt)) =
      some (0x80001002, .excepted ⟨.addressError, 0x80001002, some 0x80001002⟩) := by decide

/-- Cycle 12, 13 and 14. -/
theorem test_cycle_unknown_and_short_image :
    (next (step (start 0xBF801000 [] [] 0))).map (fun t => (t.pc, t.halt)) = some (0xBF801004, .running) ∧
    (next (step (start 0xFFFFFFFC [] [] 0))).map (fun t => (t.pc, t.halt)) = some (0x00000000, .running) ∧
    (next (step (start 0xBFC00004 [] [] 6))).map (fun t => (t.pc, t.halt)) = some (0xBFC00004, .busFault 0x1FC00004) := by decide

/-- Load/store 31: a load past a short image. -/
theorem test_load_past_the_image :
    (next (exec (.lw 2 4 1) (start 0x80001000 [(1, 0xBFC00000), (2, 5)] [] 6))).map (fun t => (t.reg 2, t.pc, t.halt)) =
      some (5, 0x80001004, .busFault 0x1FC00004) := by decide

/-- L1.5 vector 3 by R181: at `ia` = 0x0FFFFFFC the top four bits are those of 0x10000000 (notes/assumptions 12). -/
theorem test_jump_region_of_the_next_instruction :
    (next (exec (.j 0x40) (start 0x0FFFFFFC [] [] 0))).map (fun t => t.pc) = some 0x10000100 := by decide

/-- Cycle 15, through the host's placing of a word: the first instruction after reset is the BIOS word at offset 0. -/
theorem test_first_word_after_reset :
    (next (step (State.reset.withFetchWord 32 0x24010005))).map (fun t => (t.reg 1, t.pc, t.halt)) =
      some (5, 0xBFC00004, .running) := by decide

/-- R313: with an empty image the first fetch ends in BusFault. -/
theorem test_reset_with_an_empty_image :
    (next (step State.reset)).map (fun t => (t.pc, t.halt)) = some (0xBFC00000, .busFault 0x1FC00000) := by decide

/-- R100: a halted core has no step; a reset event and a service run it again. -/
theorem test_halted_core :
    next (step { State.reset with halt := .refused "rfe" }) = none ∧
    (resetEvent { State.reset with halt := .refused "rfe", pc := 4 }).pc = 0xBFC00000 ∧
    (serviceException (fun s _ => s.setPc 0x80000080) { State.reset with halt := .excepted ⟨.systemCall, 0, none⟩ }).halt = .running ∧
    (serviceException (fun s _ => s.setPc 0x80000080) { State.reset with halt := .decodeFault 1 }).halt = .decodeFault 1 := by decide

/-- Translation and routing 1 to 18. -/
theorem test_translation :
    translateVa 0x001FFFFF = 0x001FFFFF ∧ translateVa 0x20000100 = 0x00000100 ∧ translateVa 0x7FC00000 = 0x1FC00000 ∧
    translateVa 0x80000000 = 0 ∧ translateVa 0x9F8003FF = 0x1F8003FF ∧ translateVa 0xBFC7FFFF = 0x1FC7FFFF ∧
    translateVa 0xBFFFFFFF = 0x1FFFFFFF ∧ translateVa 0xC0000000 = 0xC0000000 ∧ translateVa 0xFFFE0130 = 0xFFFE0130 := by decide

theorem test_device_edges :
    deviceOf 0x001FFFFF = .ram ∧ deviceOf 0x00200000 = .unknown ∧ deviceOf 0x1F800000 = .scratchpad ∧
    deviceOf 0x1F8003FF = .scratchpad ∧ deviceOf 0x1F800400 = .unknown ∧ deviceOf 0x1FC00000 = .bios ∧
    deviceOf 0x1FC7FFFF = .bios ∧ deviceOf 0x1FC80000 = .unknown ∧
    busReadWord (start 0 [] [] 6) 0x1FC00004 = .error 0x1FC00004 := by decide

/-! ### Witnesses: a state and operands that meet the hypotheses of each obligation, at the edges of each clause -/

/-- Bytes 11 22 33 44 55 66 at the start of a BIOS image of six bytes, and registers given. -/
def image6 (xs : List (Reg × Word)) : State :=
  start 0xBFC00000 xs [(0x1FC00000, 0x11), (0x1FC00001, 0x22), (0x1FC00002, 0x33), (0x1FC00003, 0x44), (0x1FC00004, 0x55), (0x1FC00005, 0x66)] 6

theorem witness_RegisterZeroReadsZeroOthersStore : (31 : Reg) ≠ 0 ∧ (0 : Reg) ≠ 31 ∧ (30 : Reg) ≠ 31 := by decide

/-- The sums and the difference at the ends of the range. -/
theorem witness_TrappingArithmeticWritesTheExactResult :
    let s := start 0 [(1, 0x7FFFFFFE), (2, 1), (3, 0x80000001)] [] 0
    (s.reg 1).toInt + (s.reg 2).toInt = 2 ^ 31 - 1 ∧ (s.reg 1).toInt + (1 : BitVec 16).toInt = 2 ^ 31 - 1 ∧
    (s.reg 3).toInt - (s.reg 2).toInt = -2 ^ 31 := by decide

/-- The sums and the difference just past the range, and at its ends. -/
theorem witness_TrappingArithmeticRaisesOverflow :
    let s := start 0 [(1, 0x7FFFFFFF), (2, 1), (3, 0x80000000)] [] 0
    (s.reg 1).toInt + (s.reg 2).toInt = 2 ^ 31 ∧ (s.reg 3).toInt + (0xFFFF : BitVec 16).toInt = -2 ^ 31 - 1 ∧
    (s.reg 3).toInt - (s.reg 2).toInt = -2 ^ 31 - 1 ∧ (s.reg 1).toInt + (s.reg 0).toInt = 2 ^ 31 - 1 ∧
    (s.reg 3).toInt + (0 : BitVec 16).toInt = -2 ^ 31 ∧ (s.reg 3).toInt - (s.reg 0).toInt = -2 ^ 31 := by decide

theorem witness_ImmediateShiftsScaleByPowersOfTwo : 0 < 32 ∧ 31 < 32 := by decide

theorem witness_ComparisonsWriteOneOrZero :
    let s := start 0 [(1, 0x80000000), (2, 0x7FFFFFFF)] [] 0
    (s.reg 1).toInt < (s.reg 2).toInt ∧ ¬ (s.reg 1).toNat < (s.reg 2).toNat ∧ (s.reg 1).toInt < (0x8000 : BitVec 16).toInt ∧
    (s.reg 1).toNat < (BitVec.ofInt 32 (0x8000 : BitVec 16).toInt).toNat := by decide

/-- A zero divisor, the quotient that does not fit, and the two next to it. -/
theorem witness_SignedDivisionTruncatesTowardZero :
    let s := start 0 [(1, 0x80000000), (2, 0xFFFFFFFF), (3, 1), (4, 0x80000001)] [] 0
    (s.reg 0).toInt = 0 ∧ ((s.reg 1).toInt = -2 ^ 31 ∧ (s.reg 2).toInt = -1) ∧
    ((s.reg 3).toInt ≠ 0 ∧ ¬ ((s.reg 1).toInt = -2 ^ 31 ∧ (s.reg 3).toInt = -1)) ∧
    ((s.reg 2).toInt ≠ 0 ∧ ¬ ((s.reg 4).toInt = -2 ^ 31 ∧ (s.reg 2).toInt = -1) ∧ (s.reg 4).toInt ≤ 0) := by decide

theorem witness_UnsignedDivisionGivesQuotientAndRemainder :
    let s := start 0 [(1, 1)] [] 0
    (s.reg 0).toNat = 0 ∧ (s.reg 1).toNat ≠ 0 := by decide

theorem witness_OnlyTheNamedInstructionsTouchHiAndLo :
    (∃ t, exec (.mthi 1) State.reset = .next t) ∧
    (∃ t, exec (.mthi 1) (start 0 [(1, 5)] [] 0) = .next t ∧ t.hi ≠ (start 0 [(1, 5)] [] 0).hi) ∧
    (∃ t, exec (.mtlo 1) (start 0 [(1, 5)] [] 0) = .next t ∧ t.lo ≠ (start 0 [(1, 5)] [] 0).lo) ∧
    (∀ rd, Instr.mthi 1 ≠ .mfhi rd) ∧ (∀ rd, Instr.mthi 1 ≠ .mflo rd) ∧
    (IsMulDiv (.mult 1 1) ∧ ∃ t, exec (.mult 1 1) (start 0 [(1, 5)] [] 0) = .next t) :=
  ⟨⟨_, rfl⟩, ⟨_, rfl, by decide⟩, ⟨_, rfl, by decide⟩, nofun, nofun, ⟨_, _, .inl rfl⟩, _, rfl⟩

theorem witness_BranchesRedirectExactlyWhenTaken :
    let s := start 0 [(1, 0x80000000), (2, 0x7FFFFFFF)] [] 0
    s.reg 1 = s.reg 1 ∧ s.reg 1 ≠ s.reg 2 ∧ 0 ≤ (s.reg 0).toInt ∧ ¬ 0 ≤ (s.reg 1).toInt ∧ 0 < (s.reg 2).toInt ∧
    ¬ 0 < (s.reg 0).toInt ∧ (s.reg 0).toInt ≤ 0 ∧ ¬ (s.reg 2).toInt ≤ 0 ∧ (s.reg 1).toInt < 0 ∧ ¬ (s.reg 0).toInt < 0 := by decide

theorem witness_BranchAndLinkAlwaysLinks :
    let s := start 0 [(31, 0x80000000)] [] 0
    0 ≤ (s.reg 0).toInt ∧ ¬ 0 ≤ (s.reg 31).toInt ∧ (s.reg 31).toInt < 0 ∧ ¬ (s.reg 0).toInt < 0 := by decide

theorem witness_RegisterJumpsReachAnAlignedTarget :
    ((start 0 [(1, 0xFFFFFFFC)] [] 0).reg 1).toNat % 4 = 0 ∧ ((start 0 [] [] 0).reg 0).toNat % 4 = 0 := by decide

theorem witness_RegisterJumpsRedirectAndReportMisalignment :
    let s := start 0 [(1, 0xFFFFFFFC), (2, 0xFFFFFFFD)] [] 0
    (Instr.jr 1 = .jr 1 ∨ Instr.jr 1 = .jalr 31 1) ∧ (Instr.jalr 31 2 = .jr 2 ∨ Instr.jalr 31 2 = .jalr 31 2) ∧
    (s.reg 1).toNat % 4 = 0 ∧ (s.reg 2).toNat % 4 ≠ 0 := by decide

theorem witness_MisalignedRegisterJumpsKeepTheirWrites :
    ((start 0 [(1, 1)] [] 0).reg 1).toNat % 4 ≠ 0 ∧ ((start 0 [(1, 0xFFFFFFFF)] [] 0).reg 1).toNat % 4 ≠ 0 := by decide

/-- The last byte of RAM, the last byte of the image, and an address of no device. -/
theorem witness_ByteLoadsExtendTheByte :
    let s := image6 [(1, 0x801FFFFF), (2, 0xBFC00005), (3, 0xC0000000)]
    ImageCovers s (translateVa (effAddr s 1 0)) 1 ∧
    (InBios (translateVa (effAddr s 2 0)).toNat ∧ ImageCovers s (translateVa (effAddr s 2 0)) 1) ∧
    ImageCovers s (translateVa (effAddr s 3 0)) 1 := by decide

theorem witness_HalfwordLoadsExtendTheHalfword :
    let s := image6 [(1, 0x9F8003FE), (2, 0xBFC00004)]
    ((effAddr s 1 0).toNat % 2 = 0 ∧ ImageCovers s (translateVa (effAddr s 1 0)) 2) ∧
    ((effAddr s 2 0).toNat % 2 = 0 ∧ InBios (translateVa (effAddr s 2 0)).toNat ∧ ImageCovers s (translateVa (effAddr s 2 0)) 2) := by
  decide

theorem witness_WordLoadsReadFourBytes :
    let s := image6 [(1, 0x001FFFFC), (2, 0xBFC00000)]
    ((effAddr s 1 0).toNat % 4 = 0 ∧ ImageCovers s (translateVa (effAddr s 1 0)) 4) ∧
    ((effAddr s 2 0).toNat % 4 = 0 ∧ InBios (translateVa (effAddr s 2 0)).toNat ∧ ImageCovers s (translateVa (effAddr s 2 0)) 4) := by
  decide

theorem witness_PartialLoadsMergeBytes :
    let s := image6 [(1, 0x001FFFFF), (2, 0xBFC00003)]
    ImageCovers s (translateVa (effAddr s 1 0 &&& 0xFFFFFFFC)) 4 ∧
    (InBios (translateVa (effAddr s 2 0)).toNat ∧ ImageCovers s (translateVa (effAddr s 2 0 &&& 0xFFFFFFFC)) 4) := by decide

/-- Offsets 1 and 4, and the pair -3 and 0 at the last word of RAM. -/
theorem witness_UnalignedLoadPairReconstructsTheWord :
    let s := image6 [(1, 0x80000100), (3, 0x801FFFFF)]
    (2 : Reg) ≠ 0 ∧ (2 : Reg) ≠ 1 ∧ (2 : Reg) ≠ 3 ∧ (4 : BitVec 16).toInt = (1 : BitVec 16).toInt + 3 ∧
    (0 : BitVec 16).toInt = (0xFFFD : BitVec 16).toInt + 3 ∧
    ImageCovers s (translateVa (effAddr s 1 1 &&& 0xFFFFFFFC)) 4 ∧
    ImageCovers s (translateVa ((effAddr s 1 1 + 3) &&& 0xFFFFFFFC)) 4 ∧
    ImageCovers s (translateVa (effAddr s 3 0xFFFD &&& 0xFFFFFFFC)) 4 ∧
    ImageCovers s (translateVa ((effAddr s 3 0xFFFD + 3) &&& 0xFFFFFFFC)) 4 := by decide

theorem witness_MisalignedAccessRaisesAddressError :
    let s := start 0 [(1, 0x80000201), (2, 0x80000202)] [] 0
    (effAddr s 1 0).toNat % 2 ≠ 0 ∧ (effAddr s 2 0).toNat % 4 ≠ 0 ∧ (effAddr s 1 0).toNat % 4 ≠ 0 := by decide

/-- One byte past the image, a halfword and a word that pass its end, the word that `lwl`, `lwr` and `swr` meet. -/
theorem witness_AccessPastTheImageEndsInBusFault :
    let s := image6 [(1, 0xBFC00006), (2, 0xBFC00004), (3, 0xBFC00005)]
    ¬ ImageCovers s (translateVa (effAddr s 1 0)) 1 ∧
    ((effAddr s 1 0).toNat % 2 = 0 ∧ ¬ ImageCovers s (translateVa (effAddr s 1 0)) 2) ∧
    ((effAddr s 2 0).toNat % 4 = 0 ∧ ¬ ImageCovers s (translateVa (effAddr s 2 0)) 4) ∧
    ¬ ImageCovers s (translateVa (effAddr s 3 0 &&& 0xFFFFFFFC)) 4 ∧
    ImageCovers s (translateVa (effAddr s 3 0)) 1 := by decide

/-- The last byte, halfword and word of RAM and of the scratchpad. -/
theorem witness_StoresWriteExactlyTheirBytes :
    let s := image6 [(1, 0x801FFFFF), (2, 0x9F8003FE), (3, 0x1F8003FC)]
    s.mem.wf ∧ Writable (translateVa (effAddr s 1 0)).toNat ∧
    (Writable (translateVa (effAddr s 2 0)).toNat ∧ (effAddr s 2 0).toNat % 2 = 0) ∧
    (Writable (translateVa (effAddr s 3 0)).toNat ∧ (effAddr s 3 0).toNat % 4 = 0) := by decide

theorem witness_PartialStoresWriteExactlyTheirBytes :
    let s := image6 [(1, 0x801FFFFF), (2, 0x9F8003FF)]
    s.mem.wf ∧ Writable (translateVa (effAddr s 1 0 &&& 0xFFFFFFFC)).toNat ∧
    Writable (translateVa (effAddr s 2 0 &&& 0xFFFFFFFC)).toNat := by decide

/-- A store that changes a byte, a store to the image, and a misaligned one. -/
theorem witness_StoresChangeOnlyAddressedWritableBytes :
    (next (exec (.sb 2 0 1) (image6 [(1, 0x801FFFFF), (2, 7)]))).map (fun t => t.mem.read 0x1FFFFF) = some 7 ∧
    ((next (exec (.sw 2 0 1) (image6 [(1, 0xBFC00000), (2, 7)]))).isSome = true ∧
      ¬ Writable (translateVa (effAddr (image6 [(1, 0xBFC00000), (2, 7)]) 1 0)).toNat) ∧
    (next (exec (.sh 2 1 1) (image6 [(1, 0xBFC00000), (2, 7)]))).isSome = true := by decide

theorem witness_DroppedStoresOnlyAdvance :
    let s := image6 [(1, 0xBFC00005), (2, 0xBFC00004), (3, 0xBFC00000), (4, 0xC0000000)]
    (¬ Writable (translateVa (effAddr s 1 0)).toNat ∧ ImageCovers s (translateVa (effAddr s 1 0)) 1) ∧
    (¬ Writable (translateVa (effAddr s 2 0)).toNat ∧ (effAddr s 2 0).toNat % 2 = 0 ∧ ImageCovers s (translateVa (effAddr s 2 0)) 2) ∧
    (¬ Writable (translateVa (effAddr s 3 0)).toNat ∧ (effAddr s 3 0).toNat % 4 = 0 ∧ ImageCovers s (translateVa (effAddr s 3 0)) 4 ∧
      ImageCovers s (translateVa (effAddr s 3 0 &&& 0xFFFFFFFC)) 4) ∧
    (¬ Writable (translateVa (effAddr s 4 0)).toNat ∧ ImageCovers s (translateVa (effAddr s 4 0)) 4) := by decide

theorem witness_StoreThenLoadRoundTrip :
    let s := image6 [(1, 0x801FFFFC), (2, 0xBFC00000), (3, 0xC0000000)]
    (4 : Reg) ≠ 0 ∧ s.mem.wf ∧ ((effAddr s 1 0).toNat % 4 = 0 ∧ Writable (translateVa (effAddr s 1 0)).toNat) ∧
    ((effAddr s 2 0).toNat % 4 = 0 ∧ InBios (translateVa (effAddr s 2 0)).toNat ∧ ImageCovers s (translateVa (effAddr s 2 0)) 4) ∧
    ((effAddr s 3 0).toNat % 4 = 0 ∧ ¬ Writable (translateVa (effAddr s 3 0)).toNat ∧ ¬ InBios (translateVa (effAddr s 3 0)).toNat) := by
  decide

theorem witness_TlbInstructionsRaiseReservedInstruction :
    Instr.tlbp = .tlbr ∨ Instr.tlbp = .tlbwi ∨ Instr.tlbp = .tlbwr ∨ Instr.tlbp = .tlbp := by decide

/-- The last word of RAM, and the first word of an image of four bytes. -/
theorem witness_StepRunsTheDecodedInstruction :
    let s := placeWord 0x24010005 (start 0x801FFFFC [] [] 0)
    let t := State.reset.withFetchWord 32 0x24010005
    (s.halt = .running ∧ s.pc.toNat % 4 = 0 ∧ ImageCovers s (translateVa s.pc) 4 ∧
      decode [physByte s 0x1FFFFC, physByte s 0x1FFFFD, physByte s 0x1FFFFE, physByte s 0x1FFFFF] = .ok (.addiu 1 0 5, [])) ∧
    (t.halt = .running ∧ t.pc.toNat % 4 = 0 ∧ ImageCovers t (translateVa t.pc) 4 ∧
      decode [physByte t 0x1FC00000, physByte t 0x1FC00001, physByte t 0x1FC00002, physByte t 0x1FC00003] = .ok (.addiu 1 0 5, [])) := by
  decide

theorem decode_fault_ne_ok : ∀ i, decodeWord 0xFC000000 ≠ .ok i := by
  have h : decodeWord 0xFC000000 = .error .reservedOpcode := by decide
  rw [h]
  exact nofun

/-- A misaligned `pc`, a fetch past the image, and a word that does not decode. -/
theorem witness_FailedFetchLeavesPc :
    (start 0x80001002 [] [] 0).halt = .running ∧ (start 0x80001002 [] [] 0).pc.toNat % 4 ≠ 0 ∧
    ((start 0xBFC00004 [] [] 6).pc.toNat % 4 = 0 ∧ ¬ ImageCovers (start 0xBFC00004 [] [] 6) (translateVa 0xBFC00004) 4) ∧
    (let s := placeWord 0xFC000000 (start 0x80001000 [] [] 0)
     s.pc.toNat % 4 = 0 ∧ ImageCovers s (translateVa s.pc) 4 ∧
      (physByte s 0x1003 ++ physByte s 0x1002 ++ physByte s 0x1001 ++ physByte s 0x1000 : Word) = 0xFC000000) := by decide

theorem witness_StepIsDefinedExactlyWhileRunning :
    State.reset.halt = .running ∧ ({ State.reset with halt := .busFault 0x1FC00000 } : State).halt ≠ .running := by decide

theorem witness_UnknownAddressesReadZeroAndIgnoreWrites :
    let s := start 0xBF801000 [] [] 0
    ¬ Writable (0x1F801000 : Word).toNat ∧ ¬ InBios (0x1F801000 : Word).toNat ∧ s.halt = .running ∧ s.pc.toNat % 4 = 0 ∧
    translateVa s.pc = 0x1F801000 ∧ ¬ Writable (0xFFFFFFFF : Word).toNat ∧ ¬ InBios (0xFFFFFFFF : Word).toNat := by decide

theorem witness_TranslationMasksTheLowerThreeSegments :
    (0xBFFFFFFF : Word).toNat < 0xC0000000 ∧ 0xC0000000 ≤ (0xC0000000 : Word).toNat := by decide

/-- The last byte, halfword and word of RAM, of the scratchpad and of the image. -/
theorem witness_DeviceReadsAreLittleEndian :
    (0x1FFFFF : Word).toNat + 1 ≤ 0x200000 ∧ (0x1F8003FE : Word).toNat + 2 ≤ 0x1F800400 ∧ 0x1F800000 ≤ (0x1F8003FE : Word).toNat ∧
    InBios (0x1FC00002 : Word).toNat ∧ (0x1FC00002 : Word).toNat + 4 ≤ 0x1FC00000 + (image6 []).biosLen := by decide

theorem witness_DeviceWritesSetTheirBytesAndNothingElse :
    (image6 []).mem.wf ∧ (0x1FFFFF : Word).toNat + 1 ≤ 0x200000 ∧
    (0x1F800000 ≤ (0x1F8003FC : Word).toNat ∧ (0x1F8003FC : Word).toNat + 4 ≤ 0x1F800400) ∧
    (InBios (0x1FC00002 : Word).toNat ∧ (0x1FC00002 : Word).toNat + 4 ≤ 0x1FC00000 + (image6 []).biosLen) := by decide

/-- One cycle of a store to the scratchpad, and a byte of the image. -/
theorem witness_NoCycleChangesTheBios :
    (cycle 0x80001000 0xAC220000 [(1, 0x1F800000), (2, 7)] []).map (fun t => t.mem.read 0x1F800000) = some 7 ∧
    ¬ Writable 0x1FC00000 := by decide

theorem witness_OnlyStoresChangeMemory :
    (∃ t, exec (.lw 2 0 1) State.reset = .next t) ∧ ¬ IsStore (.lw 2 0 1) :=
  ⟨⟨_, rfl⟩, fun ⟨_, _, _, h⟩ => by simp at h⟩

/-- A store of `addiu r1, r0, 5` through kseg1 to the next word of a program that runs in kuseg. -/
theorem witness_NextFetchSeesTheStore :
    let s := start 0x00000100 [(1, 0xA0000104), (2, 0x24010005)] [] 0
    s.mem.wf ∧ s.halt = .running ∧ translateVa (effAddr s 1 0) = translateVa (s.pc + 4) ∧ (s.pc + 4).toNat % 4 = 0 ∧
    Writable (translateVa (effAddr s 1 0)).toNat ∧ decodeWord (s.reg 2) = .ok (.addiu 1 0 5) := by decide

theorem witness_CanonicalMemoriesAreDeterminedByTheirBytes :
    Memory.wf [(4, 1), (9, 2)] ∧ Memory.wf (Memory.write [(9, 2)] 4 1) ∧ (4 : Nat) ≠ 9 ∧
    (∀ k, Memory.read [(4, 1), (9, 2)] k = Memory.read (Memory.write [(9, 2)] 4 1) k) :=
  ⟨by decide, by decide, by decide, fun _ => rfl⟩

theorem witness_OnlyTheDestinationRegisterChanges :
    ∃ t, exec (.addiu 1 0 5) State.reset = .next t ∧ t.reg 1 ≠ State.reset.reg 1 := ⟨_, rfl, by decide⟩

theorem witness_ExceptionReportsNameTheInstruction :
    (cycle 0x80001000 0x0000000C [] []).map (fun t => t.halt) = some (.excepted ⟨.systemCall, 0x80001000, none⟩) := by decide

theorem witness_ExceptionsArePrecise :
    State.reset.halt = .running ∧
    (∃ t, exec (.syscall 0) State.reset = .next t ∧ t.halt = .excepted ⟨.systemCall, 0xBFC00000, none⟩) ∧
    (∀ r rs, Instr.syscall 0 ≠ .jalr r rs) ∧
    (let s := start 0x80001000 [(1, 2)] [] 0
     s.halt = .running ∧ (∃ t, exec (.jalr 31 1) s = .next t ∧ t.halt = .excepted ⟨.addressError, 0x80001000, some 2⟩) ∧
       ∀ rs, Instr.jalr 31 1 ≠ .jalr 30 rs) :=
  ⟨rfl, ⟨_, rfl, rfl⟩, nofun, rfl, ⟨_, rfl, rfl⟩, by decide⟩

theorem witness_StepKeepsTheInvariant : Inv State.reset ∧ (next (step State.reset)).isSome = true :=
  ⟨⟨by decide, nofun, by decide, by decide, trivial⟩, by decide⟩

/-- Parameters of the greatest lengths, with the last byte of each. -/
theorem witness_ConstructionMeetsTheInvariant :
    let p : Config.Params := ⟨Vector.replicate 31 7, 1, 2, List.replicate 0x200000 3, List.replicate 0x400 4, List.replicate 0x80000 5⟩
    p.Fits ∧ p.ram[0x1FFFFF]? = some 3 ∧ p.scratch[0x3FF]? = some 4 ∧ p.bios[0x7FFFF]? = some 5 :=
  ⟨⟨List.length_replicate.le, List.length_replicate.le, List.length_replicate.le⟩,
    List.getElem?_replicate.trans (if_pos (by decide)), List.getElem?_replicate.trans (if_pos (by decide)),
    List.getElem?_replicate.trans (if_pos (by decide))⟩

/-- An image of exactly four bytes, an empty image, and the same after a reset event. -/
theorem witness_FirstCycleRunsTheWordAtBiosOffsetZero :
    let p : Config.Params := ⟨Vector.replicate 31 7, 1, 2, [], [], [0x05, 0x00, 0x01, 0x24]⟩
    let q : Config.Params := ⟨Vector.replicate 31 7, 1, 2, [], [], []⟩
    (p.Fits ∧ p.bios = 0x05 :: 0x00 :: 0x01 :: 0x24 :: [] ∧ decode [0x05, 0x00, 0x01, 0x24] = .ok (.addiu 1 0 5, [])) ∧
    (q.Fits ∧ q.bios = []) ∧
    (4 ≤ (construct p).biosLen ∧ (construct p).mem.read 0x1FC00000 = 0x05 ∧ (construct p).mem.read 0x1FC00003 = 0x24) ∧
    State.reset.biosLen = 0 := by decide

theorem witness_DecodeOfEncodeIsTheInstruction : (Instr.sra 31 31 31).wf = true ∧ (Instr.swc3 31 0xFFFF 31).wf = true := by decide

theorem witness_EncodeOfDecodeIsTheWord : decodeWord 0x00000000 = .ok (.sll 0 0 0) ∧ decodeWord 0x4FFFFFFF = .ok (.cop3 0x1FFFFFF) := by
  decide

theorem witness_DecodingAgreesWithTheOpcodeTable :
    (0x0048D14D : Word) &&& (tableRow (.break_ 0)).2 = (tableRow (.break_ 0)).1 ∧
    ¬ ((0x00200000 : Word) &&& (tableRow (.sll 0 0 0)).2 = (tableRow (.sll 0 0 0)).1) := by decide

theorem witness_DecodeConsumesFourBytes : decode [0x05, 0x00, 0x01, 0x24, 0xFF] = .ok (.addiu 1 0 5, [0xFF]) := by decide

end Sys2Proof.Tests
end

/-! Proofs: the general registers (spec 10_state.md R21), and who writes and who reads `hi` and `lo` (R25). -/

namespace Sys2Proof.Machine

/-- Settles O1, by the laws of the general registers. -/
theorem registerZeroReadsZeroOthersStore : Obligations.RegisterZeroReadsZeroOthersStore := fun s _ _ v =>
  ⟨reg_zero s, setReg_zero s v, reg_setReg_same s v, reg_setReg_of_ne s v⟩

/-! ### Other values of `hi` and `lo` before an operation

An operation that does not look at `hi` and `lo` commutes with setting them beforehand: one lemma per shared operation, and then
the instructions. -/

/-- An answer with `hi` and `lo` set in its next state. -/
def withHiLo (h l : Word) : Result → Result
  | .next t => .next (t.setHiLo h l)
  | .fault r => .fault r
  | .refused r => .refused r

@[simp] theorem withHiLo_next (h l : Word) (t : State) : withHiLo h l (.next t) = .next (t.setHiLo h l) := rfl

section
variable (h l : Word) (s : State)

theorem setReg_setHiLo (r : Reg) (v : Word) : (s.setHiLo h l).setReg r v = (s.setReg r v).setHiLo h l := by
  unfold State.setReg
  split <;> rfl

theorem writeResult_setHiLo (d : Reg) (v : Word) :
    writeResult d v (s.setHiLo h l) = withHiLo h l (writeResult d v s) :=
  congrArg Host.Outcome.next (setReg_setHiLo h l (advance s) d v)

theorem writeOrTrap_setHiLo (o : Bool) (d : Reg) (v : Word) :
    writeOrTrap o d v (s.setHiLo h l) = withHiLo h l (writeOrTrap o d v s) := by
  cases o with
  | false => exact writeResult_setHiLo h l s d v
  | true => rfl

theorem branchIf_setHiLo (taken : Bool) (offset : BitVec 16) :
    branchIf taken offset (s.setHiLo h l) = withHiLo h l (branchIf taken offset s) := by
  cases taken <;> rfl

theorem branchAndLink_setHiLo (taken : Bool) (offset : BitVec 16) :
    branchAndLink taken offset (s.setHiLo h l) = withHiLo h l (branchAndLink taken offset s) := by
  unfold branchAndLink
  rw [setReg_setHiLo, setHiLo_pc, branchIf_setHiLo]

theorem jumpRegister_setHiLo (t ia : Word) :
    jumpRegister t ia (s.setHiLo h l) = withHiLo h l (jumpRegister t ia s) := by
  unfold jumpRegister
  split <;> rfl

theorem checkAlign_setHiLo (ok : Bool) (ia ea : Word) {body body' : Result} (hb : body' = withHiLo h l body) :
    checkAlign ok ia ea (s.setHiLo h l) body' = withHiLo h l (checkAlign ok ia ea s body) := by
  cases ok with
  | false => rfl
  | true => exact hb

theorem finishLoad_setHiLo (rt : Reg) (value : Except Word Word) :
    finishLoad rt value (s.setHiLo h l) = withHiLo h l (finishLoad rt value s) := by
  cases value with
  | ok v => exact congrArg Host.Outcome.next (setReg_setHiLo h l s rt v)
  | error pa => rfl

theorem finishStore_setHiLo {stored stored' : Except Word State} (hs : stored' = stored.map (State.setHiLo · h l)) :
    finishStore stored' (s.setHiLo h l) = withHiLo h l (finishStore stored s) := by
  subst hs
  cases stored <;> rfl

theorem busWrite_setHiLo (pa : Word) (n : Nat) (m : Memory) :
    busWrite (s.setHiLo h l) pa n m = (busWrite s pa n m).map (State.setHiLo · h l) := by
  have hroute : (s.setHiLo h l).route pa n = s.route pa n := rfl
  unfold busWrite
  rw [hroute]
  cases s.route pa n <;> rfl

theorem memWriteBytes_setHiLo (ws : List (Word × Byte)) :
    memWriteBytes (s.setHiLo h l) ws = (memWriteBytes s ws).map (State.setHiLo · h l) := by
  induction ws generalizing s with
  | nil => rfl
  | cons w ws ih =>
    have hw : memWriteByte (s.setHiLo h l) w.1 w.2 = (memWriteByte s w.1 w.2).map (State.setHiLo · h l) :=
      busWrite_setHiLo h l s _ _ _
    simp only [memWriteBytes, hw]
    cases memWriteByte s w.1 w.2 with
    | ok u => exact ih u
    | error pa => rfl

end

/-! ### The instructions -/

/-- An instruction outside the eight of R25 carries other values of `hi` and `lo` through unchanged, and does nothing else with
them. -/
theorem exec_setHiLo {i : Instr} (h l : Word) (s : State) (hmd : ¬ IsMulDiv i)
    (hto : ∀ rs, i ≠ .mthi rs ∧ i ≠ .mtlo rs) (hfrom : ∀ rd, i ≠ .mfhi rd ∧ i ≠ .mflo rd) :
    exec i (s.setHiLo h l) = withHiLo h l (exec i s) := by
  cases i with
  | mult rs rt => exact absurd ⟨rs, rt, .inl rfl⟩ hmd
  | multu rs rt => exact absurd ⟨rs, rt, .inr (.inl rfl)⟩ hmd
  | div rs rt => exact absurd ⟨rs, rt, .inr (.inr (.inl rfl))⟩ hmd
  | divu rs rt => exact absurd ⟨rs, rt, .inr (.inr (.inr rfl))⟩ hmd
  | mthi rs => exact absurd rfl (hto rs).1
  | mtlo rs => exact absurd rfl (hto rs).2
  | mfhi rd => exact absurd rfl (hfrom rd).1
  | mflo rd => exact absurd rfl (hfrom rd).2
  | add | sub | addi => exact writeOrTrap_setHiLo h l s _ _ _
  | addu | subu | addiu | and | or | xor | nor | andi | ori | xori | lui | slt | sltu | slti | sltiu
  | sll | srl | sra | sllv | srlv | srav => exact writeResult_setHiLo h l s _ _
  | beq | bne | blez | bgtz | bltz | bgez => exact branchIf_setHiLo h l (advance s) _ _
  | bltzal | bgezal => exact branchAndLink_setHiLo h l (advance s) _ _
  | j => rfl
  | jal target =>
    have hlink := setReg_setHiLo h l (advance s) linkReg (s.pc + 8)
    exact congrArg (fun u : State => Host.Outcome.next (u.setPc (jumpTarget (s.pc + 4) target))) hlink
  | jr => exact jumpRegister_setHiLo h l (advance s) _ _
  | jalr rd rs =>
    have hlink := setReg_setHiLo h l (advance s) rd (s.pc + 8)
    exact (congrArg (jumpRegister (s.reg rs) s.pc) hlink).trans (jumpRegister_setHiLo h l _ _ _)
  | lb | lbu | lwl | lwr => exact finishLoad_setHiLo h l (advance s) _ _
  | lh | lhu | lw => exact checkAlign_setHiLo h l (advance s) _ _ _ (finishLoad_setHiLo h l (advance s) _ _)
  | sb => exact finishStore_setHiLo h l (advance s) (busWrite_setHiLo h l (advance s) _ _ _)
  | sh | sw =>
    exact checkAlign_setHiLo h l (advance s) _ _ _
      (finishStore_setHiLo h l (advance s) (busWrite_setHiLo h l (advance s) _ _ _))
  | swl | swr => exact finishStore_setHiLo h l (advance s) (memWriteBytes_setHiLo h l (advance s) _)
  | syscall | break_ | tlbr | tlbwi | tlbwr | tlbp | rfe => rfl
  | mfc0 | cfc0 | mtc0 | ctc0 | bc0f | bc0t | lwc0 | swc0 => rfl
  | mfc1 | cfc1 | mtc1 | ctc1 | bc1f | bc1t | cop1 | lwc1 | swc1 => rfl
  | mfc2 | cfc2 | mtc2 | ctc2 | bc2f | bc2t | cop2 | lwc2 | swc2 => rfl
  | mfc3 | cfc3 | mtc3 | ctc3 | bc3f | bc3t | cop3 | lwc3 | swc3 => rfl

/-- A multiply or divide overwrites `hi` and `lo`, whatever they were. -/
theorem exec_setHiLo_of_isMulDiv {i : Instr} (hmd : IsMulDiv i) (h l : Word) (s : State) :
    exec i (s.setHiLo h l) = exec i s := by
  obtain ⟨rs, rt, rfl | rfl | rfl | rfl⟩ := hmd <;> rfl

/-- `mthi` overwrites `hi` and carries `lo` through. -/
theorem exec_mthi_setHiLo (rs : Reg) (h l : Word) (s : State) :
    exec (.mthi rs) (s.setHiLo h l) = .next ((advance s).setHiLo (s.reg rs) l) := rfl

/-- `mtlo` overwrites `lo` and carries `hi` through. -/
theorem exec_mtlo_setHiLo (rs : Reg) (h l : Word) (s : State) :
    exec (.mtlo rs) (s.setHiLo h l) = .next ((advance s).setHiLo h (s.reg rs)) := rfl

section
variable {i : Instr} {s t : State}

/-- R25: who writes `hi`. -/
theorem writer_of_hi_ne (hx : exec i s = .next t) (hne : t.hi ≠ s.hi) : IsMulDiv i ∨ ∃ rs, i = .mthi rs := by
  cases exec_ends hx with
  | writes d v => exact absurd (setReg_hi s d v) hne
  | writesHiLo h l who =>
    obtain hmd | ⟨hto, -⟩ | ⟨-, hkept⟩ := who
    · exact .inl hmd
    · exact .inr hto
    · exact absurd hkept hne
  | moves => exact absurd rfl hne
  | stores => exact absurd rfl hne

/-- R25: who writes `lo`. -/
theorem writer_of_lo_ne (hx : exec i s = .next t) (hne : t.lo ≠ s.lo) : IsMulDiv i ∨ ∃ rs, i = .mtlo rs := by
  cases exec_ends hx with
  | writes d v => exact absurd (setReg_lo s d v) hne
  | writesHiLo h l who =>
    obtain hmd | ⟨-, hkept⟩ | ⟨hto, -⟩ := who
    · exact .inl hmd
    · exact absurd hkept hne
    · exact .inr hto
  | moves => exact absurd rfl hne
  | stores => exact absurd rfl hne

/-- R25: only `mfhi` and `mflo` read `hi` and `lo`. After any other instruction, other values of `hi` and `lo` before it show in
`hi` and `lo` alone, and there only in the one the instruction does not write. -/
theorem completes_setHiLo (hx : exec i s = .next t) (h l : Word) (hmfhi : ∀ rd, i ≠ .mfhi rd) (hmflo : ∀ rd, i ≠ .mflo rd) :
    ∃ h' l', exec i (s.setHiLo h l) = .next (t.setHiLo h' l') ∧
      ((IsMulDiv i ∨ ∃ rs, i = .mthi rs) → h' = t.hi) ∧ ((IsMulDiv i ∨ ∃ rs, i = .mtlo rs) → l' = t.lo) := by
  by_cases hmd : IsMulDiv i
  · exact ⟨t.hi, t.lo, (exec_setHiLo_of_isMulDiv hmd h l s).trans hx, fun _ => rfl, fun _ => rfl⟩
  by_cases hmthi : ∃ rs, i = .mthi rs
  · obtain ⟨rs, rfl⟩ := hmthi
    cases hx
    exact ⟨s.reg rs, l, exec_mthi_setHiLo rs h l s, fun _ => rfl, fun hw => by simp [hmd] at hw⟩
  by_cases hmtlo : ∃ rs, i = .mtlo rs
  · obtain ⟨rs, rfl⟩ := hmtlo
    cases hx
    exact ⟨h, s.reg rs, exec_mtlo_setHiLo rs h l s, fun hw => by simp [hmd] at hw, fun _ => rfl⟩
  · have hcarry := exec_setHiLo h l s hmd (fun rs => ⟨fun e => hmthi ⟨rs, e⟩, fun e => hmtlo ⟨rs, e⟩⟩)
      (fun rd => ⟨hmfhi rd, hmflo rd⟩)
    rw [hx, withHiLo_next] at hcarry
    exact ⟨h, l, hcarry, fun hw => absurd hw (not_or.2 ⟨hmd, hmthi⟩), fun hw => absurd hw (not_or.2 ⟨hmd, hmtlo⟩)⟩

end

theorem mfhi_reads_hi (t : State) (rd : Reg) : Completes (.mfhi rd) t (fun u => u.reg rd = if rd = 0 then 0 else t.hi) :=
  ⟨_, rfl, by simp [reg_setReg]⟩

theorem mflo_reads_lo (t : State) (rd : Reg) : Completes (.mflo rd) t (fun u => u.reg rd = if rd = 0 then 0 else t.lo) :=
  ⟨_, rfl, by simp [reg_setReg]⟩

/-- Settles O13: the writers by `exec_ends`, the readers by commuting every other instruction with `State.setHiLo`. -/
theorem onlyTheNamedInstructionsTouchHiAndLo : Obligations.OnlyTheNamedInstructionsTouchHiAndLo := by
  intro i s t hx
  refine ⟨writer_of_hi_ne hx, writer_of_lo_ne hx, fun h l hmfhi hmflo => ?_, mfhi_reads_hi t, mflo_reads_lo t⟩
  obtain ⟨h', l', hx', hhi, hlo⟩ := completes_setHiLo hx h l hmfhi hmflo
  exact ⟨t.setHiLo h' l', hx', setHiLo_reg t h' l', rfl, rfl, ⟨rfl, fun _ => rfl⟩, hhi, hlo⟩

end Sys2Proof.Machine

/-! Proofs: Bus reads of device bytes (spec 20_memory.md R46-R48). -/

namespace Sys2Proof.Machine

/-! ### Routing of accesses whose bytes all lie in one device, aligned or not -/

section
variable {s : State} {pa : Word} {n : Nat}

/-- An access that fits in RAM or in the scratchpad is read-write (R44, R45). -/
theorem route_of_fits (hn : 0 < n)
    (h : pa.toNat + n ≤ 0x200000 ∨ (0x1F800000 ≤ pa.toNat ∧ pa.toNat + n ≤ 0x1F800400)) :
    s.route pa n = .readWrite := by
  rw [route_eq]
  obtain hram | ⟨hlo, hhi⟩ := h
  · rw [if_pos (by omega), if_pos hram]
  · rw [if_neg (by omega), if_pos ⟨hlo, by omega⟩, if_pos hhi]

/-- An access that fits in the BIOS image is read-only (R44, R45). -/
theorem route_of_image (hbios : InBios pa.toNat) (h : pa.toNat + n ≤ 0x1FC00000 + s.biosLen) :
    s.route pa n = .readOnly := by
  have hoff : pa.toNat - 0x1FC00000 + n ≤ s.biosLen := by
    unfold InBios at hbios
    omega
  rw [route_bios hbios, if_pos hoff]

/-- A Bus read whose bytes all lie in RAM, in the scratchpad or in the image answers their value. -/
theorem busRead_of_device {w : Nat} (v : BitVec w) (hn : 0 < n)
    (h : pa.toNat + n ≤ 0x200000 ∨ (0x1F800000 ≤ pa.toNat ∧ pa.toNat + n ≤ 0x1F800400) ∨
      (InBios pa.toNat ∧ pa.toNat + n ≤ 0x1FC00000 + s.biosLen)) :
    busRead s pa n v = .ok v := by
  unfold busRead
  obtain hfits | ⟨hbios, himage⟩ := or_assoc.2 h
  · rw [route_of_fits hn hfits]
  · rw [route_of_image hbios himage]

end

/-- Settles O41: each width is one `busRead`, and `Memory.read16` and `Memory.read32` join their bytes as R47 and R48 do. -/
theorem deviceReadsAreLittleEndian : Obligations.DeviceReadsAreLittleEndian := fun s pa =>
  ⟨busRead_of_device (s.mem.read pa.toNat) (by decide), busRead_of_device (s.mem.read16 pa.toNat) (by decide),
    busRead_of_device (s.mem.read32 pa.toNat) (by decide)⟩

end Sys2Proof.Machine

/-! Proofs: register jumps, `jr` and `jalr` (spec 43_control.md R195-R197). -/

namespace Sys2Proof.Machine

/-- `jr` is a register jump from the advanced state. -/
theorem exec_jr (rs : Reg) (s : State) : exec (.jr rs) s = jumpRegister (s.reg rs) s.pc (advance s) := rfl

/-- `jalr` is a register jump after the link write, to the target that `rs` held before it (D17). -/
theorem exec_jalr (rd rs : Reg) (s : State) :
    exec (.jalr rd rs) s = jumpRegister (s.reg rs) s.pc ((advance s).setReg rd (s.pc + 8)) := rfl

/-- An instruction that ends in a register jump to `target`, from a state `u` that has the core's `halt`, redirects always and
reports a misaligned target (R195). -/
theorem completes_of_jumpRegister {i : Instr} {s u : State} {target : Word} (hexec : exec i s = jumpRegister target s.pc u)
    (hhalt : u.halt = s.halt) :
    Completes i s (fun t => t.pc = target ∧ (target.toNat % 4 = 0 → t.halt = s.halt) ∧
      (target.toNat % 4 ≠ 0 → t.halt = .excepted ⟨.addressError, s.pc, some target⟩)) :=
  ⟨_, hexec.trans (jumpRegister_cases target s.pc u), rfl, fun haligned => (if_pos haligned).trans hhalt,
    fun hmisaligned => if_neg hmisaligned⟩

/-- Settles O18: both instructions end in one register jump, and `jalr`'s link write leaves `halt` as it was. -/
theorem registerJumpsRedirectAndReportMisalignment : Obligations.RegisterJumpsRedirectAndReportMisalignment := by
  rintro s rd rs i (rfl | rfl)
  · exact completes_of_jumpRegister (exec_jr rs s) (advance_halt s)
  · exact completes_of_jumpRegister (exec_jalr rd rs s) (setReg_halt (advance s) rd (s.pc + 8))

end Sys2Proof.Machine

/-! Proofs: what a store leaves unchanged (spec 44_loadstore.md R213). -/

namespace Sys2Proof.Machine

/-! ### Addresses within the aligned word of a store -/

/-- Every address of one aligned word lies in RAM or the scratchpad, or none does (R44). -/
theorem writable_iff_of_same_word {a b : Nat} (h : a / 4 = b / 4) : Writable a ↔ Writable b := by
  unfold Writable
  omega

/-- The effective address lies `ea[1:0]` bytes into its aligned word. -/
theorem wordAddr_add_byteOffset (ea : Word) : wordAddr ea + BitVec.ofNat 32 (byteOffset ea) = ea := by
  apply BitVec.eq_of_toNat_eq
  rw [BitVec.toNat_add, BitVec.toNat_ofNat, wordAddr_toNat, byteOffset_eq]
  omega

theorem byteOffset_lt_four (ea : Word) : byteOffset ea < 4 := by
  rw [byteOffset_eq]
  omega

/-- Translation keeps the distance of the effective address from its aligned word. -/
theorem translateVa_eq_word_add (ea : Word) :
    (translateVa ea).toNat = (translateVa (wordAddr ea)).toNat + byteOffset ea := by
  have h := translateVa_add (wordAddr_aligned ea) (byteOffset_lt_four ea)
  rwa [wordAddr_add_byteOffset] at h

/-- The translated aligned word starts at a multiple of 4. -/
theorem translateVa_wordAddr_mod_four (ea : Word) : (translateVa (wordAddr ea)).toNat % 4 = 0 :=
  (translateVa_mod_four _).trans (wordAddr_aligned ea)

/-- The bytes that `swl` writes run from its aligned word up to the effective address (R224). -/
theorem swlWrites_range {ea v : Word} {c : Word × Byte} (h : c ∈ swlWrites ea v) :
    (translateVa (wordAddr ea)).toNat ≤ (translateVa c.1).toNat ∧ (translateVa c.1).toNat ≤ (translateVa ea).toNat := by
  obtain ⟨i, hi, rfl⟩ := List.mem_map.1 h
  have hk := byteOffset_lt_four ea
  have hi : i < byteOffset ea + 1 := List.mem_range.1 (List.mem_reverse.1 hi)
  have hword := translateVa_eq_word_add ea
  rw [translateVa_add (wordAddr_aligned ea) (by omega)]
  omega

/-- The bytes that `swr` writes run from the effective address up to the end of its aligned word (R225). -/
theorem swrWrites_range {ea v : Word} {c : Word × Byte} (h : c ∈ swrWrites ea v) :
    (translateVa ea).toNat ≤ (translateVa c.1).toNat ∧ (translateVa c.1).toNat < (translateVa (wordAddr ea)).toNat + 4 := by
  obtain ⟨i, hi, rfl⟩ := List.mem_map.1 h
  have hk := byteOffset_lt_four ea
  have hi : i < 3 - byteOffset ea + 1 := List.mem_range.1 hi
  have hea : ea + BitVec.ofNat 32 i = wordAddr ea + BitVec.ofNat 32 (byteOffset ea + i) := by
    rw [BitVec.ofNat_add, ← BitVec.add_assoc, wordAddr_add_byteOffset]
  have hword := translateVa_eq_word_add ea
  rw [hea, translateVa_add (wordAddr_aligned ea) (by omega)]
  omega

/-! ### The frame of a store -/

/-- `t` differs from `s` at most in `pc`, in `halt`, and in bytes of RAM and the scratchpad that satisfy `addressed`; and where
`aligned` fails not even in those. Where it holds, `t` reports no exception that `s` did not. -/
structure StoreFrame (s t : State) (aligned : Prop) (addressed : Nat → Prop) : Prop where
  regs : RegsKept s t
  hi : t.hi = s.hi
  lo : t.lo = s.lo
  bios : t.biosLen = s.biosLen
  changed : ∀ a, t.mem.read a ≠ s.mem.read a → aligned ∧ Writable a ∧ addressed a
  quiet : aligned → ∀ report, t.halt = .excepted report → s.halt = .excepted report

section
variable {s t : State} {aligned : Prop} {addressed : Nat → Prop}

theorem StoreFrame.of_moves {pc : Word} {hl : Halt} (h : Moves s t pc hl)
    (hquiet : aligned → ∀ report, hl = .excepted report → s.halt = .excepted report) : StoreFrame s t aligned addressed where
  regs := h.regs
  hi := h.hi
  lo := h.lo
  bios := h.memory.1
  changed a hne := absurd (h.memory.2 a) hne
  quiet halign report e := hquiet halign report (h.halt.symm.trans e)

/-- The access of a store: if it changes only addressed bytes of RAM and the scratchpad, so does the store (R52, R213). -/
theorem finishStore_frame {stored : Except Word State} (halign : aligned)
    (hok : ∀ u, stored = .ok u → ∃ m, u = { advance s with mem := m } ∧
      ∀ a, m.read a ≠ s.mem.read a → Writable a ∧ addressed a)
    (h : finishStore stored (advance s) = .next t) : StoreFrame s t aligned addressed := by
  obtain ⟨t', ht', hend⟩ := finishStore_cases stored s
  obtain rfl : t' = t := Host.Outcome.next.inj (ht'.symm.trans h)
  obtain hstored | ⟨pa, -, hmoves⟩ := hend
  · obtain ⟨m, rfl, hm⟩ := hok _ hstored
    exact ⟨fun _ => rfl, rfl, rfl, rfl, fun a hne => ⟨halign, hm a hne⟩, fun _ _ => id⟩
  · exact .of_moves hmoves (fun _ => nofun)

/-- The alignment check of `sh` and `sw`: the access runs with its frame, or AddressError is raised and no byte changes (R211). -/
theorem checkAlign_frame [Decidable aligned] {ok : Bool} {ea : Word} {body : Result} (hok : ok = decide aligned)
    (hbody : aligned → body = .next t → StoreFrame s t aligned addressed)
    (h : checkAlign ok s.pc ea (advance s) body = .next t) : StoreFrame s t aligned addressed := by
  subst hok
  obtain ⟨halign, e⟩ | ⟨halign, t', ht', hmoves⟩ := checkAlign_cases (decide aligned) s.pc ea s body
  · exact hbody (of_decide_eq_true halign) (e.symm.trans h)
  · obtain rfl : t' = t := Host.Outcome.next.inj (ht'.symm.trans h)
    exact .of_moves hmoves fun e => absurd e (of_decide_eq_false halign)

end

/-! ### The accesses of the five stores -/

section
variable {s u : State}

/-- One Bus write changes only its `n` bytes, and those only in RAM and the scratchpad (R49-R51). -/
theorem busWrite_changed {pa : Word} {n : Nat} {m : Memory}
    (hread : ∀ a, a < pa.toNat ∨ pa.toNat + n ≤ a → m.read a = s.mem.read a) (h : busWrite (advance s) pa n m = .ok u) :
    ∃ m', u = { advance s with mem := m' } ∧
      ∀ a, m'.read a ≠ s.mem.read a → Writable a ∧ pa.toNat ≤ a ∧ a < pa.toNat + n := by
  obtain rfl | ⟨rfl, hroute⟩ := busWrite_ok h
  · exact ⟨s.mem, rfl, fun a hne => absurd rfl hne⟩
  refine ⟨m, rfl, fun a hne => ?_⟩
  have hin : pa.toNat ≤ a ∧ a < pa.toNat + n := by
    by_contra hout
    exact hne (hread a (by omega))
  obtain ⟨k, rfl⟩ := Nat.exists_eq_add_of_le hin.1
  exact ⟨writable_of_route hroute (by omega), hin⟩

/-- Byte writes one at a time change only the bytes they name, and those only in RAM and the scratchpad. -/
theorem memWriteBytes_changed {ws : List (Word × Byte)} {addressed : Nat → Prop}
    (hws : ∀ c ∈ ws, addressed (translateVa c.1).toNat) (h : memWriteBytes (advance s) ws = .ok u) :
    ∃ m, u = { advance s with mem := m } ∧ ∀ a, m.read a ≠ s.mem.read a → Writable a ∧ addressed a := by
  obtain ⟨m, e, -, hread, -⟩ := memWriteBytes_ok h
  refine ⟨m, e, fun a hne => ?_⟩
  by_contra hout
  refine hne (hread a fun c hc hwritable heq => hout ?_)
  exact heq ▸ ⟨hwritable, hws c hc⟩

end

/-! ### The five stores -/

section
variable {s t : State} {rt rs : Reg} {offset : BitVec 16}

theorem sb_frame (h : exec (.sb rt offset rs) s = .next t) :
    StoreFrame s t True (· = (translateVa (effAddr s rs offset)).toNat) := by
  refine finishStore_frame trivial (fun u hu => ?_) h
  obtain ⟨m, e, hm⟩ := busWrite_changed (fun a hout => read_write_of_ne _ _ (by omega)) hu
  refine ⟨m, e, fun a hne => (hm a hne).imp_right ?_⟩
  rintro ⟨hlo, hhi⟩
  omega

theorem sh_frame (h : exec (.sh rt offset rs) s = .next t) :
    let ea := effAddr s rs offset
    let pa := (translateVa ea).toNat
    StoreFrame s t (ea.toNat % 2 = 0) (fun a => pa ≤ a ∧ a < pa + 2) :=
  checkAlign_frame (aligned2_eq _) (fun halign => finishStore_frame halign fun _ =>
    busWrite_changed fun _ => read_write16_of_outside _ _) h

theorem sw_frame (h : exec (.sw rt offset rs) s = .next t) :
    let ea := effAddr s rs offset
    let pa := (translateVa ea).toNat
    StoreFrame s t (ea.toNat % 4 = 0) (fun a => pa ≤ a ∧ a < pa + 4) :=
  checkAlign_frame (aligned4_eq _) (fun halign => finishStore_frame halign fun _ =>
    busWrite_changed fun _ => read_write32_of_outside _ _) h

theorem swl_frame (h : exec (.swl rt offset rs) s = .next t) :
    let ea := effAddr s rs offset
    StoreFrame s t True (fun a => (translateVa (wordAddr ea)).toNat ≤ a ∧ a ≤ (translateVa ea).toNat) :=
  finishStore_frame trivial (fun _ => memWriteBytes_changed fun _ => swlWrites_range) h

theorem swr_frame (h : exec (.swr rt offset rs) s = .next t) :
    let ea := effAddr s rs offset
    StoreFrame s t True (fun a => (translateVa ea).toNat ≤ a ∧ a < (translateVa (wordAddr ea)).toNat + 4) :=
  finishStore_frame trivial (fun _ => memWriteBytes_changed fun _ => swrWrites_range) h

end

/-- R213 from a store's frame, where the bytes it addresses lie in the aligned word of its address `pa`: they all lie in RAM and the
scratchpad with `pa`, or none does. `named` are the addressed bytes in the statement's own words, and `shOk`, `swOk` what rules out
the two alignment checks. -/
theorem StoreFrame.addressed_writable_only {s t : State} {aligned shOk swOk : Prop} {addressed named : Nat → Prop} {pa : Nat}
    (f : StoreFrame s t aligned addressed) (hword : aligned → ∀ a, addressed a → a / 4 = pa / 4)
    (hnamed : ∀ a, addressed a → named a) (haligned : shOk → swOk → aligned) :
    RegsKept s t ∧ t.hi = s.hi ∧ t.lo = s.lo ∧ (∀ a, t.mem.read a ≠ s.mem.read a → Writable a ∧ named a) ∧
      (¬ Writable pa → MemoryKept s t ∧
        (shOk → swOk → ∀ report, t.halt = .excepted report → s.halt = .excepted report)) := by
  have hkept (hpa : ¬ Writable pa) (a : Nat) : t.mem.read a = s.mem.read a := by
    by_contra hne
    obtain ⟨halign, hwritable, haddr⟩ := f.changed a hne
    exact hpa ((writable_iff_of_same_word (hword halign a haddr)).1 hwritable)
  exact ⟨f.regs, f.hi, f.lo, fun a hne => (f.changed a hne).2.imp_right (hnamed a),
    fun hpa => ⟨⟨f.bios, hkept hpa⟩, fun hsh hsw => f.quiet (haligned hsh hsw)⟩⟩

/-- Settles O30: each store has its `StoreFrame`, and the bytes it addresses lie in one aligned word. -/
theorem storesChangeOnlyAddressedWritableBytes : Obligations.StoresChangeOnlyAddressedWritableBytes := by
  intro s t rt rs offset i
  have hpa := translateVa_eq_word_add (effAddr s rs offset)
  have hk := byteOffset_lt_four (effAddr s rs offset)
  have hstart := translateVa_wordAddr_mod_four (effAddr s rs offset)
  have hmod2 := translateVa_mod_two (effAddr s rs offset)
  have hmod4 := translateVa_mod_four (effAddr s rs offset)
  dsimp only
  rintro (rfl | rfl | rfl | rfl | rfl) hx
  · exact (sb_frame hx).addressed_writable_only (fun _ _ e => congrArg (· / 4) e) (fun _ e => .inl ⟨rfl, e⟩)
      (fun _ _ => trivial)
  · exact (sh_frame hx).addressed_writable_only (fun _ _ _ => by omega) (fun _ e => .inr (.inl ⟨rfl, e⟩))
      (fun hsh _ => not_not.1 fun hodd => hsh ⟨rfl, hodd⟩)
  · exact (sw_frame hx).addressed_writable_only (fun _ _ _ => by omega) (fun _ e => .inr (.inr (.inl ⟨rfl, e⟩)))
      (fun _ hsw => not_not.1 fun hmis => hsw ⟨rfl, hmis⟩)
  · exact (swl_frame hx).addressed_writable_only (fun _ _ _ => by omega) (fun _ e => .inr (.inr (.inr (.inl ⟨rfl, e⟩))))
      (fun _ _ => trivial)
  · exact (swr_frame hx).addressed_writable_only (fun _ _ _ => by omega) (fun _ e => .inr (.inr (.inr (.inr ⟨rfl, e⟩))))
      (fun _ _ => trivial)

end Sys2Proof.Machine

/-! Proofs: the invariant, kept by every cycle and met by construction and reset (spec 10_state.md R28, R34-R36; 60_exceptions.md
R281-R283; 70_reset_and_hazards.md R310, R311). -/

namespace Sys2Proof.Machine

/-! ### What a cycle leaves in `pc` and `halt` -/

section
variable {i : Instr} {s t : State} {pc : Word} {hl : Halt}

theorem EndsWith.legalHalt (h : EndsWith s pc hl) (hlegal : LegalHalt s.halt) : LegalHalt hl := by
  cases h with
  | normal => exact hlegal
  | address va => exact ⟨.inl rfl, by simp⟩
  | exception k hk => exact ⟨.inr hk, by obtain rfl | rfl | rfl | rfl := hk <;> simp⟩
  | refused m => trivial
  | busFault pa hpa => exact hpa

theorem EndsWith.aligned (h : EndsWith s pc hl) (hpc : s.pc.toNat % 4 = 0) (hrun : hl = .running) : pc.toNat % 4 = 0 := by
  cases h with
  | normal hkeep => exact hkeep hpc
  | address va => exact nomatch hrun
  | exception k hk => exact nomatch hrun
  | refused m => exact nomatch hrun
  | busFault pa hpa => exact nomatch hrun

/-! ### What the invariant asks of a state that keeps the memory -/

/-- Where memory and image are those of a state of the invariant, `pc` and `halt` decide. -/
theorem Inv.of_same_memory (hs : Inv s) (hmem : t.mem = s.mem) (hbios : t.biosLen = s.biosLen)
    (haligned : t.halt = .running → t.pc.toNat % 4 = 0) (hlegal : LegalHalt t.halt) : Inv t where
  canonical := hmem ▸ hs.canonical
  mapped := by
    unfold Mapped
    rw [hmem, hbios]
    exact hs.mapped
  bios := hbios ▸ hs.bios
  aligned := haligned
  halt := hlegal

/-- A state of the invariant keeps it with any legal record of a stop. -/
theorem Inv.stopped (hs : Inv s) (hstop : hl ≠ .running) (hlegal : LegalHalt hl) : Inv { s with halt := hl } :=
  hs.of_same_memory rfl rfl (fun hrun => absurd hrun hstop) hlegal

theorem Ends.inv (h : Ends i s t) (hs : Inv s) (hrun : s.halt = .running) : Inv t := by
  have hpc := hs.aligned hrun
  cases h with
  | writes d v pc hl hd hh he =>
    exact hs.of_same_memory (setReg_mem s d v) (setReg_biosLen s d v) (he.aligned hpc) (he.legalHalt hs.halt)
  | writesHiLo h l who => exact hs.of_same_memory rfl rfl (fun _ => add_four_aligned hpc) hs.halt
  | moves pc hl he => exact hs.of_same_memory rfl rfl (he.aligned hpc) (he.legalHalt hs.halt)
  | stores m hstore hwf hread hmem =>
    have hmapped (c) (hc : c ∈ m) : Mapped s c.1 := (hmem c hc).elim (hs.mapped c) .inl
    exact ⟨hwf hs.canonical, hmapped, hs.bios, fun _ => add_four_aligned hpc, hs.halt⟩

end

/-- Settles O50: a cycle ends at the fetch with a legal record, or in one of the shapes of `exec_ends`. -/
theorem stepKeepsTheInvariant : Obligations.StepKeepsTheInvariant := by
  intro s t hs hstep
  obtain ⟨hrun, ⟨hpc, rfl⟩ | ⟨pa, hpc, hread, rfl⟩ | ⟨w, e, -, hdecode, rfl⟩ | ⟨w, i, -, -, -, hexec⟩⟩ := step_cases hstep
  · exact absurd (hs.aligned hrun) hpc
  · exact hs.stopped nofun (memReadWord_error hpc hread)
  · exact hs.stopped nofun ⟨e, hdecode⟩
  · exact (exec_ends hexec).inv hs hrun

/-! ### Construction -/

section
variable {p : Config.Params}

/-- The three devices, lowest first, in plain numbers (R44). -/
theorem construct_mem (p : Config.Params) : (construct p).mem =
    Memory.ofBytes 0 p.ram ++ Memory.ofBytes 0x1F800000 p.scratch ++ Memory.ofBytes 0x1FC00000 p.bios := rfl

/-- The bounds of the parameters, in plain numbers (R7). -/
theorem fits_iff : p.Fits ↔ p.ram.length ≤ 0x200000 ∧ p.scratch.length ≤ 0x400 ∧ p.bios.length ≤ 0x80000 := Iff.rfl

/-- Byte strings one wholly below the other have their cells so. -/
theorem ofBytes_lt {a b : Nat} {bs bs' : List Byte} (h : a + bs.length ≤ b) :
    ∀ c ∈ Memory.ofBytes a bs, ∀ d ∈ Memory.ofBytes b bs', c.1 < d.1 := fun c hc d hd => by
  have hc' := mem_ofBytes hc
  have hd' := mem_ofBytes hd
  omega

theorem construct_mem_wf (hp : p.Fits) : (construct p).mem.wf := by
  obtain ⟨hram, hscratch, -⟩ := fits_iff.1 hp
  rw [construct_mem]
  refine append_wf (append_wf (ofBytes_wf _ _) (ofBytes_wf _ _) (ofBytes_lt (by omega))) (ofBytes_wf _ _) fun c hc => ?_
  obtain hc | hc := List.mem_append.1 hc
  · exact ofBytes_lt (by omega) c hc
  · exact ofBytes_lt (by omega) c hc

theorem construct_mapped (hp : p.Fits) : ∀ c ∈ (construct p).mem, Mapped (construct p) c.1 := by
  obtain ⟨hram, hscratch, -⟩ := fits_iff.1 hp
  intro c hc
  rw [construct_mem, List.mem_append, List.mem_append] at hc
  unfold Mapped Writable
  obtain (hc | hc) | hc := hc
  · have := mem_ofBytes hc
    omega
  · have := mem_ofBytes hc
    omega
  · obtain ⟨hlo, hhi, -⟩ := mem_ofBytes hc
    exact .inr ⟨hlo, hhi⟩

theorem construct_inv (hp : p.Fits) : Inv (construct p) where
  canonical := construct_mem_wf hp
  mapped := construct_mapped hp
  bios := hp.2.2
  aligned _ := (by decide : Config.resetPc.toNat % 4 = 0)
  halt := trivial

theorem read_construct_ram (hp : p.Fits) {k : Nat} {b : Byte} (h : p.ram[k]? = some b) : (construct p).mem.read k = b := by
  obtain ⟨hram, -, -⟩ := fits_iff.1 hp
  obtain ⟨hk, -⟩ := List.getElem?_eq_some_iff.1 h
  have hread := read_ofBytes (a := 0) h
  rw [Nat.zero_add] at hread
  rw [construct_mem, read_append_left, read_append_left, hread] <;> intro c hc
  all_goals have := mem_ofBytes hc; omega

theorem read_construct_scratch (hp : p.Fits) {k : Nat} {b : Byte} (h : p.scratch[k]? = some b) :
    (construct p).mem.read (0x1F800000 + k) = b := by
  obtain ⟨hram, hscratch, -⟩ := fits_iff.1 hp
  obtain ⟨hk, -⟩ := List.getElem?_eq_some_iff.1 h
  rw [construct_mem, read_append_left, read_append_right, read_ofBytes h] <;> intro c hc
  all_goals have := mem_ofBytes hc; omega

theorem read_construct_bios (hp : p.Fits) {k : Nat} {b : Byte} (h : p.bios[k]? = some b) :
    (construct p).mem.read (0x1FC00000 + k) = b := by
  obtain ⟨hram, hscratch, -⟩ := fits_iff.1 hp
  rw [construct_mem, read_append_right, read_ofBytes h]
  intro c hc
  obtain hc | hc := List.mem_append.1 hc
  all_goals have := mem_ofBytes hc; omega

end

/-- The model's reset state is the construction with every open parameter 0 or empty (notes/assumptions 1, 2 and 3). -/
theorem reset_eq_construct : State.reset = construct ⟨Vector.replicate 31 0, 0, 0, [], [], []⟩ := rfl

/-- Settles O51: the cells of the three devices do not overlap, so each device's bytes read back. -/
theorem constructionMeetsTheInvariant : Obligations.ConstructionMeetsTheInvariant :=
  ⟨fun _ hp => ⟨construct_inv hp, rfl, rfl, rfl, rfl, rfl, rfl, fun _ _ => read_construct_ram hp,
    fun _ _ => read_construct_scratch hp, fun _ _ => read_construct_bios hp⟩, reset_eq_construct⟩

/-- Settles O52: `State.reset` is a construction whose parameters fit. -/
theorem resetMeetsTheInvariant : Obligations.ResetMeetsTheInvariant := by
  unfold Obligations.ResetMeetsTheInvariant
  rw [reset_eq_construct]
  exact construct_inv ⟨Nat.zero_le _, Nat.zero_le _, Nat.zero_le _⟩

/-- Settles O53: the reset event writes two fields of the state. -/
theorem resetEventSetsPcAndHaltOnly : Obligations.ResetEventSetsPcAndHaltOnly := fun s =>
  ⟨resetEvent_pc s, resetEvent_halt s, resetEvent_reg s, resetEvent_hi s, resetEvent_lo s, resetEvent_biosLen s, fun _ => rfl⟩

end Sys2Proof.Machine

/-! Proofs: encoding and decoding (spec 30_encoding.md). -/

namespace Sys2Proof

/-! ### The round trip from an instruction -/

section
open Laws

/-- Settles O55: each instruction has its round trip under Sys2Proof/Laws/PerInstr.lean. -/
theorem decodeOfEncodeIsTheInstruction : Obligations.DecodeOfEncodeIsTheInstruction := fun i =>
  match i with
  | .sll _ _ _ => RoundTrip.sll _ _ _ | .srl _ _ _ => RoundTrip.srl _ _ _ | .sra _ _ _ => RoundTrip.sra _ _ _
  | .sllv _ _ _ => RoundTrip.sllv _ _ _ | .srlv _ _ _ => RoundTrip.srlv _ _ _ | .srav _ _ _ => RoundTrip.srav _ _ _
  | .jr _ => RoundTrip.jr _ | .jalr _ _ => RoundTrip.jalr _ _ | .syscall _ => RoundTrip.syscall _
  | .break_ _ => RoundTrip.break_ _ | .mfhi _ => RoundTrip.mfhi _ | .mthi _ => RoundTrip.mthi _ | .mflo _ => RoundTrip.mflo _
  | .mtlo _ => RoundTrip.mtlo _ | .mult _ _ => RoundTrip.mult _ _ | .multu _ _ => RoundTrip.multu _ _
  | .div _ _ => RoundTrip.div _ _ | .divu _ _ => RoundTrip.divu _ _ | .add _ _ _ => RoundTrip.add _ _ _
  | .addu _ _ _ => RoundTrip.addu _ _ _ | .sub _ _ _ => RoundTrip.sub _ _ _ | .subu _ _ _ => RoundTrip.subu _ _ _
  | .and _ _ _ => RoundTrip.and _ _ _ | .or _ _ _ => RoundTrip.or _ _ _ | .xor _ _ _ => RoundTrip.xor _ _ _
  | .nor _ _ _ => RoundTrip.nor _ _ _ | .slt _ _ _ => RoundTrip.slt _ _ _ | .sltu _ _ _ => RoundTrip.sltu _ _ _
  | .bltz _ _ => RoundTrip.bltz _ _ | .bgez _ _ => RoundTrip.bgez _ _ | .bltzal _ _ => RoundTrip.bltzal _ _
  | .bgezal _ _ => RoundTrip.bgezal _ _ | .j _ => RoundTrip.j _ | .jal _ => RoundTrip.jal _
  | .beq _ _ _ => RoundTrip.beq _ _ _ | .bne _ _ _ => RoundTrip.bne _ _ _ | .blez _ _ => RoundTrip.blez _ _
  | .bgtz _ _ => RoundTrip.bgtz _ _ | .addi _ _ _ => RoundTrip.addi _ _ _ | .addiu _ _ _ => RoundTrip.addiu _ _ _
  | .slti _ _ _ => RoundTrip.slti _ _ _ | .sltiu _ _ _ => RoundTrip.sltiu _ _ _ | .andi _ _ _ => RoundTrip.andi _ _ _
  | .ori _ _ _ => RoundTrip.ori _ _ _ | .xori _ _ _ => RoundTrip.xori _ _ _ | .lui _ _ => RoundTrip.lui _ _
  | .lb _ _ _ => RoundTrip.lb _ _ _ | .lh _ _ _ => RoundTrip.lh _ _ _ | .lwl _ _ _ => RoundTrip.lwl _ _ _
  | .lw _ _ _ => RoundTrip.lw _ _ _ | .lbu _ _ _ => RoundTrip.lbu _ _ _ | .lhu _ _ _ => RoundTrip.lhu _ _ _
  | .lwr _ _ _ => RoundTrip.lwr _ _ _ | .sb _ _ _ => RoundTrip.sb _ _ _ | .sh _ _ _ => RoundTrip.sh _ _ _
  | .swl _ _ _ => RoundTrip.swl _ _ _ | .sw _ _ _ => RoundTrip.sw _ _ _ | .swr _ _ _ => RoundTrip.swr _ _ _
  | .tlbr => RoundTrip.tlbr | .tlbwi => RoundTrip.tlbwi | .tlbwr => RoundTrip.tlbwr | .tlbp => RoundTrip.tlbp
  | .rfe => RoundTrip.rfe | .mfc0 _ _ => RoundTrip.mfc0 _ _ | .cfc0 _ _ => RoundTrip.cfc0 _ _
  | .mtc0 _ _ => RoundTrip.mtc0 _ _ | .ctc0 _ _ => RoundTrip.ctc0 _ _ | .bc0f _ => RoundTrip.bc0f _
  | .bc0t _ => RoundTrip.bc0t _ | .lwc0 _ _ _ => RoundTrip.lwc0 _ _ _ | .swc0 _ _ _ => RoundTrip.swc0 _ _ _
  | .mfc1 _ _ => RoundTrip.mfc1 _ _ | .cfc1 _ _ => RoundTrip.cfc1 _ _ | .mtc1 _ _ => RoundTrip.mtc1 _ _
  | .ctc1 _ _ => RoundTrip.ctc1 _ _ | .bc1f _ => RoundTrip.bc1f _ | .bc1t _ => RoundTrip.bc1t _ | .cop1 _ => RoundTrip.cop1 _
  | .lwc1 _ _ _ => RoundTrip.lwc1 _ _ _ | .swc1 _ _ _ => RoundTrip.swc1 _ _ _ | .mfc2 _ _ => RoundTrip.mfc2 _ _
  | .cfc2 _ _ => RoundTrip.cfc2 _ _ | .mtc2 _ _ => RoundTrip.mtc2 _ _ | .ctc2 _ _ => RoundTrip.ctc2 _ _
  | .bc2f _ => RoundTrip.bc2f _ | .bc2t _ => RoundTrip.bc2t _ | .cop2 _ => RoundTrip.cop2 _
  | .lwc2 _ _ _ => RoundTrip.lwc2 _ _ _ | .swc2 _ _ _ => RoundTrip.swc2 _ _ _ | .mfc3 _ _ => RoundTrip.mfc3 _ _
  | .cfc3 _ _ => RoundTrip.cfc3 _ _ | .mtc3 _ _ => RoundTrip.mtc3 _ _ | .ctc3 _ _ => RoundTrip.ctc3 _ _
  | .bc3f _ => RoundTrip.bc3f _ | .bc3t _ => RoundTrip.bc3t _ | .cop3 _ => RoundTrip.cop3 _
  | .lwc3 _ _ _ => RoundTrip.lwc3 _ _ _ | .swc3 _ _ _ => RoundTrip.swc3 _ _ _
end

/-- A string of at least four bytes decodes as its first four make a word, and leaves the others. -/
theorem decode_cons4 {b0 b1 b2 b3 : Byte} {bytes rest : List Byte} {i : Instr} :
    decode (b0 :: b1 :: b2 :: b3 :: bytes) = .ok (i, rest) ↔
      decodeWord (wordOfBytes b0 b1 b2 b3) = .ok i ∧ bytes = rest := by
  cases hd : decodeWord (wordOfBytes b0 b1 b2 b3) <;> simp [decode, hd]

/-- Settles O58: a decoded string has four bytes before the rest, and they are those of the word they make. -/
theorem decodeConsumesFourBytes : Obligations.DecodeConsumesFourBytes := by
  intro bytes rest i h
  match bytes with
  | b0 :: b1 :: b2 :: b3 :: _ =>
    obtain ⟨hword, rfl⟩ := decode_cons4.1 h
    exact ⟨wordOfBytes b0 b1 b2 b3, by rw [bytesOfWord_wordOfBytes]; rfl, hword⟩
  | [] | [_] | [_, _] | [_, _, _] => cases h

/-- Settles O59, word by word. -/
theorem sampleWordsDecode : Obligations.SampleWordsDecode := by
  unfold Obligations.SampleWordsDecode
  decide

/-! ### The round trip from a word -/

/-- A word is its fields in the R format (R71, R72). -/
theorem rType_of_fields {w : Word} (hop : opF w = 0x00#6) :
    rType (rsF w) (rtF w) (rdF w) (shamtF w) (functF w) = w := by
  rw [rType, ← hop]
  ext i h
  simp [opF, rsF, rtF, rdF, shamtF, functF]
  grind

theorem codeType_of_fields {w : Word} (hop : opF w = 0x00#6) : codeType (codeF w) (functF w) = w := by
  rw [codeType, ← hop]
  ext i h
  simp [opF, codeF, functF]
  grind

theorem iType_of_fields {w : Word} {op : BitVec 6} (hop : opF w = op) : iType op (rsF w) (rtF w) (immF w) = w := by
  subst hop
  ext i h
  simp [iType, opF, rsF, rtF, immF]
  grind

theorem jType_of_fields {w : Word} {op : BitVec 6} (hop : opF w = op) : jType op (targetF w) = w := by
  subst hop
  ext i h
  simp [jType, opF, targetF]
  grind

theorem copMoveType_of_fields {w : Word} (hlow : copLowF w = 0#11) :
    copMoveType (opF w) (rsF w) (rtF w) (rdF w) = w := by
  rw [copMoveType, ← hlow]
  ext i h
  simp [opF, rsF, rtF, rdF, copLowF]
  grind

theorem copOpType_of_fields {w : Word} (hco : coF w = 1#1) : copOpType (opF w) (cofunF w) = w := by
  rw [copOpType, ← hco]
  ext i h
  simp [opF, coF, cofunF]
  grind

theorem cop0OpType_of_fields {w : Word} (hop : opF w = 0x10#6) (hco : coF w = 1#1) (hhigh : copHighF w = 0#19) :
    cop0OpType (functF w) = w := by
  rw [cop0OpType, ← hop, ← hco, ← hhigh]
  ext i h
  simp [opF, coF, copHighF, functF]
  grind

/-- A strict row answers its instruction, and only where its required-zero fields are zero. -/
theorem ifZero_eq_ok {zero : Bool} {i j : Instr} : ifZero zero i = .ok j ↔ zero = true ∧ i = j := by
  cases zero <;> simp [ifZero]

/-- `f` makes the instructions of one coprocessor move (R75). -/
def IsCopMove (op : BitVec 6) (sub : BitVec 5) (f : Reg → Reg → Instr) : Prop :=
  ∀ rt rd, (f rt rd).wf = true ∧ encode (f rt rd) = copMoveType op sub rt rd

/-- `f` makes the instructions of one coprocessor branch (R73, R81). -/
def IsCopBranch (op : BitVec 6) (sub : BitVec 5) (f : BitVec 16 → Instr) : Prop :=
  ∀ offset, (f offset).wf = true ∧ encode (f offset) = iType op 0x08 sub offset

section
variable {w : Word} {i : Instr}

theorem encode_of_decodeSpecial (hop : opF w = 0x00#6) (h : decodeSpecial w = .ok i) : i.wf = true ∧ encode i = w := by
  have hr := rType_of_fields hop
  unfold decodeSpecial at h
  split at h <;> simp only [ifZero_eq_ok, Except.ok.injEq, reduceCtorEq, Bool.and_eq_true, beq_iff_eq] at h
  case h_1 | h_2 | h_3 => -- `sll`, `srl`, `sra`: the shift amount is a 5-bit field
    obtain ⟨hzero, rfl⟩ := h
    exact ⟨decide_eq_true (shamtF w).isLt, by simpa [encode, *] using hr⟩
  case h_9 | h_10 => -- `syscall`, `break`
    subst h
    exact ⟨rfl, by simpa [encode, *] using codeType_of_fields hop⟩
  all_goals
    obtain ⟨hzero, rfl⟩ := h
    exact ⟨rfl, by simpa [encode, *] using hr⟩

theorem encode_of_decodeRegimm (hop : opF w = 0x01#6) (h : decodeRegimm w = .ok i) : i.wf = true ∧ encode i = w := by
  have hi := iType_of_fields hop
  unfold decodeRegimm at h
  split at h <;> cases h
  all_goals exact ⟨rfl, by simpa [encode, *] using hi⟩

theorem encode_of_decodeCopMove {op : BitVec 6} {mf cf mt ct : Reg → Reg → Instr} {bf bt : BitVec 16 → Instr} (hop : opF w = op)
    (hmf : IsCopMove op 0x00 mf) (hcf : IsCopMove op 0x02 cf) (hmt : IsCopMove op 0x04 mt) (hct : IsCopMove op 0x06 ct)
    (hbf : IsCopBranch op 0x00 bf) (hbt : IsCopBranch op 0x01 bt) (h : decodeCopMove mf cf mt ct bf bt w = .ok i) :
    i.wf = true ∧ encode i = w := by
  subst hop
  unfold decodeCopMove at h
  split at h
  case h_5 hrs =>
    have hw := iType_of_fields (w := w) rfl
    split at h <;> cases h
    · exact ⟨(hbf _).1, (hbf _).2.trans (by simpa [*] using hw)⟩
    · exact ⟨(hbt _).1, (hbt _).2.trans (by simpa [*] using hw)⟩
  case h_6 => cases h
  all_goals
    obtain ⟨hlow, rfl⟩ := ifZero_eq_ok.1 h
    have hw := copMoveType_of_fields (beq_iff_eq.1 hlow)
  · exact ⟨(hmf _ _).1, (hmf _ _).2.trans (by simpa [*] using hw)⟩
  · exact ⟨(hcf _ _).1, (hcf _ _).2.trans (by simpa [*] using hw)⟩
  · exact ⟨(hmt _ _).1, (hmt _ _).2.trans (by simpa [*] using hw)⟩
  · exact ⟨(hct _ _).1, (hct _ _).2.trans (by simpa [*] using hw)⟩

theorem encode_of_decodeCop0Op (hop : opF w = 0x10#6) (hco : coF w = 1#1) (h : decodeCop0Op w = .ok i) :
    i.wf = true ∧ encode i = w := by
  have hw := cop0OpType_of_fields hop hco
  unfold decodeCop0Op at h
  split at h <;> simp only [ifZero_eq_ok, reduceCtorEq, beq_iff_eq] at h
  all_goals
    obtain ⟨hzero, rfl⟩ := h
    exact ⟨rfl, by simpa [encode, *] using hw hzero⟩

theorem encode_of_decodeCop0 (hop : opF w = 0x10#6) (h : decodeCop0 w = .ok i) : i.wf = true ∧ encode i = w := by
  unfold decodeCop0 at h
  split at h
  · next hco => exact encode_of_decodeCop0Op hop (beq_iff_eq.1 hco) h
  · exact encode_of_decodeCopMove hop (fun _ _ => ⟨rfl, rfl⟩) (fun _ _ => ⟨rfl, rfl⟩) (fun _ _ => ⟨rfl, rfl⟩)
      (fun _ _ => ⟨rfl, rfl⟩) (fun _ => ⟨rfl, rfl⟩) (fun _ => ⟨rfl, rfl⟩) h

/-- Coprocessors 1 to 3: an operation keeps its `cofun`, and the other words are moves and branches (R81). -/
theorem encode_of_decodeCop {op : BitVec 6} {cop : BitVec 25 → Instr} {mf cf mt ct : Reg → Reg → Instr} {bf bt : BitVec 16 → Instr}
    (hop : opF w = op) (hcop : ∀ cofun, (cop cofun).wf = true ∧ encode (cop cofun) = copOpType op cofun)
    (hmf : IsCopMove op 0x00 mf) (hcf : IsCopMove op 0x02 cf) (hmt : IsCopMove op 0x04 mt) (hct : IsCopMove op 0x06 ct)
    (hbf : IsCopBranch op 0x00 bf) (hbt : IsCopBranch op 0x01 bt)
    (h : (if coF w == 1 then .ok (cop (cofunF w)) else decodeCopMove mf cf mt ct bf bt w) = .ok i) :
    i.wf = true ∧ encode i = w := by
  split at h
  · next hco =>
    cases h
    exact ⟨(hcop _).1, (hcop _).2.trans (hop ▸ copOpType_of_fields (beq_iff_eq.1 hco))⟩
  · exact encode_of_decodeCopMove hop hmf hcf hmt hct hbf hbt h

end

/-- Settles O56: the word is put together again from its fields, one map of R77 to R81 at a time. -/
theorem encodeOfDecodeIsTheWord : Obligations.EncodeOfDecodeIsTheWord := by
  intro w i h
  unfold decodeWord at h
  split at h
  case h_1 hop => exact encode_of_decodeSpecial hop h
  case h_2 hop => exact encode_of_decodeRegimm hop h
  case h_7 hop | h_8 hop | h_16 hop =>
    obtain ⟨hzero, rfl⟩ := ifZero_eq_ok.1 h
    exact ⟨rfl, by simpa [encode, beq_iff_eq.1 hzero] using iType_of_fields hop⟩
  case h_17 hop => exact encode_of_decodeCop0 hop h
  case h_18 hop | h_19 hop | h_20 hop =>
    exact encode_of_decodeCop hop (fun _ => ⟨rfl, rfl⟩) (fun _ _ => ⟨rfl, rfl⟩) (fun _ _ => ⟨rfl, rfl⟩) (fun _ _ => ⟨rfl, rfl⟩)
      (fun _ _ => ⟨rfl, rfl⟩) (fun _ => ⟨rfl, rfl⟩) (fun _ => ⟨rfl, rfl⟩) h
  all_goals cases h
  case h_3 hop | h_4 hop => exact ⟨rfl, jType_of_fields hop⟩
  all_goals
    rename_i hop
    exact ⟨rfl, iType_of_fields hop⟩

/-! ### The match and mask of the opcode table -/

/-- Words with the same six fields are equal. -/
theorem eq_iff_fields (w v : Word) : w = v ↔
    opF w = opF v ∧ rsF w = rsF v ∧ rtF w = rtF v ∧ rdF w = rdF v ∧ shamtF w = shamtF v ∧ functF w = functF v := by
  refine ⟨fun e => e ▸ ⟨rfl, rfl, rfl, rfl, rfl, rfl⟩, fun ⟨h1, h2, h3, h4, h5, h6⟩ => ?_⟩
  have split (u : Word) : u = opF u ++ rsF u ++ rtF u ++ rdF u ++ shamtF u ++ functF u := by
    ext i h
    simp [opF, rsF, rtF, rdF, shamtF, functF]
    grind
  rw [split w, split v, h1, h2, h3, h4, h5, h6]

/-- A word meets a match and mask when each of its fields does. The constants' fields are written out, so that `simp` computes them. -/
theorem and_eq_iff_fields (w m v : Word) : w &&& m = v ↔
    opF w &&& m.extractLsb' 26 6 = v.extractLsb' 26 6 ∧ rsF w &&& m.extractLsb' 21 5 = v.extractLsb' 21 5 ∧
    rtF w &&& m.extractLsb' 16 5 = v.extractLsb' 16 5 ∧ rdF w &&& m.extractLsb' 11 5 = v.extractLsb' 11 5 ∧
    shamtF w &&& m.extractLsb' 6 5 = v.extractLsb' 6 5 ∧ functF w &&& m.extractLsb' 0 6 = v.extractLsb' 0 6 := by
  rw [eq_iff_fields]
  simp [opF, rsF, rtF, rdF, shamtF, functF, BitVec.extractLsb'_and]

theorem and_ones5 (x : BitVec 5) : x &&& 31#5 = x := BitVec.and_allOnes
theorem and_ones6 (x : BitVec 6) : x &&& 63#6 = x := BitVec.and_allOnes

/-- `co` is the top bit of `rs`, by its mask. -/
theorem coF_beq_one (w : Word) : (coF w == 1) = (rsF w &&& 16#5 == 16#5) := by
  rw [coF_eq]
  generalize rsF w = rs
  revert rs
  decide

theorem copLowF_eq (w : Word) : copLowF w = shamtF w ++ functF w := by
  ext i h
  simp [copLowF, shamtF, functF]
  grind

theorem copHighF_eq (w : Word) : copHighF w = (rsF w).extractLsb' 0 4 ++ rtF w ++ rdF w ++ shamtF w := by
  ext i h
  simp [copHighF, rsF, rtF, rdF, shamtF]
  grind

/-- The fields of a COP0 operation that its row of the table fixes. -/
theorem fields_cop0OpType (fn : BitVec 6) : rsF (cop0OpType fn) = 16#5 ∧ rtF (cop0OpType fn) = 0#5 ∧
    rdF (cop0OpType fn) = 0#5 ∧ shamtF (cop0OpType fn) = 0#5 := by
  revert fn
  decide

/-- The fields of a coprocessor move that its row of the table asks to be zero. -/
theorem fields_copMoveType (op : BitVec 6) (sub rt rd : BitVec 5) :
    shamtF (copMoveType op sub rt rd) = 0#5 ∧ functF (copMoveType op sub rt rd) = 0#6 := by
  constructor
  · ext i h
    simp [shamtF, copMoveType]
    grind
  · ext i h
    simp [functF, copMoveType]
    grind

theorem rsF_and_copOpType (op : BitVec 6) (cofun : BitVec 25) : rsF (copOpType op cofun) &&& 16#5 = 16#5 := by
  rw [← beq_iff_eq, ← coF_beq_one, coF_copOpType]
  rfl

/-- A word that meets a row's match and mask has the fields that the maps of R77 to R81 ask for, so it decodes to that row. (The row's
constants are put in first, so that the kernel compares numbers and not rows.) -/
theorem decodes_of_matches {w : Word} {i : Instr} (h : w &&& (tableRow i).2 = (tableRow i).1) :
    ∃ j, decodeWord w = .ok j ∧ tableRow j = tableRow i := by
  cases i
  all_goals
    simp only [tableRow] at h
    rw [and_eq_iff_fields] at h
    simp only [BitVec.reduceExtractLsb', BitVec.and_zero, and_ones5, and_ones6, true_and, and_true] at h
    simp only [decodeWord, decodeSpecial, decodeRegimm, decodeCop0, decodeCop0Op, decodeCop1, decodeCop2, decodeCop3, decodeCopMove,
      coF_beq_one, copLowF_eq, copHighF_eq, ifZero, h]
    exact ⟨_, rfl, by simp only [tableRow]⟩

/-- The encoding of an instruction meets the match and mask of its row. -/
theorem encode_matches (i : Instr) : encode i &&& (tableRow i).2 = (tableRow i).1 := by
  cases i
  all_goals
    simp only [tableRow]
    rw [and_eq_iff_fields]
    simp [encode, and_ones5, and_ones6, fields_cop0OpType, fields_copMoveType, rsF_and_copOpType]

/-- Settles O57: a matching word decodes by its fields, and a decoded word is the encoding of its instruction (O56). -/
theorem decodingAgreesWithTheOpcodeTable : Obligations.DecodingAgreesWithTheOpcodeTable := by
  refine fun w i => ⟨decodes_of_matches, ?_⟩
  rintro ⟨j, hdecode, hrow⟩
  obtain ⟨-, rfl⟩ := encodeOfDecodeIsTheWord w j hdecode
  rw [← hrow]
  exact encode_matches j

end Sys2Proof

/-! Proofs: what an instruction leaves, by the shape of its answer. The families of instructions share these ends. -/

namespace Sys2Proof.Machine

section
variable {i : Instr} {s : State} {d : Reg} {v pc : Word} {hl : Halt}

/-- A state that differs in `pc` and `halt` alone. -/
theorem moves_pc_halt (s : State) (pc : Word) (hl : Halt) : Moves s { s with pc := pc, halt := hl } pc hl :=
  ⟨rfl, rfl, fun _ => rfl, rfl, rfl, rfl, fun _ => rfl⟩

/-- An instruction whose answer differs in `pc` and `halt` alone. -/
theorem completes_moves (hexec : exec i s = .next { s with pc := pc, halt := hl }) : Completes i s (fun t => Moves s t pc hl) :=
  ⟨_, hexec, moves_pc_halt s pc hl⟩

/-- A write of `x[d]`, then of `pc`: nothing else changes. -/
theorem writes_setReg_setPc (s : State) (d : Reg) (v pc : Word) : Writes s (((advance s).setReg d v).setPc pc) d v pc s.halt where
  value := by simp [reg_setReg]
  others r hr := reg_setReg_of_ne _ _ hr
  hi := setReg_hi _ _ _
  lo := setReg_lo _ _ _
  pc := rfl
  halt := setReg_halt _ _ _
  memory := ⟨setReg_biosLen _ _ _, fun a => congrArg (Memory.read · a) (setReg_mem _ _ _)⟩

/-- A write of register 0 moves `pc` and leaves everything else (R21, R82). -/
theorem Writes.moves_of_zero {t : State} (h : Writes s t 0 v pc hl) : Moves s t pc hl where
  pc := h.pc
  halt := h.halt
  regs r := by
    by_cases hr : r = 0
    · subst hr
      exact (reg_zero t).trans (reg_zero s).symm
    · exact h.others r hr
  hi := h.hi
  lo := h.lo
  memory := h.memory

/-- An instruction that ends in `writeResult` completes with its value written (R120). -/
theorem completes_of_writeResult (hexec : exec i s = writeResult d v s) :
    Completes i s (fun t => Writes s t d v (s.pc + 4) s.halt) := by
  obtain ⟨t, ht, hw⟩ := writeResult_writes d v s
  exact ⟨t, hexec.trans ht, hw⟩

/-- The same, for a value that a statement describes and does not name. -/
theorem completes_with_value {P : Word → Prop} (hexec : exec i s = writeResult d v s) (hP : P v) :
    Completes i s (fun t => ∃ v, P v ∧ Writes s t d v (s.pc + 4) s.halt) := by
  obtain ⟨t, ht, hw⟩ := completes_of_writeResult hexec
  exact ⟨t, ht, v, hP, hw⟩

end

end Sys2Proof.Machine

/-! Proofs: the ALU instructions (spec 41_alu.md). -/

namespace Sys2Proof.Machine

/-! ### Immediates and the signed range -/

theorem sextImm_eq_ofInt (imm : BitVec 16) : sextImm imm = BitVec.ofInt 32 imm.toInt := rfl

@[simp] theorem sextImm_toInt (imm : BitVec 16) : (sextImm imm).toInt = imm.toInt := BitVec.toInt_signExtend_of_le (by decide)

theorem fitsS32_iff (n : Int) : fitsS32 n = true ↔ -2 ^ 31 ≤ n ∧ n ≤ 2 ^ 31 - 1 := by
  simp [fitsS32]

section
variable {i : Instr} {s : State} {d : Reg} {v : Word}

/-- A word that agrees with an integer modulo 2^32 has its signed value if that fits. -/
theorem toInt_eq_of_fits {n : Int} (hv : v.toInt = n.bmod (2 ^ 32)) (hn : -2 ^ 31 ≤ n ∧ n ≤ 2 ^ 31 - 1) : v.toInt = n := by
  rw [hv]
  exact Int.bmod_eq_of_le (by omega) (by omega)

/-- The trapping instructions where the exact result fits (R121-R123). -/
theorem completes_exact {o : Bool} {n : Int} (hexec : exec i s = writeOrTrap o d v s) (ho : o = !fitsS32 n)
    (hv : v.toInt = n.bmod (2 ^ 32)) (hn : -2 ^ 31 ≤ n ∧ n ≤ 2 ^ 31 - 1) :
    Completes i s (fun t => ∃ v : Word, v.toInt = n ∧ Writes s t d v (s.pc + 4) s.halt) := by
  rw [(fitsS32_iff n).2 hn] at ho
  subst ho
  exact completes_with_value hexec (toInt_eq_of_fits hv hn)

/-- The trapping instructions where the exact result does not fit. -/
theorem completes_overflow {o : Bool} {n : Int} (hexec : exec i s = writeOrTrap o d v s) (ho : o = !fitsS32 n)
    (hn : ¬ (-2 ^ 31 ≤ n ∧ n ≤ 2 ^ 31 - 1)) :
    Completes i s (fun t => Moves s t (s.pc + 4) (.excepted ⟨.overflow, s.pc, none⟩)) := by
  obtain ⟨t, ht, hend⟩ := writeOrTrap_cases o d v s
  obtain ⟨hno, -⟩ | ⟨-, hmoves⟩ := hend
  · have hfits : fitsS32 n = true := by simpa using ho.symm.trans hno
    exact absurd ((fitsS32_iff n).1 hfits) hn
  · exact ⟨t, hexec.trans ht, hmoves⟩

end

/-- Settles O2: the operands' integers, modulo 2^32, add and subtract as the words do. -/
theorem wrappingArithmeticWritesItsResult : Obligations.WrappingArithmeticWritesItsResult := by
  intro s d rs rt imm
  refine ⟨?_, ?_, ?_⟩
  · rw [BitVec.ofNat_add, BitVec.ofNat_toNat, BitVec.ofNat_toNat, BitVec.setWidth_eq, BitVec.setWidth_eq]
    exact completes_of_writeResult rfl
  · rw [BitVec.ofInt_add, BitVec.ofInt_toInt, ← sextImm_eq_ofInt]
    exact completes_of_writeResult rfl
  · rw [Int.sub_eq_add_neg, BitVec.ofInt_add, BitVec.ofInt_neg, BitVec.ofInt_natCast, BitVec.ofInt_natCast, BitVec.ofNat_toNat,
      BitVec.ofNat_toNat, BitVec.setWidth_eq, BitVec.setWidth_eq, ← BitVec.sub_eq_add_neg]
    exact completes_of_writeResult rfl

/-- Settles O3: a word sum or difference is the exact one modulo 2^32, so it is exact where that fits. -/
theorem trappingArithmeticWritesTheExactResult : Obligations.TrappingArithmeticWritesTheExactResult := by
  intro s d rs rt imm
  refine ⟨completes_exact rfl rfl (BitVec.toInt_add _ _), ?_, completes_exact rfl rfl (BitVec.toInt_sub ..)⟩
  rw [← sextImm_toInt imm]
  exact completes_exact rfl rfl (BitVec.toInt_add _ _)

/-- Where the exact result fits it is written, so nothing is raised, and where it does not Overflow is. -/
theorem traps_unless_fits {i : Instr} {s : State} {d : Reg} {v : Word} {o : Bool} {n : Int} (hexec : exec i s = writeOrTrap o d v s)
    (ho : o = !fitsS32 n) (hv : v.toInt = n.bmod (2 ^ 32)) :
    (¬ (-2 ^ 31 ≤ n ∧ n ≤ 2 ^ 31 - 1) →
      Completes i s (fun t => Moves s t (s.pc + 4) (.excepted ⟨.overflow, s.pc, none⟩))) ∧
    (-2 ^ 31 ≤ n ∧ n ≤ 2 ^ 31 - 1 → Completes i s (fun t => t.halt = s.halt)) := by
  refine ⟨completes_overflow hexec ho, fun hn => ?_⟩
  obtain ⟨t, ht, v', -, hw⟩ := completes_exact hexec ho hv hn
  exact ⟨t, ht, hw.halt⟩

/-- Settles O4: the overflow test is on the exact integers. -/
theorem trappingArithmeticRaisesOverflow : Obligations.TrappingArithmeticRaisesOverflow := by
  intro s d rs rt imm
  refine ⟨traps_unless_fits rfl rfl (BitVec.toInt_add _ _), ?_, traps_unless_fits rfl rfl (BitVec.toInt_sub ..)⟩
  rw [← sextImm_toInt imm]
  exact traps_unless_fits rfl rfl (BitVec.toInt_add _ _)

/-- Bit `k` of a zero-extended immediate (R76). -/
theorem getLsbD_zextImm (imm : BitVec 16) {k : Nat} (hk : k < 32) :
    (zextImm imm).getLsbD k = (decide (k < 16) && imm.getLsbD k) := by
  by_cases h : k < 16
  · simp [zextImm, hk, h]
  · simp [zextImm, h, BitVec.getLsbD_of_ge imm k (by omega)]

/-- Bit `k` of an upper immediate (R76). -/
theorem getLsbD_upperImm (imm : BitVec 16) (k : Nat) :
    (upperImm imm).getLsbD k = (decide (16 ≤ k) && imm.getLsbD (k - 16)) := by
  refine (BitVec.getLsbD_append (x := imm) (y := 0#16)).trans ?_
  by_cases h : k < 16
  · simp [h]
  · simp [h, Nat.le_of_not_lt h]

/-- Settles O5, by the bits of each operation and of each immediate. -/
theorem bitwiseInstructionsWorkBitByBit : Obligations.BitwiseInstructionsWorkBitByBit := by
  intro s d rs rt imm
  refine ⟨?_, ?_, ?_, ?_, ?_, ?_, ?_, ?_⟩ <;> refine completes_with_value rfl fun k hk => ?_
  · exact BitVec.getLsbD_and
  · exact BitVec.getLsbD_or
  · exact BitVec.getLsbD_xor
  · simp [hk]
  · rw [BitVec.getLsbD_and, getLsbD_zextImm imm hk]
  · rw [BitVec.getLsbD_or, getLsbD_zextImm imm hk]
  · rw [BitVec.getLsbD_xor, getLsbD_zextImm imm hk]
  · exact getLsbD_upperImm imm k

/-- The shift amount of a register is its value modulo 32. -/
theorem regShift_eq (v : Word) : regShift v = v.toNat % 32 := by
  simp [regShift, BitVec.extractLsb'_toNat]

section
variable {i : Instr} {s : State} {d : Reg} {a : Word} {n : Nat}

theorem completes_shiftLeft (hexec : exec i s = writeResult d (a <<< n) s) :
    Completes i s (fun t => ∃ v : Word, v.toNat = a.toNat * 2 ^ n % 2 ^ 32 ∧ Writes s t d v (s.pc + 4) s.halt) :=
  completes_with_value hexec (by rw [BitVec.toNat_shiftLeft, Nat.shiftLeft_eq])

theorem completes_shiftRight (hexec : exec i s = writeResult d (a >>> n) s) :
    Completes i s (fun t => ∃ v : Word, v.toNat = a.toNat / 2 ^ n ∧ Writes s t d v (s.pc + 4) s.halt) :=
  completes_with_value hexec (by rw [BitVec.toNat_ushiftRight, Nat.shiftRight_eq_div_pow])

theorem completes_sshiftRight (hexec : exec i s = writeResult d (a.sshiftRight n) s) :
    Completes i s (fun t => ∃ v : Word, v.toInt = a.toInt / 2 ^ n ∧ Writes s t d v (s.pc + 4) s.halt) :=
  completes_with_value hexec (by rw [BitVec.toInt_sshiftRight, Int.shiftRight_eq_div_pow, Nat.cast_pow, Nat.cast_ofNat])

end

/-- Settles O6, by the three shifts as multiplication and division. -/
theorem immediateShiftsScaleByPowersOfTwo : Obligations.ImmediateShiftsScaleByPowersOfTwo := fun _ _ _ _ _ =>
  ⟨completes_shiftLeft rfl, completes_shiftRight rfl, completes_sshiftRight rfl⟩

/-- Settles O7: as O6, the amount being `regShift`. -/
theorem registerShiftsUseTheLowFiveBits : Obligations.RegisterShiftsUseTheLowFiveBits := by
  intro s d rt rs
  simp only [← regShift_eq]
  exact ⟨completes_shiftLeft rfl, completes_shiftRight rfl, completes_sshiftRight rfl⟩

/-- A comparison writes 1 or 0 by its condition (R120). -/
theorem completes_setIf {i : Instr} {s : State} {d : Reg} {c : Prop} [Decidable c]
    (hexec : exec i s = writeResult d (setIf (decide c)) s) :
    Completes i s (fun t => ∃ v : Word, (c → v = 1) ∧ (¬ c → v = 0) ∧ Writes s t d v (s.pc + 4) s.halt) := by
  obtain ⟨t, ht, hw⟩ := completes_of_writeResult hexec
  exact ⟨t, ht, _, fun hc => by simp [setIf, hc], fun hc => by simp [setIf, hc], hw⟩

/-- Settles O8: the four tests decide their comparison on integers. -/
theorem comparisonsWriteOneOrZero : Obligations.ComparisonsWriteOneOrZero := by
  intro s d rs rt imm
  refine ⟨completes_setIf rfl, ?_, completes_setIf rfl, completes_setIf rfl⟩
  rw [← sextImm_toInt imm]
  exact completes_setIf rfl

end Sys2Proof.Machine

/-! Proofs: multiply, divide and the `hi`/`lo` moves (spec 42_muldiv.md). -/

namespace Sys2Proof.Machine

/-! ### Products -/

/-- The two halves of a 64-bit value, put together. -/
theorem halves_append (q : BitVec 64) : q.extractLsb' 32 32 ++ q.extractLsb' 0 32 = q := by
  ext k hk
  simp
  grind

theorem signed_product_toInt (a b : Word) : (BitVec.ofInt 64 (a.toInt * b.toInt)).toInt = a.toInt * b.toInt := by
  have hle : a.toInt * b.toInt ≤ 2 ^ 62 := BitVec.toInt_mul_toInt_le
  have hge : -2 ^ 62 ≤ a.toInt * b.toInt := BitVec.le_toInt_mul_toInt
  rw [BitVec.toInt_ofInt]
  exact Int.bmod_eq_of_le (by omega) (by omega)

theorem unsigned_product_toNat (a b : Word) :
    (BitVec.ofInt 64 ((a.toNat * b.toNat : Nat) : Int)).toNat = a.toNat * b.toNat := by
  rw [BitVec.ofInt_natCast, BitVec.toNat_ofNat]
  exact Nat.mod_eq_of_lt BitVec.toNat_mul_toNat_lt

/-- Settles O9: the product fits in 64 bits, and its halves are `hi` and `lo`. -/
theorem multiplyFillsHiAndLoWithTheProduct : Obligations.MultiplyFillsHiAndLoWithTheProduct := by
  intro s rs rt
  refine ⟨⟨_, rfl, _, _, ?_, writesHiLo_setHiLo _ _ s⟩, ⟨_, rfl, _, _, ?_, writesHiLo_setHiLo _ _ s⟩⟩
  · rw [halves_append, signed_product_toInt]
  · rw [halves_append, unsigned_product_toNat]

/-! ### Quotients -/

/-- The truncated quotient of two 32-bit signed values is one, except for -2^31 / -1 (D18). -/
theorem tdiv_bounds {n d : Int} (hn : -2 ^ 31 ≤ n ∧ n < 2 ^ 31) (hcorner : ¬ (n = -2 ^ 31 ∧ d = -1)) :
    -2 ^ 31 ≤ n.tdiv d ∧ n.tdiv d < 2 ^ 31 := by
  have habs : (n.tdiv d).natAbs = n.natAbs / d.natAbs := Int.natAbs_tdiv n d
  obtain rfl | rfl | rfl | hd : d = 0 ∨ d = 1 ∨ d = -1 ∨ 2 ≤ d.natAbs := by omega
  · simp
  · simpa using hn
  · rw [Int.tdiv_neg, Int.tdiv_one]
    omega
  · have hhalf : n.natAbs / d.natAbs ≤ n.natAbs / 2 := Nat.div_le_div_left hd (by decide)
    omega

/-- The remainder has the sign of the dividend and is smaller than the divisor (D33). -/
theorem tmod_sign_and_size (n : Int) {d : Int} (hd : d ≠ 0) :
    (n.tmod d).natAbs < d.natAbs ∧ (0 ≤ n → 0 ≤ n.tmod d) ∧ (n ≤ 0 → n.tmod d ≤ 0) := by
  refine ⟨?_, Int.tmod_nonneg d, fun hn => ?_⟩
  · rw [Int.natAbs_tmod]
    exact Nat.mod_lt _ (Int.natAbs_pos.2 hd)
  · have hneg := Int.tmod_nonneg d (Int.neg_nonneg_of_nonpos hn)
    rw [Int.neg_tmod] at hneg
    omega

theorem toInt_ofInt_of_fits {n : Int} (hn : -2 ^ 31 ≤ n ∧ n < 2 ^ 31) : (BitVec.ofInt 32 n).toInt = n := by
  rw [BitVec.toInt_ofInt]
  exact Int.bmod_eq_of_le (by omega) (by omega)

/-- Away from the two special cases, `lo` and `hi` are the exact quotient and remainder (R163). -/
theorem divSigned_exact {a b : Word} (hd : b.toInt ≠ 0) (hcorner : ¬ (a.toInt = -2 ^ 31 ∧ b.toInt = -1)) :
    (divSigned a.toInt b.toInt).1.toInt = a.toInt.tdiv b.toInt ∧
    (divSigned a.toInt b.toInt).2.toInt = a.toInt.tmod b.toInt := by
  have ha : -2 ^ 31 ≤ a.toInt ∧ a.toInt < 2 ^ 31 := ⟨BitVec.le_toInt a, BitVec.toInt_lt⟩
  have hb : -2 ^ 31 ≤ b.toInt ∧ b.toInt < 2 ^ 31 := ⟨BitVec.le_toInt b, BitVec.toInt_lt⟩
  obtain ⟨hsize, -⟩ := tmod_sign_and_size a.toInt hd
  have hnum : ¬ (a.toInt = -2147483648 ∧ b.toInt = -1) := by simpa using hcorner
  rw [divSigned, if_neg hd, if_neg hnum, ← Int.tmod_def]
  exact ⟨toInt_ofInt_of_fits (tdiv_bounds ha hcorner), toInt_ofInt_of_fits (by omega)⟩

/-- Settles O10: the zero divisor and -2^31 / -1 by `divSigned`'s own cases, the rest by the laws of truncated division. -/
theorem signedDivisionTruncatesTowardZero : Obligations.SignedDivisionTruncatesTowardZero := by
  intro s rs rt
  refine ⟨_, rfl, _, _, writesHiLo_setHiLo _ _ s, fun hd => ?_, fun ⟨hn, hd⟩ => ?_, fun hd hcorner => ?_⟩
  · simp [divSigned, hd]
  · simp [divSigned, hn, hd]
  · obtain ⟨hlo, hhi⟩ := divSigned_exact hd hcorner
    rw [hlo, hhi]
    exact ⟨(Int.tdiv_mul_add_tmod _ _).symm, tmod_sign_and_size _ hd⟩

/-- Settles O11: quotient and remainder of 32-bit values are 32-bit values. -/
theorem unsignedDivisionGivesQuotientAndRemainder : Obligations.UnsignedDivisionGivesQuotientAndRemainder := by
  intro s rs rt
  have hn := (s.reg rs).isLt
  refine ⟨_, rfl, _, _, writesHiLo_setHiLo _ _ s, fun hd => ?_, fun hd => ?_⟩
  · simp [divUnsigned, hd]
  · have hquot := Nat.div_le_self (s.reg rs).toNat (s.reg rt).toNat
    have hrem := Nat.mod_le (s.reg rs).toNat (s.reg rt).toNat
    rw [divUnsigned, if_neg hd, BitVec.toNat_ofNat, BitVec.toNat_ofNat, Nat.mod_eq_of_lt (by omega),
      Nat.mod_eq_of_lt (by omega)]
    exact ⟨(Nat.div_add_mod' _ _).symm, Nat.mod_lt _ (by omega)⟩

/-! ### The moves -/

/-- Settles O12: two are `writeResult`, two are `setHiLo` with one half as it was. -/
theorem hiLoMovesCopyOneRegister : Obligations.HiLoMovesCopyOneRegister := fun s r =>
  ⟨writeResult_writes r s.hi s, writeResult_writes r s.lo s, ⟨_, rfl, writesHiLo_setHiLo (s.reg r) s.lo s⟩,
    ⟨_, rfl, writesHiLo_setHiLo s.hi (s.reg r) s⟩⟩

end Sys2Proof.Machine

/-! Proofs: branches, jumps and register jumps (spec 43_control.md). -/

namespace Sys2Proof.Machine

/-! ### Targets -/

/-- A branch target in integers (R180, D9). -/
theorem branchTarget_eq (pc : Word) (offset : BitVec 16) :
    branchTarget (pc + 4) offset = BitVec.ofInt 32 (pc.toNat + 4 + 4 * offset.toInt) := by
  have hshift : sextImm offset <<< 2 = 4 * BitVec.ofInt 32 offset.toInt := by
    rw [BitVec.shiftLeft_eq_mul_twoPow, BitVec.mul_comm]
    rfl
  rw [branchTarget, hshift, BitVec.ofInt_add, BitVec.ofInt_add, BitVec.ofInt_mul, BitVec.ofInt_natCast, BitVec.ofNat_toNat,
    BitVec.setWidth_eq]
  rfl

/-- A jump target in numbers (R181). -/
theorem jumpTarget_eq (pc : Word) (target : BitVec 26) :
    jumpTarget pc target = BitVec.ofNat 32 (pc.toNat / 2 ^ 28 * 2 ^ 28 + target.toNat * 4) := by
  have hpc := pc.isLt
  have htarget := target.isLt
  have htop : (pc.extractLsb' 28 4).toNat = pc.toNat / 2 ^ 28 := by
    rw [BitVec.extractLsb'_toNat, Nat.shiftRight_eq_div_pow]
    exact Nat.mod_eq_of_lt (by omega)
  apply BitVec.eq_of_toNat_eq
  rw [jumpTarget, BitVec.toNat_append, BitVec.toNat_append, BitVec.toNat_ofNat, Nat.zero_mod, Nat.or_zero,
    ← Nat.shiftLeft_add_eq_or_of_lt htarget, htop, Nat.shiftLeft_eq, Nat.shiftLeft_eq, BitVec.toNat_ofNat]
  omega

/-! ### Branches -/

section
variable {i : Instr} {s : State} {taken : Bool} {offset : BitVec 16} {c : Prop}

theorem completes_branchIf (hexec : exec i s = branchIf taken offset (advance s)) (hc : taken = true ↔ c) :
    Completes i s (fun t => ∃ pc : Word, Moves s t pc s.halt ∧
      (c → pc = BitVec.ofInt 32 (s.pc.toNat + 4 + 4 * offset.toInt)) ∧ (¬ c → pc = s.pc + 4)) := by
  obtain ⟨t, ht, hmoves⟩ := branchIf_moves taken offset s
  rw [branchTarget_eq] at hmoves
  exact ⟨t, hexec.trans ht, _, hmoves, fun h => if_pos (hc.2 h), fun h => if_neg (mt hc.1 h)⟩

theorem completes_branchAndLink (hexec : exec i s = branchAndLink taken offset (advance s)) (hc : taken = true ↔ c) :
    Completes i s (fun t => ∃ pc : Word, Writes s t 31 (s.pc + 4) pc s.halt ∧
      (c → pc = BitVec.ofInt 32 (s.pc.toNat + 4 + 4 * offset.toInt)) ∧ (¬ c → pc = s.pc + 4)) := by
  obtain ⟨t, ht, hwrites⟩ := branchAndLink_writes taken offset s
  rw [branchTarget_eq] at hwrites
  exact ⟨t, hexec.trans ht, _, hwrites, fun h => if_pos (hc.2 h), fun h => if_neg (mt hc.1 h)⟩

end

/-- Settles O14: each branch is one `branchIf`, on its own condition. -/
theorem branchesRedirectExactlyWhenTaken : Obligations.BranchesRedirectExactlyWhenTaken := fun _ _ _ _ =>
  ⟨completes_branchIf rfl beq_iff_eq, completes_branchIf rfl bne_iff_ne,
    completes_branchIf rfl decide_eq_true_iff, completes_branchIf rfl decide_eq_true_iff,
    completes_branchIf rfl decide_eq_true_iff, completes_branchIf rfl decide_eq_true_iff⟩

/-- Settles O15: the condition is computed on the registers before the link write. -/
theorem branchAndLinkAlwaysLinks : Obligations.BranchAndLinkAlwaysLinks := fun _ _ _ =>
  ⟨completes_branchAndLink rfl decide_eq_true_iff, completes_branchAndLink rfl decide_eq_true_iff⟩

/-! ### Jumps -/

/-- Settles O16, by the target in numbers. -/
theorem jumpsStayInTheRegionOfTheNextInstruction : Obligations.JumpsStayInTheRegionOfTheNextInstruction := by
  intro s target
  dsimp only
  rw [← jumpTarget_eq]
  exact ⟨completes_moves rfl, ⟨_, rfl, writes_setReg_setPc s 31 _ _⟩⟩

/-! ### Register jumps -/

/-- How `jr` and `jalr` leave `halt` (R195). -/
def jumpHalt (s : State) (target : Word) : Halt :=
  if target.toNat % 4 = 0 then s.halt else .excepted ⟨.addressError, s.pc, some target⟩

theorem jr_moves (s : State) (rs : Reg) : Completes (.jr rs) s (fun t => Moves s t (s.reg rs) (jumpHalt s (s.reg rs))) :=
  completes_moves ((exec_jr rs s).trans (jumpRegister_cases _ _ _))

theorem jalr_writes (s : State) (rd rs : Reg) :
    Completes (.jalr rd rs) s (fun t => Writes s t rd (s.pc + 8) (s.reg rs) (jumpHalt s (s.reg rs))) := by
  have hw := writes_setReg_setPc s rd (s.pc + 8) (s.reg rs)
  refine ⟨_, (exec_jalr rd rs s).trans (jumpRegister_cases _ _ _), hw.value, hw.others, hw.hi, hw.lo, rfl, ?_, hw.memory⟩
  unfold jumpHalt
  rw [setReg_halt, advance_halt]

/-- Settles O17: at an aligned target `halt` stays. -/
theorem registerJumpsReachAnAlignedTarget : Obligations.RegisterJumpsReachAnAlignedTarget := by
  intro s rd rs haligned
  have hhalt : jumpHalt s (s.reg rs) = s.halt := if_pos haligned
  rw [← hhalt]
  exact ⟨jr_moves s rs, jalr_writes s rd rs⟩

/-- Settles O19: at a misaligned target the report is left. -/
theorem misalignedRegisterJumpsKeepTheirWrites : Obligations.MisalignedRegisterJumpsKeepTheirWrites := by
  intro s rd rs hmisaligned
  have hhalt : jumpHalt s (s.reg rs) = .excepted ⟨.addressError, s.pc, some (s.reg rs)⟩ := if_neg hmisaligned
  dsimp only
  rw [← hhalt]
  exact ⟨jr_moves s rs, jalr_writes s rd rs⟩

end Sys2Proof.Machine

/-! Proofs: system, TLB and coprocessor instructions (spec 45_system.md). -/

namespace Sys2Proof.Machine

section
variable {i : Instr} {s : State}

/-- A raise on a state that differs from `s` in `pc` alone leaves `s` but for `pc` and the report (R281). -/
theorem completes_of_raise {k : ExcKind} {pc : Word} (hexec : exec i s = raise k s.pc none (s.setPc pc)) :
    Completes i s (fun t => Moves s t pc (.excepted ⟨k, s.pc, none⟩)) :=
  completes_moves hexec

/-- A refused instruction leaves `halt` and `pc` alone changed (R256). -/
theorem completes_of_refuse {m : String} (hexec : exec i s = refuse m (advance s)) : Completes i s (fun t => Refuses s t m) :=
  ⟨_, hexec, rfl, fun _ => rfl, rfl, rfl, rfl, fun _ => rfl⟩

end

/-- Settles O33: each is one `raise` on the advanced state. -/
theorem systemCallAndBreakpointAlwaysRaise : Obligations.SystemCallAndBreakpointAlwaysRaise := fun _ _ =>
  ⟨completes_of_raise rfl, completes_of_raise rfl⟩

/-- Settles O34: the four raise on the state as it is. -/
theorem tlbInstructionsRaiseReservedInstruction : Obligations.TlbInstructionsRaiseReservedInstruction := by
  rintro s i (rfl | rfl | rfl | rfl) <;> exact completes_of_raise rfl

/-- Settles O35: each of the 36 is one `refuse` with its mnemonic. -/
theorem coprocessorInstructionsAreRefusedByName : Obligations.CoprocessorInstructionsAreRefusedByName := by
  intro s rt rd rs offset cofun
  dsimp only
  and_intros <;> exact completes_of_refuse rfl

end Sys2Proof.Machine

/-! Proofs: the device bytes, translation and the Bus (spec 20_memory.md). -/

namespace Sys2Proof.Machine

/-! ### The canonical form -/

/-- What a write leaves at every address of a canonical memory. -/
theorem read_write {m : Memory} (hm : m.wf) (a k : Nat) (b : Byte) : (m.write a b).read k = if k = a then b else m.read k := by
  split
  · next h => rw [h, read_write_same a b hm]
  · next h => exact read_write_of_ne m b h

theorem read_cons_self (a : Nat) (b : Byte) (m : Memory) : Memory.read ((a, b) :: m) a = b := if_pos rfl

theorem read_cons_of_ne {a k : Nat} (b : Byte) (m : Memory) (h : k ≠ a) : Memory.read ((a, b) :: m) k = m.read k := if_neg h

/-- In a canonical memory the first address named is the least one that does not read as an unlisted address does. -/
theorem head_le_of_read_ne {a k : Nat} {b : Byte} {m : Memory} (hm : Memory.wf ((a, b) :: m))
    (hk : Memory.read ((a, b) :: m) k ≠ unlistedByte) : a ≤ k := by
  by_contra hlt
  obtain ⟨habove, -, -⟩ := wf_cons.1 hm
  refine hk (read_of_all_above fun c hc => ?_)
  obtain rfl | hc := List.mem_cons.1 hc
  · exact Nat.lt_of_not_le hlt
  · have := habove c hc
    omega

/-- Canonical memories that read alike are equal: their first addresses are each the least that reads as listed, and so on down. -/
theorem eq_of_read_eq {m m' : Memory} (hm : m.wf) (hm' : m'.wf) (h : ∀ k, m.read k = m'.read k) : m = m' := by
  induction m generalizing m' with
  | nil =>
    cases m' with
    | nil => rfl
    | cons c' m' =>
      obtain ⟨a', b'⟩ := c'
      obtain ⟨-, hb', -⟩ := wf_cons.1 hm'
      exact absurd ((read_cons_self a' b' m').symm.trans (h a').symm) hb'
  | cons c m ih =>
    obtain ⟨a, b⟩ := c
    obtain ⟨habove, hb, htail⟩ := wf_cons.1 hm
    have hself := read_cons_self a b m
    cases m' with
    | nil => exact absurd (hself.symm.trans (h a)) hb
    | cons c' m' =>
      obtain ⟨a', b'⟩ := c'
      obtain ⟨habove', hb', htail'⟩ := wf_cons.1 hm'
      have hself' := read_cons_self a' b' m'
      have hle : a' ≤ a := head_le_of_read_ne hm' (by rwa [← h a, hself])
      have hge : a ≤ a' := head_le_of_read_ne hm (by rwa [h a', hself'])
      obtain rfl : a = a' := by omega
      obtain rfl : b = b' := by rw [← hself, h a, hself']
      congr
      refine ih htail htail' fun k => ?_
      by_cases hk : k = a
      · subst hk
        rw [read_of_all_above habove, read_of_all_above habove']
      · have hread := h k
        rwa [read_cons_of_ne b m hk, read_cons_of_ne b m' hk] at hread

/-- Settles O46: both write laws compare the memories byte by byte. -/
theorem canonicalMemoriesAreDeterminedByTheirBytes : Obligations.CanonicalMemoriesAreDeterminedByTheirBytes := by
  intro m m' a a' b b' hm hm'
  have hwf {m : Memory} (hm : m.wf) (a : Nat) (b : Byte) := write_wf a b hm
  refine ⟨eq_of_read_eq hm hm', fun hne => eq_of_read_eq (hwf (hwf hm _ _) _ _) (hwf (hwf hm _ _) _ _) fun k => ?_,
    eq_of_read_eq (hwf (hwf hm _ _) _ _) (hwf hm _ _) fun k => ?_⟩
  · rw [read_write (hwf hm _ _), read_write hm, read_write (hwf hm _ _), read_write hm]
    by_cases hk : k = a
    · simp [hk, hne]
    · simp [hk]
  · rw [read_write (hwf hm _ _), read_write hm, read_write hm]
    split_ifs <;> rfl

/-! ### Translation -/

/-- Settles O40, by translation and segment in numbers: the two tables of bounds agree, or their bounds contradict each other. -/
theorem translationMasksTheLowerThreeSegments : Obligations.TranslationMasksTheLowerThreeSegments := by
  intro va
  have hlt := va.isLt
  refine ⟨fun h => ?_, fun h => BitVec.eq_of_toNat_eq ?_, ?_⟩
  · rw [translateVa_toNat, if_pos h]
  · rw [translateVa_toNat, if_neg (by omega)]
  · rw [segment_eq]
    split_ifs <;> first | rfl | omega

/-! ### Bus writes -/

section
variable {s : State} {pa : Word} {n : Nat} {m : Memory}

/-- A Bus write whose bytes all lie in RAM or in the scratchpad leaves its memory (R49). -/
theorem busWrite_of_fits (hn : 0 < n)
    (h : pa.toNat + n ≤ 0x200000 ∨ (0x1F800000 ≤ pa.toNat ∧ pa.toNat + n ≤ 0x1F800400)) :
    busWrite s pa n m = .ok { s with mem := m } := by
  rw [busWrite, route_of_fits hn h]

/-- A Bus write whose bytes all lie in the image changes nothing (R50). -/
theorem busWrite_of_image (h : InBios pa.toNat ∧ pa.toNat + n ≤ 0x1FC00000 + s.biosLen) : busWrite s pa n m = .ok s := by
  rw [busWrite, route_of_image h.1 h.2]

end

/-- Settles O42: the routes of R49 and R50, then the laws of reading after writing. -/
theorem deviceWritesSetTheirBytesAndNothingElse : Obligations.DeviceWritesSetTheirBytesAndNothingElse := by
  intro s pa b h w
  refine ⟨fun hm => ⟨fun hfits => ?_, fun hfits => ?_, fun hfits => ?_⟩,
    busWrite_of_image, busWrite_of_image, busWrite_of_image⟩
  · refine ⟨_, busWrite_of_fits (by decide) hfits, fun k hk => ?_, fun a ha => read_write_of_ne _ _ (by omega)⟩
    obtain rfl : k = 0 := by omega
    exact read_write_same _ _ hm
  · exact ⟨_, busWrite_of_fits (by decide) hfits, fun k => read_write16 _ _ hm, fun a => read_write16_of_outside _ _⟩
  · exact ⟨_, busWrite_of_fits (by decide) hfits, fun k => read_write32 _ _ hm, fun a => read_write32_of_outside _ _⟩

end Sys2Proof.Machine

/-! Proofs: the rules over all instructions (spec 10_state.md R23; 20_memory.md R50, R61; 60_exceptions.md R281-R287). -/

namespace Sys2Proof.Machine

section
variable {i : Instr} {s t : State}

/-- Everything an instruction can leave in memory (R108, R49). -/
theorem Ends.memory (h : Ends i s t) :
    t.biosLen = s.biosLen ∧ (∀ a, ¬ Writable a → t.mem.read a = s.mem.read a) ∧ (¬ IsStore i → MemoryKept s t) := by
  cases h with
  | writes d v =>
    have hread (a : Nat) : (s.setReg d v).mem.read a = s.mem.read a := by rw [setReg_mem]
    exact ⟨setReg_biosLen s d v, fun a _ => hread a, fun _ => ⟨setReg_biosLen s d v, hread⟩⟩
  | writesHiLo => exact ⟨rfl, fun _ _ => rfl, fun _ => ⟨rfl, fun _ => rfl⟩⟩
  | moves => exact ⟨rfl, fun _ _ => rfl, fun _ => ⟨rfl, fun _ => rfl⟩⟩
  | stores m hstore hwf hread => exact ⟨rfl, hread, fun hno => absurd hstore hno⟩

/-- The one register an instruction can change (R23). -/
theorem Ends.destReg_of_reg_ne (h : Ends i s t) {r : Reg} (hr : t.reg r ≠ s.reg r) : destReg i = some r := by
  cases h with
  | writes d v pc hl hd =>
    by_cases hrd : r = d
    · rw [hd, hrd]
    · exact absurd (reg_setReg_of_ne s v hrd) hr
  | writesHiLo => exact absurd rfl hr
  | moves => exact absurd rfl hr
  | stores => exact absurd rfl hr

/-- An exception that an instruction reports (R281-R283, D2). -/
theorem EndsWith.report {pc : Word} {report : Report} (h : EndsWith s pc (.excepted report)) (hrun : s.halt = .running) :
    Produced report.kind ∧ report.ia = s.pc ∧ (report.badva.isSome = true ↔ report.kind = .addressError) := by
  generalize hhl : Halt.excepted report = hl at h
  cases h with
  | normal => exact absurd (hhl.trans hrun) nofun
  | address va =>
    cases hhl
    exact ⟨.inl rfl, rfl, by simp⟩
  | exception k hk =>
    cases hhl
    exact ⟨.inr hk, rfl, by obtain rfl | rfl | rfl | rfl := hk <;> simp⟩
  | refused => cases hhl
  | busFault => cases hhl

/-- How an instruction leaves `halt`, whatever its shape. -/
theorem Ends.endsWith (h : Ends i s t) : EndsWith s t.pc t.halt := by
  cases h with
  | writes d v pc hl hd hh he => exact he
  | writesHiLo => exact .normal add_four_aligned
  | moves pc hl he => exact he
  | stores => exact .normal add_four_aligned

end

/-- Settles O43: a cycle that ends at the fetch changes `halt` alone. -/
theorem noCycleChangesTheBios : Obligations.NoCycleChangesTheBios := by
  intro s t hstep
  obtain ⟨-, ⟨-, rfl⟩ | ⟨pa, -, -, rfl⟩ | ⟨w, e, -, -, rfl⟩ | ⟨w, i, -, -, -, hexec⟩⟩ := step_cases hstep
  · exact ⟨rfl, fun _ _ => rfl⟩
  · exact ⟨rfl, fun _ _ => rfl⟩
  · exact ⟨rfl, fun _ _ => rfl⟩
  · obtain ⟨hbios, hread, -⟩ := (exec_ends hexec).memory
    exact ⟨hbios, hread⟩

/-- Settles O44, by `Ends.memory`. -/
theorem onlyStoresChangeMemory : Obligations.OnlyStoresChangeMemory := by
  intro i s t hexec
  obtain ⟨-, -, hkept⟩ := (exec_ends hexec).memory
  exact hkept

/-- Settles O47, by `Ends.destReg_of_reg_ne`. -/
theorem onlyTheDestinationRegisterChanges : Obligations.OnlyTheDestinationRegisterChanges := fun _ s _ r hexec =>
  ⟨(exec_ends hexec).destReg_of_reg_ne, resetEvent_reg s r⟩

/-- Settles O48: the misaligned fetch has its own report, and an instruction's is `EndsWith`'s. -/
theorem exceptionReportsNameTheInstruction : Obligations.ExceptionReportsNameTheInstruction := by
  intro s t report hstep hreport
  obtain ⟨hrun, ⟨-, rfl⟩ | ⟨pa, -, -, rfl⟩ | ⟨w, e, -, -, rfl⟩ | ⟨w, i, -, -, -, hexec⟩⟩ := step_cases hstep
  · cases hreport
    exact ⟨.inl rfl, rfl, by simp⟩
  · cases hreport
  · cases hreport
  · have hend := (exec_ends hexec).endsWith
    rw [hreport] at hend
    exact hend.report hrun

/-- Settles O49: of the shapes that can leave a report, one writes a register, and it is `jalr`'s. -/
theorem exceptionsArePrecise : Obligations.ExceptionsArePrecise := by
  intro i s t report hrun hexec hreport
  cases exec_ends hexec with
  | writes d v pc hl hd hh he =>
    obtain rfl | ⟨rd, rs, rfl⟩ := hh
    · exact absurd (hrun.symm.trans hreport) nofun
    · cases hd
      exact ⟨⟨setReg_biosLen s _ v, fun a => congrArg (Memory.read · a) (setReg_mem s _ v)⟩,
        setReg_hi s _ v, setReg_lo s _ v, fun r hr => reg_setReg_of_ne s v fun e => hr rs (e ▸ rfl)⟩
  | writesHiLo => exact absurd (hrun.symm.trans hreport) nofun
  | moves => exact ⟨⟨rfl, fun _ => rfl⟩, rfl, rfl, fun _ _ => rfl⟩
  | stores => exact absurd (hrun.symm.trans hreport) nofun

end Sys2Proof.Machine

/-! Proofs: loads (spec 44_loadstore.md R210-R220). -/

namespace Sys2Proof.Machine

/-- Settles O20: both sides add modulo 2^32, and the offset is sign-extended. -/
theorem effectiveAddressIsBasePlusSignedOffset : Obligations.EffectiveAddressIsBasePlusSignedOffset := by
  intro s rs offset
  rw [BitVec.ofInt_add, BitVec.ofInt_toInt]
  rfl

/-! ### The ends of a load or store, by what its access answers -/

section
variable {i : Instr} {s : State} {rt : Reg} {ea pa v : Word} {body : Result} {ok : Bool}

theorem completes_load {value : Except Word Word} (hexec : exec i s = finishLoad rt value (advance s)) (hv : value = .ok v) :
    Completes i s (fun t => Writes s t rt v (s.pc + 4) s.halt) := by
  subst hv
  exact completes_of_writeResult hexec

theorem completes_load_fault {value : Except Word Word} (hexec : exec i s = finishLoad rt value (advance s))
    (hv : value = .error pa) : Completes i s (fun t => Moves s t (s.pc + 4) (.busFault pa)) := by
  subst hv
  exact completes_moves hexec

/-- An aligned access runs (R211). -/
theorem exec_of_aligned (hexec : exec i s = checkAlign ok s.pc ea (advance s) body) (hok : ok = true) : exec i s = body := by
  subst hok
  exact hexec

/-- A misaligned access raises AddressError, whatever the access would do (R211). -/
theorem completes_misaligned (hexec : exec i s = checkAlign ok s.pc ea (advance s) body) (hok : ok = false) :
    Completes i s (fun t => Moves s t (s.pc + 4) (.excepted ⟨.addressError, s.pc, some ea⟩)) := by
  subst hok
  exact completes_moves hexec

end

theorem aligned2_of_even {ea : Word} (h : ea.toNat % 2 = 0) : aligned2 ea = true := (aligned2_eq ea).trans (decide_eq_true h)
theorem aligned4_of_mod {ea : Word} (h : ea.toNat % 4 = 0) : aligned4 ea = true := (aligned4_eq ea).trans (decide_eq_true h)

/-- Settles O26: the check is the same for the five, and is made before the access. -/
theorem misalignedAccessRaisesAddressError : Obligations.MisalignedAccessRaisesAddressError := by
  intro s rt rs offset
  refine ⟨fun hodd => ?_, fun hmis => ?_⟩
  · have hok := (aligned2_eq (effAddr s rs offset)).trans (decide_eq_false hodd)
    exact ⟨completes_misaligned rfl hok, completes_misaligned rfl hok, completes_misaligned rfl hok⟩
  · have hok := (aligned4_eq (effAddr s rs offset)).trans (decide_eq_false hmis)
    exact ⟨completes_misaligned rfl hok, completes_misaligned rfl hok⟩

/-! ### Whole loads -/

/-- The value of a load whose read answers. -/
theorem map_eq_ok {α β : Type} {x : Except Word α} {a : α} (h : x = .ok a) (f : α → β) : x.map f = .ok (f a) := by
  rw [h]
  rfl

/-- The value of a load whose read fails. -/
theorem map_eq_error {α β : Type} {x : Except Word α} {pa : Word} (h : x = .error pa) (f : α → β) : x.map f = .error pa := by
  rw [h]
  rfl

/-- Settles O21, by everything a byte read can answer. -/
theorem byteLoadsExtendTheByte : Obligations.ByteLoadsExtendTheByte := by
  intro s rt rs offset pa b hcovers
  have hread := (memReadByte_eq s (effAddr s rs offset)).1 hcovers
  refine ⟨completes_load rfl (map_eq_ok hread _), ?_⟩
  rw [BitVec.ofNat_toNat]
  exact completes_load rfl (map_eq_ok hread _)

/-- Settles O22: as O21, after the alignment check. -/
theorem halfwordLoadsExtendTheHalfword : Obligations.HalfwordLoadsExtendTheHalfword := by
  intro s rt rs offset ea pa v heven hcovers
  have hread := (memReadHalf_eq s heven).1 hcovers
  have hok := aligned2_of_even heven
  refine ⟨completes_load (exec_of_aligned rfl hok) (map_eq_ok hread _), ?_⟩
  rw [BitVec.ofNat_toNat]
  exact completes_load (exec_of_aligned rfl hok) (map_eq_ok hread _)

/-- Settles O23: as O22, for a word. -/
theorem wordLoadsReadFourBytes : Obligations.WordLoadsReadFourBytes := fun s _ _ _ haligned hcovers =>
  completes_load (exec_of_aligned rfl (aligned4_of_mod haligned)) ((memReadWord_eq s haligned).1 hcovers)

/-! ### Bytes of a word -/

theorem byteOf_and (v w : Word) (j : Nat) : byteOf (v &&& w) j = byteOf v j &&& byteOf w j := BitVec.extractLsb'_and
theorem byteOf_or (v w : Word) (j : Nat) : byteOf (v ||| w) j = byteOf v j ||| byteOf w j := BitVec.extractLsb'_or

/-- A shift to the left by whole bytes moves the bytes up. -/
theorem byteOf_shiftLeft (v : Word) (n : Nat) {j : Nat} (hj : j < 4) :
    byteOf (v <<< (8 * n)) j = if j < n then 0 else byteOf v (j - n) := by
  ext k hk
  by_cases hjn : j < n
  · simp [byteOf, hjn]
    omega
  · have hk' : 8 * j + k - 8 * n = 8 * (j - n) + k := by omega
    simp [byteOf, hjn, hk']
    omega

/-- A shift to the right by whole bytes moves the bytes down. -/
theorem byteOf_ushiftRight (v : Word) (n j : Nat) : byteOf (v >>> (8 * n)) j = if j + n < 4 then byteOf v (j + n) else 0 := by
  ext k hk
  have hk' : 8 * n + (8 * j + k) = 8 * (j + n) + k := by omega
  split
  · simp [byteOf, hk']
  · simp [byteOf, hk', BitVec.getLsbD_of_ge v (8 * (j + n) + k) (by omega)]

/-- The bytes of a little-endian word. -/
theorem byteOf_append (b : Nat → Byte) {j : Nat} (hj : j < 4) : byteOf (b 3 ++ b 2 ++ b 1 ++ b 0) j = b j := by
  have h := bytesOfWord_wordOfBytes (b 0) (b 1) (b 2) (b 3)
  simp only [bytesOfWord, List.cons.injEq, and_true] at h
  obtain ⟨h0, h1, h2, h3⟩ := h
  obtain rfl | rfl | rfl | rfl : j = 0 ∨ j = 1 ∨ j = 2 ∨ j = 3 := by omega
  · exact h0
  · exact h1
  · exact h2
  · exact h3

theorem and_ones8 (x : Byte) : x &&& 255#8 = x := BitVec.and_allOnes

/-- The `lwl` table (R219), byte by byte: each row keeps some bytes of the register and shifts the others in. -/
theorem byteOf_mergeLeft (old w : Word) {k j : Nat} (hk : k < 4) (hj : j < 4) :
    byteOf (mergeLeft old w k) j = if 3 - k ≤ j then byteOf w (j - (3 - k)) else byteOf old j := by
  have h8 := byteOf_shiftLeft w 1 hj
  have h16 := byteOf_shiftLeft w 2 hj
  have h24 := byteOf_shiftLeft w 3 hj
  interval_cases k <;> simp only [mergeLeft, byteOf_or, byteOf_and, h8, h16, h24] <;> interval_cases j <;>
    simp [byteOf, and_ones8]

/-- The `lwr` table (R220), byte by byte: each row keeps some bytes of the register and shifts the others in. -/
theorem byteOf_mergeRight (old w : Word) {k j : Nat} (hk : k < 4) (hj : j < 4) :
    byteOf (mergeRight old w k) j = if j ≤ 3 - k then byteOf w (k + j) else byteOf old j := by
  have h8 := byteOf_ushiftRight w 1 j
  have h16 := byteOf_ushiftRight w 2 j
  have h24 := byteOf_ushiftRight w 3 j
  interval_cases k <;> simp only [mergeRight, byteOf_or, byteOf_and, h8, h16, h24] <;> interval_cases j <;>
    simp [byteOf, and_ones8]

/-! ### Partial loads -/

/-- Settles O24: the aligned word is read, and the merges are the tables of R219 and R220. -/
theorem partialLoadsMergeBytes : Obligations.PartialLoadsMergeBytes := by
  intro s rt rs offset ea k pa w old hcovers
  have hread := (memReadWord_eq s (wordAddr_aligned ea)).1 hcovers
  have hk : k < 4 := Nat.mod_lt _ (by decide)
  obtain ⟨t, ht, hleft⟩ := completes_load (i := .lwl rt offset rs) rfl (map_eq_ok hread _)
  obtain ⟨u, hu, hright⟩ := completes_load (i := .lwr rt offset rs) rfl (map_eq_ok hread _)
  rw [byteOffset_eq] at hleft hright
  refine ⟨⟨t, ht, _, hleft, fun j hj => ?_⟩, ⟨u, hu, _, hright, fun j hj => ?_⟩⟩
  · refine (byteOf_mergeLeft _ _ hk hj).trans (if_congr Iff.rfl ?_ rfl)
    exact byteOf_append w (by omega)
  · refine (byteOf_mergeRight _ _ hk hj).trans ?_
    split
    · exact byteOf_append w (by omega)
    · rfl

/-! ### The pair for an unaligned word -/

/-- Translation keeps distances within one aligned word, up from an address in it. -/
theorem translateVa_add_in_word {va : Word} {j : Nat} (h : va.toNat % 4 + j < 4) :
    (translateVa (va + BitVec.ofNat 32 j)).toNat = (translateVa (wordAddr va)).toNat + (va.toNat % 4 + j) := by
  rw [← translateVa_add (wordAddr_aligned va) h, BitVec.ofNat_add, ← BitVec.add_assoc, ← byteOffset_eq, wordAddr_add_byteOffset]

/-- The same, down from an address in the word: the one three bytes on. -/
theorem translateVa_add_in_last_word {va : Word} {j : Nat} (hj : j < 4) (h : 3 - (va + 3).toNat % 4 ≤ j) :
    (translateVa (va + BitVec.ofNat 32 j)).toNat =
      (translateVa (wordAddr (va + 3))).toNat + (j - (3 - (va + 3).toNat % 4)) := by
  rw [← translateVa_add (wordAddr_aligned _) (by omega)]
  congr 2
  apply BitVec.eq_of_toNat_eq
  have h3 : (va + 3).toNat = (va.toNat + 3) % 2 ^ 32 := BitVec.toNat_add va 3
  rw [BitVec.toNat_add, BitVec.toNat_add, wordAddr_toNat, h3, BitVec.toNat_ofNat, BitVec.toNat_ofNat]
  omega

/-- Words with the same four bytes are equal. -/
theorem eq_of_byteOf_eq {v w : Word} (h : ∀ j < 4, byteOf v j = byteOf w j) : v = w := by
  have hbytes (j : Nat) (hj : j < 4) : v.extractLsb' (8 * j) 8 = w.extractLsb' (8 * j) 8 := h j hj
  rw [← wordOfBytes_bytesOfWord v, ← wordOfBytes_bytesOfWord w, hbytes 0 (by decide), hbytes 1 (by decide), hbytes 2 (by decide),
    hbytes 3 (by decide)]

/-- An offset that is three greater reaches three bytes on, modulo 2^32. -/
theorem effAddr_add_three {s t : State} {rs : Reg} {low high : BitVec 16} (hreg : t.reg rs = s.reg rs)
    (hoff : high.toInt = low.toInt + 3) : effAddr t rs high = effAddr s rs low + 3 := by
  rw [effAddr, effAddr, hreg, BitVec.add_assoc]
  congr 1
  change BitVec.ofInt 32 high.toInt = BitVec.ofInt 32 low.toInt + 3
  rw [hoff, BitVec.ofInt_add]
  rfl

/-- A state that keeps the memory has the same bytes. -/
theorem physByte_of_memoryKept {s t : State} (h : MemoryKept s t) (a : Nat) : physByte t a = physByte s a := by
  unfold physByte
  rw [h.2]

/-- Settles O25: the second load keeps the bytes that the first took from the lower word, and takes the others from the upper. -/
theorem unalignedLoadPairReconstructsTheWord : Obligations.UnalignedLoadPairReconstructsTheWord := by
  intro s rt rs low high ea b hrt hrs hoff hlow hhigh
  obtain ⟨-, t, ht, v, hw, hbytes⟩ := partialLoadsMergeBytes s rt rs low hlow
  have hea : effAddr t rs high = ea + 3 := effAddr_add_three (hw.others rs hrs.symm) hoff
  have hhigh' : ImageCovers t (translateVa (effAddr t rs high &&& 0xFFFFFFFC)) 4 := by
    rw [hea]
    unfold ImageCovers
    rw [hw.memory.1]
    exact hhigh
  obtain ⟨⟨u, hu, v', hw', hbytes'⟩, -⟩ := partialLoadsMergeBytes t rt rs high hhigh'
  refine ⟨t, ht, u, hu, hw'.value.trans ((if_neg hrt).trans (eq_of_byteOf_eq fun j hj => ?_))⟩
  rw [byteOf_append b hj]
  refine (hbytes' j hj).trans ?_
  rw [hea, hw.value, if_neg hrt]
  have h3 : (ea + 3).toNat = (ea.toNat + 3) % 2 ^ 32 := BitVec.toNat_add ea 3
  split
  · next hin =>
    exact (physByte_of_memoryKept hw.memory _).trans (congrArg (physByte s) (translateVa_add_in_last_word hj hin).symm)
  · next hout =>
    have hin : j ≤ 3 - ea.toNat % 4 := by omega
    have hword : ea.toNat % 4 + j < 4 := by omega
    exact ((hbytes j hj).trans (if_pos hin)).trans (congrArg (physByte s) (translateVa_add_in_word hword).symm)

end Sys2Proof.Machine

/-! Proofs: stores (spec 44_loadstore.md R213, R221-R225). -/

namespace Sys2Proof.Machine

/-! ### The ends of a store, by what its access answers -/

section
variable {i : Instr} {s : State} {pa : Word} {stored : Except Word State}

/-- An access to RAM or the scratchpad leaves its memory in the advanced state. -/
theorem completes_store {m : Memory} {n start : Nat} {byte : Nat → Byte}
    (hexec : exec i s = finishStore stored (advance s)) (hstored : stored = .ok { advance s with mem := m }) (hbytes : ∀ k < n, m.read (start + k) = byte k)
    (helse : ∀ a, a < start ∨ start + n ≤ a → m.read a = s.mem.read a) :
    Completes i s (fun t => Stores s t start n byte) := by
  subst hstored
  exact ⟨_, hexec, hbytes, helse, rfl, fun _ => rfl, rfl, rfl, rfl, rfl⟩

/-- A dropped access only advances (R50, R51). -/
theorem completes_store_dropped (hexec : exec i s = finishStore stored (advance s)) (hstored : stored = .ok (advance s)) :
    Completes i s (fun t => Moves s t (s.pc + 4) s.halt) := by
  subst hstored
  exact completes_moves hexec

/-- An unbacked access ends in BusFault (R52). -/
theorem completes_store_fault (hexec : exec i s = finishStore stored (advance s)) (hstored : stored = .error pa) :
    Completes i s (fun t => Moves s t (s.pc + 4) (.busFault pa)) := by
  subst hstored
  exact completes_moves hexec

end

/-- Everything an aligned halfword write can answer (R49-R52). -/
theorem memWriteHalf_eq (s : State) {va : Word} (v : Half) (ha : va.toNat % 2 = 0) :
    (Writable (translateVa va).toNat → memWriteHalf s va v = .ok { s with mem := s.mem.write16 (translateVa va).toNat v }) ∧
    (¬ Writable (translateVa va).toNat → ImageCovers s (translateVa va) 2 → memWriteHalf s va v = .ok s) ∧
    (¬ ImageCovers s (translateVa va) 2 → memWriteHalf s va v = .error (translateVa va)) :=
  busWrite_aligned s _ ((translateVa_mod_two va).trans ha) (.inr (.inl rfl))

/-- Everything an aligned word write can answer (R49-R52). -/
theorem memWriteWord_eq (s : State) {va : Word} (v : Word) (ha : va.toNat % 4 = 0) :
    (Writable (translateVa va).toNat → memWriteWord s va v = .ok { s with mem := s.mem.write32 (translateVa va).toNat v }) ∧
    (¬ Writable (translateVa va).toNat → ImageCovers s (translateVa va) 4 → memWriteWord s va v = .ok s) ∧
    (¬ ImageCovers s (translateVa va) 4 → memWriteWord s va v = .error (translateVa va)) :=
  busWrite_aligned s _ ((translateVa_mod_four va).trans ha) (.inr (.inr rfl))

/-! ### Whole stores -/

/-- The bytes of the low halfword are the word's own. -/
theorem byte_of_low_half (v : Word) {k : Nat} (hk : k < 2) :
    (v.extractLsb' 0 16).extractLsb' (8 * k) 8 = v.extractLsb' (8 * k) 8 := by
  ext j hj
  simp
  omega

/-- Settles O28: each width is one aligned write, and its bytes read back. -/
theorem storesWriteExactlyTheirBytes : Obligations.StoresWriteExactlyTheirBytes := by
  intro s rt rs offset ea pa byte hm hw
  refine ⟨?_, fun heven => ?_, fun haligned => ?_⟩
  · refine completes_store rfl ((memWriteByte_eq _ _ _).1 hw) (fun k hk => ?_) (fun a (ha : a < pa ∨ pa + 1 ≤ a) => ?_)
    · obtain rfl : k = 0 := by omega
      exact read_write_same _ _ hm
    · exact read_write_of_ne _ _ (show a ≠ pa by omega)
  · refine completes_store (exec_of_aligned rfl (aligned2_of_even heven)) ((memWriteHalf_eq _ _ heven).1 hw) (fun k hk => ?_)
      (fun a => read_write16_of_outside _ _)
    exact (read_write16 pa _ hm hk).trans (byte_of_low_half _ hk)
  · exact completes_store (exec_of_aligned rfl (aligned4_of_mod haligned)) ((memWriteWord_eq _ _ haligned).1 hw)
      (fun k hk => read_write32 pa _ hm hk) (fun a => read_write32_of_outside _ _)

/-! ### Byte writes one at a time -/

/-- The bytes written one at a time, in the order listed. -/
def writeAll (m : Memory) : List (Word × Byte) → Memory
  | [] => m
  | c :: ws => writeAll (m.write (translateVa c.1).toNat c.2) ws

section
variable {s : State} {ws : List (Word × Byte)}

/-- Where every byte is writable, all are written. -/
theorem memWriteBytes_writable (h : ∀ c ∈ ws, Writable (translateVa c.1).toNat) :
    memWriteBytes s ws = .ok { s with mem := writeAll s.mem ws } := by
  induction ws generalizing s with
  | nil => rfl
  | cons c ws ih =>
    obtain ⟨hc, hws⟩ := List.forall_mem_cons.1 h
    rw [memWriteBytes, (memWriteByte_eq s c.1 c.2).1 hc]
    exact ih hws

/-- Where every byte is dropped, so is the list. -/
theorem memWriteBytes_dropped (h : ∀ c ∈ ws, memWriteByte s c.1 c.2 = .ok s) : memWriteBytes s ws = .ok s := by
  induction ws with
  | nil => rfl
  | cons c ws ih =>
    obtain ⟨hc, hws⟩ := List.forall_mem_cons.1 h
    rw [memWriteBytes, hc]
    exact ih hws

/-- The first unbacked byte, after bytes that are dropped, ends the writes. -/
theorem memWriteBytes_error_after_dropped {n : Nat} {pa : Word} (hn : n < ws.length)
    (hdrop : ∀ c ∈ ws.take n, memWriteByte s c.1 c.2 = .ok s) (herr : memWriteByte s ws[n].1 ws[n].2 = .error pa) :
    memWriteBytes s ws = .error pa := by
  induction n generalizing ws with
  | zero =>
    obtain ⟨c, ws, rfl⟩ := List.exists_cons_of_length_pos hn
    rw [memWriteBytes, show memWriteByte s c.1 c.2 = .error pa from herr]
  | succ n ih =>
    obtain ⟨c, ws, rfl⟩ := List.exists_cons_of_length_pos (Nat.zero_lt_of_lt hn)
    obtain ⟨hc, hws⟩ := List.forall_mem_cons.1 hdrop
    rw [memWriteBytes, hc]
    exact ih (Nat.lt_of_succ_lt_succ hn) hws herr

/-- What is read where every write to the address agrees. -/
theorem read_writeAll {m : Memory} {a : Nat} {v : Byte} (hm : m.wf) (hv : ∀ c ∈ ws, (translateVa c.1).toNat = a → c.2 = v)
    (h : m.read a = v ∨ ∃ c ∈ ws, (translateVa c.1).toNat = a) : (writeAll m ws).read a = v := by
  induction ws generalizing m with
  | nil => exact h.resolve_right (by simp)
  | cons c ws ih =>
    obtain ⟨hc, hws⟩ := List.forall_mem_cons.1 hv
    refine ih (write_wf _ _ hm) hws ?_
    rw [read_write hm]
    by_cases ha : a = (translateVa c.1).toNat
    · exact .inl ((if_pos ha).trans (hc ha.symm))
    · rw [if_neg ha]
      refine h.imp_right fun ⟨d, hd, hda⟩ => ?_
      obtain rfl | hd := List.mem_cons.1 hd
      · exact absurd hda.symm ha
      · exact ⟨d, hd, hda⟩

/-- A store of bytes one at a time, all writable, whose list holds byte `j` of the access at `start + j`. -/
theorem completes_store_bytes {i : Instr} {start n : Nat} {byte : Nat → Byte}
    (hexec : exec i s = finishStore (memWriteBytes (advance s) ws) (advance s)) (hm : s.mem.wf)
    (hw : ∀ j < n, Writable (start + j)) (hin : ∀ c ∈ ws, ∃ j < n, (translateVa c.1).toNat = start + j ∧ c.2 = byte j)
    (hall : ∀ j < n, ∃ c ∈ ws, (translateVa c.1).toNat = start + j) : Completes i s (fun t => Stores s t start n byte) := by
  refine completes_store hexec (memWriteBytes_writable fun c hc => ?_) (fun j hj => ?_) (fun a ha => ?_)
  · obtain ⟨j, hj, haddr, -⟩ := hin c hc
    rw [haddr]
    exact hw j hj
  · refine read_writeAll hm (fun c hc haddr => ?_) (.inr (hall j hj))
    obtain ⟨j', -, haddr', hbyte⟩ := hin c hc
    obtain rfl : j' = j := by omega
    exact hbyte
  · refine read_writeAll hm (fun c hc haddr => ?_) (.inl rfl)
    obtain ⟨j, hj, haddr', -⟩ := hin c hc
    omega

end

/-! ### Partial stores -/

theorem mem_swlWrites {ea v : Word} {c : Word × Byte} :
    c ∈ swlWrites ea v ↔ ∃ j < ea.toNat % 4 + 1, (wordAddr ea + BitVec.ofNat 32 j, byteOf v (3 - ea.toNat % 4 + j)) = c := by
  simp [swlWrites, byteOffset_eq]

theorem mem_swrWrites {ea v : Word} {c : Word × Byte} :
    c ∈ swrWrites ea v ↔ ∃ j < 4 - ea.toNat % 4, (ea + BitVec.ofNat 32 j, byteOf v j) = c := by
  simp [swrWrites, byteOffset_eq, show 3 - ea.toNat % 4 + 1 = 4 - ea.toNat % 4 by omega]

/-- Settles O29: both lists hold byte `j` of the access at its `j`-th address, whatever their order. -/
theorem partialStoresWriteExactlyTheirBytes : Obligations.PartialStoresWriteExactlyTheirBytes := by
  intro s rt rs offset ea k pa byte hm hw
  have hk : k < 4 := Nat.mod_lt _ (by decide)
  have hpa : pa % 4 = 0 := translateVa_wordAddr_mod_four ea
  have hword (j : Nat) (hj : j < 4) : Writable (pa + j) := (writable_iff_of_same_word (by omega)).1 hw
  constructor
  · have haddr (j : Nat) (hj : j < k + 1) := translateVa_add (wordAddr_aligned ea) (i := j) (by omega)
    refine completes_store_bytes rfl hm (fun j hj => hword j (by omega)) (fun c hc => ?_) (fun j hj => ?_)
    · obtain ⟨j, hj, rfl⟩ := mem_swlWrites.1 hc
      exact ⟨j, hj, haddr j hj, rfl⟩
    · exact ⟨_, mem_swlWrites.2 ⟨j, hj, rfl⟩, haddr j hj⟩
  · have haddr (j : Nat) (hj : j < 4 - k) := (translateVa_add_in_word (va := ea) (j := j) (by omega)).trans (Nat.add_assoc pa k j).symm
    refine completes_store_bytes rfl hm (fun j hj => ?_) (fun c hc => ?_) (fun j hj => ?_)
    · rw [Nat.add_assoc]
      exact hword (k + j) (by omega)
    · obtain ⟨j, hj, rfl⟩ := mem_swrWrites.1 hc
      exact ⟨j, hj, haddr j hj, rfl⟩
    · exact ⟨_, mem_swrWrites.2 ⟨j, hj, rfl⟩, haddr j hj⟩

/-! ### Dropped and unbacked stores -/

/-- The bytes of an aligned word that the image covers are each covered. -/
theorem imageCovers_byte {s : State} {pa wordPa : Word} (hmod : wordPa.toNat % 4 = 0) (hword : pa.toNat / 4 = wordPa.toNat / 4)
    (h : ImageCovers s wordPa 4) : ImageCovers s pa 1 := by
  unfold ImageCovers InBios at *
  omega

/-- The bytes of an aligned word below one that the image covers are covered too. -/
theorem imageCovers_lower_byte {s : State} {pa lower : Word} (hword : lower.toNat / 4 = pa.toNat / 4) (hle : lower.toNat ≤ pa.toNat)
    (h : ImageCovers s pa 1) : ImageCovers s lower 1 := by
  unfold ImageCovers InBios at *
  omega

/-- A list of bytes in no writable device that the image covers is dropped. -/
theorem memWriteBytes_dropped_of_covers {s : State} {ws : List (Word × Byte)} {pa : Word} (hpa : ¬ Writable pa.toNat)
    (h : ∀ c ∈ ws, (translateVa c.1).toNat / 4 = pa.toNat / 4 ∧ ImageCovers s (translateVa c.1) 1) :
    memWriteBytes (advance s) ws = .ok (advance s) :=
  memWriteBytes_dropped fun c hc =>
    (memWriteByte_eq _ _ _).2.1 (mt (writable_iff_of_same_word (h c hc).1).1 hpa) (h c hc).2

/-- The bytes of `swl` and `swr` lie in the aligned word of their address. -/
theorem swlWrites_same_word {ea v : Word} {c : Word × Byte} (h : c ∈ swlWrites ea v) :
    (translateVa c.1).toNat / 4 = (translateVa ea).toNat / 4 := by
  have hrange := swlWrites_range h
  have hword := translateVa_eq_word_add ea
  have hk := byteOffset_lt_four ea
  have hmod := translateVa_wordAddr_mod_four ea
  omega

theorem swrWrites_same_word {ea v : Word} {c : Word × Byte} (h : c ∈ swrWrites ea v) :
    (translateVa c.1).toNat / 4 = (translateVa ea).toNat / 4 := by
  have hrange := swrWrites_range h
  have hword := translateVa_eq_word_add ea
  have hk := byteOffset_lt_four ea
  have hmod := translateVa_wordAddr_mod_four ea
  omega

theorem translateVa_same_word (ea : Word) : (translateVa ea).toNat / 4 = (translateVa (wordAddr ea)).toNat / 4 := by
  have hword := translateVa_eq_word_add ea
  have hk := byteOffset_lt_four ea
  have hmod := translateVa_wordAddr_mod_four ea
  omega

/-- Settles O31: a covered byte outside RAM and the scratchpad is dropped, and so is a list of them. -/
theorem droppedStoresOnlyAdvance : Obligations.DroppedStoresOnlyAdvance := by
  intro s rt rs offset ea pa advances hpa
  refine ⟨fun hcovers => ⟨?_, ?_⟩, fun heven hcovers => ?_, fun haligned hcovers => ?_, fun hcovers => ?_⟩
  · exact completes_store_dropped rfl ((memWriteByte_eq _ _ _).2.1 hpa hcovers)
  · refine completes_store_dropped rfl (memWriteBytes_dropped_of_covers hpa fun c hc => ⟨swlWrites_same_word hc, ?_⟩)
    exact imageCovers_lower_byte (swlWrites_same_word hc) (swlWrites_range hc).2 hcovers
  · exact completes_store_dropped (exec_of_aligned rfl (aligned2_of_even heven)) ((memWriteHalf_eq _ _ heven).2.1 hpa hcovers)
  · exact completes_store_dropped (exec_of_aligned rfl (aligned4_of_mod haligned)) ((memWriteWord_eq _ _ haligned).2.1 hpa hcovers)
  · refine completes_store_dropped rfl (memWriteBytes_dropped_of_covers hpa fun c hc => ⟨swrWrites_same_word hc, ?_⟩)
    exact imageCovers_byte (translateVa_wordAddr_mod_four ea) ((swrWrites_same_word hc).trans (translateVa_same_word ea)) hcovers

/-- `swl` starts at its effective address (R224). -/
theorem swlWrites_eq_cons (ea v : Word) : ∃ ws, swlWrites ea v = (ea, byteOf v 3) :: ws := by
  have hk := byteOffset_lt_four ea
  have h3 : 3 - byteOffset ea + byteOffset ea = 3 := by omega
  simp [swlWrites, List.range_succ, wordAddr_add_byteOffset, h3]

theorem swrWrites_length (ea v : Word) : (swrWrites ea v).length = 4 - ea.toNat % 4 := by
  simp [swrWrites, byteOffset_eq]
  omega

theorem swrWrites_getElem (ea v : Word) {n : Nat} (hn : n < (swrWrites ea v).length) :
    (swrWrites ea v)[n] = (ea + BitVec.ofNat 32 n, byteOf v n) := by
  simp [swrWrites]

/-- Within the word of an address, translation keeps the distance from it. -/
theorem translateVa_add_from {va : Word} {j : Nat} (h : va.toNat % 4 + j < 4) :
    (translateVa (va + BitVec.ofNat 32 j)).toNat = (translateVa va).toNat + j := by
  rw [translateVa_add_in_word h, translateVa_eq_word_add va, byteOffset_eq, Nat.add_assoc]

/-- `swr` passes its bytes within the image and ends at the first byte after it (R225, notes/assumptions 7). -/
theorem memWriteBytes_swr_error {s : State} {ea : Word} (v : Word) {n : Nat} (hn : ea.toNat % 4 + n < 4)
    (hbios : InBios (translateVa ea).toNat) (hend : (translateVa ea).toNat + n = 0x1FC00000 + s.biosLen) :
    memWriteBytes s (swrWrites ea v) = .error (translateVa (ea + BitVec.ofNat 32 n)) := by
  have hmod := translateVa_mod_four ea
  have hlen := swrWrites_length ea v
  unfold InBios at hbios
  refine memWriteBytes_error_after_dropped (n := n) (by omega) (fun c hc => ?_) ?_
  · obtain ⟨j, hj, rfl⟩ := List.mem_take_iff_getElem.1 hc
    have hj' : j < n := by omega
    have haddr := translateVa_add_from (va := ea) (j := j) (by omega)
    rw [swrWrites_getElem]
    dsimp only
    refine (memWriteByte_eq _ _ _).2.1 ?_ ?_
    · unfold Writable
      omega
    · unfold ImageCovers
      omega
  · have haddr := translateVa_add_from hn
    rw [swrWrites_getElem]
    dsimp only
    refine (memWriteByte_eq _ _ _).2.2 ?_
    unfold ImageCovers InBios
    omega

/-- The first byte of a list, unbacked, ends the writes. -/
theorem memWriteBytes_head_error {s : State} {va pa : Word} {v : Byte} {ws : List (Word × Byte)}
    (h : memWriteByte s va v = .error pa) : memWriteBytes s ((va, v) :: ws) = .error pa := by
  rw [memWriteBytes, h]

/-- `swr` starts at its effective address (R225). -/
theorem swrWrites_eq_cons (ea v : Word) : ∃ ws, swrWrites ea v = (ea, byteOf v 0) :: ws := by
  simp [swrWrites, List.range_succ_eq_map]

/-- Where the image covers an address and not its whole word, it ends in that word, at or after the next address. -/
theorem image_ends_in_word {s : State} {ea : Word} (hin : ImageCovers s (translateVa ea) 1)
    (hout : ¬ ImageCovers s (translateVa (wordAddr ea)) 4) :
    InBios (translateVa ea).toNat ∧
      ∃ n, ea.toNat % 4 + n < 4 ∧ (translateVa ea).toNat + n = 0x1FC00000 + s.biosLen := by
  have hword := translateVa_eq_word_add ea
  have hmod := translateVa_wordAddr_mod_four ea
  have hk := byteOffset_eq ea
  unfold ImageCovers InBios at *
  exact ⟨by omega, 0x1FC00000 + s.biosLen - (translateVa ea).toNat, by omega, by omega⟩

/-- Settles O27: each access starts in the window and past the image, so its read or write answers the error; `swl` and `swr` stop at their first such byte. -/
theorem accessPastTheImageEndsInBusFault : Obligations.AccessPastTheImageEndsInBusFault := by
  intro s rt rs offset ea faults pa wordPa
  refine ⟨fun h => ⟨?_, ?_, ?_, ?_, ?_⟩, fun heven h => ⟨?_, ?_, ?_⟩, fun haligned h => ⟨?_, ?_⟩, fun h => ⟨?_, ?_⟩, fun hin hout => ?_⟩
  · exact completes_load_fault rfl (map_eq_error ((memReadByte_eq s ea).2 h) _)
  · exact completes_load_fault rfl (map_eq_error ((memReadByte_eq s ea).2 h) _)
  · exact completes_store_fault rfl ((memWriteByte_eq _ _ _).2.2 h)
  · obtain ⟨ws, hws⟩ := swlWrites_eq_cons ea (s.reg rt)
    exact completes_store_fault rfl (hws ▸ memWriteBytes_head_error ((memWriteByte_eq _ _ _).2.2 h))
  · obtain ⟨ws, hws⟩ := swrWrites_eq_cons ea (s.reg rt)
    exact completes_store_fault rfl (hws ▸ memWriteBytes_head_error ((memWriteByte_eq _ _ _).2.2 h))
  · exact completes_load_fault (exec_of_aligned rfl (aligned2_of_even heven)) (map_eq_error ((memReadHalf_eq s heven).2 h) _)
  · exact completes_load_fault (exec_of_aligned rfl (aligned2_of_even heven)) (map_eq_error ((memReadHalf_eq s heven).2 h) _)
  · exact completes_store_fault (exec_of_aligned rfl (aligned2_of_even heven)) ((memWriteHalf_eq _ _ heven).2.2 h)
  · exact completes_load_fault (exec_of_aligned rfl (aligned4_of_mod haligned)) ((memReadWord_eq s haligned).2 h)
  · exact completes_store_fault (exec_of_aligned rfl (aligned4_of_mod haligned)) ((memWriteWord_eq _ _ haligned).2.2 h)
  · exact completes_load_fault rfl (map_eq_error ((memReadWord_eq s (wordAddr_aligned ea)).2 h) _)
  · exact completes_load_fault rfl (map_eq_error ((memReadWord_eq s (wordAddr_aligned ea)).2 h) _)
  · obtain ⟨hbios, n, hn, hend⟩ := image_ends_in_word hin hout
    have hfault : translateVa (ea + BitVec.ofNat 32 n) = BitVec.ofNat 32 (0x1FC00000 + s.biosLen) := by
      rw [← hend, ← translateVa_add_from hn, BitVec.ofNat_toNat, BitVec.setWidth_eq]
    rw [← hfault]
    exact completes_store_fault rfl (memWriteBytes_swr_error (s := advance s) _ hn hbios hend)

/-! ### A store and then a load -/

/-- `lw` at an aligned address whose base register is as in `s`, by what that word reads. -/
theorem lw_completes {s t : State} {rd rs : Reg} {offset : BitVec 16} {v : Word} (hrd : rd ≠ 0)
    (haligned : (effAddr s rs offset).toNat % 4 = 0) (hreg : t.reg rs = s.reg rs)
    (hread : memReadWord t (effAddr s rs offset) = .ok v) : Completes (.lw rd offset rs) t (fun u => u.reg rd = v) := by
  have hea : effAddr t rs offset = effAddr s rs offset := by rw [effAddr, effAddr, hreg]
  rw [← hea] at haligned hread
  obtain ⟨u, hu, hw⟩ := completes_load (i := .lw rd offset rs) (exec_of_aligned rfl (aligned4_of_mod haligned)) hread
  exact ⟨u, hu, hw.value.trans (if_neg hrd)⟩

/-- An aligned word of RAM or the scratchpad reads back as stored (R48, R49). -/
theorem memReadWord_of_stores {s t : State} {va v : Word} (haligned : va.toNat % 4 = 0) (hw : Writable (translateVa va).toNat)
    (h : Stores s t (translateVa va).toNat 4 (fun k => v.extractLsb' (8 * k) 8)) : memReadWord t va = .ok v := by
  have hmod := (translateVa_mod_four va).trans haligned
  have hbyte (k : Nat) (hk : k < 4) : physByte t ((translateVa va).toNat + k) = byteOf v k := by
    rw [physByte_device (.inl ((aligned_region hmod (by decide) hk).1.2 hw))]
    exact h.stored k hk
  have hcovers : ImageCovers t (translateVa va) 4 := fun hb => by
    unfold Writable InBios at *
    omega
  rw [(memReadWord_eq t haligned).1 hcovers]
  congr 1
  exact eq_of_byteOf_eq fun k hk => (byteOf_append (fun k => physByte t ((translateVa va).toNat + k)) hk).trans (hbyte k hk)

/-- An aligned word that the image covers, as the memory holds it, or 0 in no device (R48, R51). -/
theorem memReadWord_of_covers (s : State) {va : Word} (haligned : va.toNat % 4 = 0) (h : ImageCovers s (translateVa va) 4) :
    memReadWord s va = .ok (if Writable (translateVa va).toNat ∨ InBios (translateVa va).toNat
      then s.mem.read32 (translateVa va).toNat else 0) :=
  (busRead_aligned s _ ((translateVa_mod_four va).trans haligned) (.inr (.inr rfl))).1 h

theorem read32_of_memoryKept {s t : State} (h : MemoryKept s t) (a : Nat) : t.mem.read32 a = s.mem.read32 a := by
  simp only [Memory.read32, h.2]

/-- Settles O32: stored bytes read back in RAM and the scratchpad; elsewhere the store is dropped (O31) and the memory kept. -/
theorem storeThenLoadRoundTrip : Obligations.StoreThenLoadRoundTrip := by
  intro s rt rd rs offset ea pa b loads hrd haligned
  have hdropped (hw : ¬ Writable pa.toNat) (hcovers : ImageCovers s pa 4) :
      loads (if InBios pa.toNat then s.mem.read32 pa.toNat else 0) := by
    obtain ⟨-, -, hsw, -⟩ := droppedStoresOnlyAdvance s rt rs offset hw
    obtain ⟨t, ht, hmoves⟩ := hsw haligned hcovers
    have hcovers' : ImageCovers t pa 4 := fun hb => by rw [hmoves.memory.1]; exact hcovers hb
    refine ⟨t, ht, lw_completes hrd haligned (hmoves.regs rs) ((memReadWord_of_covers t haligned hcovers').trans ?_)⟩
    exact congrArg Except.ok (if_congr (or_iff_right hw) (read32_of_memoryKept hmoves.memory pa.toNat) rfl)
  refine ⟨fun hm hw => ?_, fun hb hcovers => ?_, fun hw hb => ?_⟩
  · obtain ⟨-, -, hsw⟩ := storesWriteExactlyTheirBytes s rt rs offset hm hw
    obtain ⟨t, ht, hst⟩ := hsw haligned
    exact ⟨t, ht, lw_completes hrd haligned (hst.regs rs) (memReadWord_of_stores haligned hw hst)⟩
  · have hw : ¬ Writable pa.toNat := by
      unfold Writable InBios at *
      omega
    have h := hdropped hw hcovers
    rwa [if_pos hb] at h
  · have h := hdropped hw fun h => absurd h hb
    rwa [if_neg hb] at h

end Sys2Proof.Machine

/-! Proofs: the cycle (spec 40_cycle.md; 70_reset_and_hazards.md R312, R313, R317). -/

namespace Sys2Proof.Machine

/-! ### A cycle by what its fetch answers -/

section
variable {s : State} {i : Instr} {w : Word}

theorem step_of_fetch_instr (hrun : s.halt = .running) (h : fetch s = .instr i) : step s = exec i s := by
  simp [step, hrun, h]

theorem step_of_fetch_ended {r : Result} (hrun : s.halt = .running) (h : fetch s = .ended r) : step s = r := by
  simp [step, hrun, h]

/-- A word at `pc` that decodes runs (R102-R106). -/
theorem step_of_decodeWord (hrun : s.halt = .running) (haligned : s.pc.toNat % 4 = 0) (hread : memReadWord s s.pc = .ok w)
    (hdecode : decodeWord w = .ok i) : step s = exec i s :=
  step_of_fetch_instr hrun (by simp [fetch, aligned4_of_mod haligned, hread, hdecode])

theorem step_of_not_running (h : s.halt ≠ .running) : step s = .fault .halted := by
  unfold step
  cases hhalt : s.halt with
  | running => exact absurd hhalt h
  | excepted r => rfl
  | decodeFault w => rfl
  | refused m => rfl
  | busFault pa => rfl

end

/-- Settles O36: `decode` on four bytes is `decodeWord` on the word that the fetch reads. -/
theorem stepRunsTheDecodedInstruction : Obligations.StepRunsTheDecodedInstruction := by
  intro s i pa b hrun haligned hcovers hdecode
  obtain ⟨hword, -⟩ := decode_cons4.1 hdecode
  exact step_of_decodeWord hrun haligned ((memReadWord_eq s haligned).1 hcovers) hword

/-- Settles O37: the three ends of a fetch that answers no instruction. -/
theorem failedFetchLeavesPc : Obligations.FailedFetchLeavesPc := by
  intro s hrun pa b w ends
  have hends {h : Halt} (hf : fetch s = .ended (.next { s with halt := h })) : ends h :=
    ⟨_, step_of_fetch_ended hrun hf, moves_pc_halt s s.pc h⟩
  refine ⟨fun hmis => hends ?_, fun haligned hout => hends ?_, fun haligned hcovers hno => hends ?_⟩
  · simp [fetch, aligned4_eq, hmis, raise]
  · simp [fetch, aligned4_of_mod haligned, (memReadWord_eq s haligned).2 hout, busFault, pa]
  · have hread : memReadWord s s.pc = .ok w := (memReadWord_eq s haligned).1 hcovers
    cases hdecode : decodeWord w with
    | error e => simp [fetch, aligned4_of_mod haligned, hread, hdecode, decodeFault]
    | ok i => exact absurd hdecode (hno i)

/-! ### Every instruction answers a next state -/

theorem checkAlign_next {ok : Bool} {ia ea : Word} {s : State} {body : Result} (hbody : ∃ t, body = .next t) :
    ∃ t, checkAlign ok ia ea s body = .next t := by
  cases ok with
  | false => exact ⟨_, rfl⟩
  | true => exact hbody

theorem finishLoad_next (rt : Reg) (value : Except Word Word) (s : State) : ∃ t, finishLoad rt value (advance s) = .next t :=
  (finishLoad_cases rt value s).imp fun _ h => h.1

theorem finishStore_next (stored : Except Word State) (s : State) : ∃ t, finishStore stored (advance s) = .next t :=
  (finishStore_cases stored s).imp fun _ h => h.1

/-- No instruction's meaning ends in a fault or a refusal. -/
theorem exec_next (i : Instr) (s : State) : ∃ t, exec i s = .next t := by
  cases i with
  | add | sub | addi => exact (writeOrTrap_cases _ _ _ s).imp fun _ h => h.1
  | jr | jalr => exact ⟨_, jumpRegister_cases _ _ _⟩
  | lb | lbu | lwl | lwr => exact finishLoad_next _ _ s
  | lh | lhu | lw => exact checkAlign_next (finishLoad_next _ _ s)
  | sb | swl | swr => exact finishStore_next _ s
  | sh | sw => exact checkAlign_next (finishStore_next _ s)
  | addu | subu | addiu | and | or | xor | nor | andi | ori | xori | lui | slt | sltu | slti | sltiu => exact ⟨_, rfl⟩
  | sll | srl | sra | sllv | srlv | srav | mfhi | mflo | mthi | mtlo | mult | multu | div | divu => exact ⟨_, rfl⟩
  | beq | bne | blez | bgtz | bltz | bgez | bltzal | bgezal | j | jal => exact ⟨_, rfl⟩
  | syscall | break_ | tlbr | tlbwi | tlbwr | tlbp | rfe => exact ⟨_, rfl⟩
  | mfc0 | cfc0 | mtc0 | ctc0 | bc0f | bc0t | lwc0 | swc0 => exact ⟨_, rfl⟩
  | mfc1 | cfc1 | mtc1 | ctc1 | bc1f | bc1t | cop1 | lwc1 | swc1 => exact ⟨_, rfl⟩
  | mfc2 | cfc2 | mtc2 | ctc2 | bc2f | bc2t | cop2 | lwc2 | swc2 => exact ⟨_, rfl⟩
  | mfc3 | cfc3 | mtc3 | ctc3 | bc3f | bc3t | cop3 | lwc3 | swc3 => exact ⟨_, rfl⟩

theorem step_next {s : State} (hrun : s.halt = .running) : ∃ t, step s = .next t := by
  obtain ⟨-, hf⟩ | ⟨-, pa, -, hf⟩ | ⟨-, w, -, ⟨e, -, hf⟩ | ⟨i, -, hf⟩⟩ := fetch_cases s
  · exact ⟨_, step_of_fetch_ended hrun hf⟩
  · exact ⟨_, step_of_fetch_ended hrun hf⟩
  · exact ⟨_, step_of_fetch_ended hrun hf⟩
  · rw [step_of_fetch_instr hrun hf]
    exact exec_next i s

/-- Settles O38, by `exec_next` and `step_cases`. -/
theorem stepIsDefinedExactlyWhileRunning : Obligations.StepIsDefinedExactlyWhileRunning := by
  refine fun s => ⟨⟨step_next, fun ⟨t, ht⟩ => ?_⟩, step_of_not_running⟩
  exact (step_cases ht).1

/-! ### Where no device is -/

/-- The word 0 is `sll r0, r0, 0` (R82). -/
theorem decodeWord_zero : decodeWord 0 = .ok (.sll 0 0 0) := by decide

/-- Settles O39: every access is routed as unknown, and the fetched 0 is an `sll` to register 0. -/
theorem unknownAddressesReadZeroAndIgnoreWrites : Obligations.UnknownAddressesReadZeroAndIgnoreWrites := by
  intro s pa b h w hw hb
  have hread {n k : Nat} (v : BitVec n) : busRead s pa k v = .ok 0 := by rw [busRead, route_unknown hw hb]
  have hwrite {k : Nat} (m : Memory) : busWrite s pa k m = .ok s := by rw [busWrite, route_unknown hw hb]
  refine ⟨hread _, hread _, hread _, hwrite _, hwrite _, hwrite _, fun hrun haligned htrans => ?_⟩
  have hword : memReadWord s s.pc = .ok 0 := by
    subst htrans
    exact hread _
  obtain ⟨t, ht, hwrites⟩ := writeResult_writes 0 (s.reg 0 <<< 0) s
  rw [hrun] at hwrites
  exact ⟨t, (step_of_decodeWord hrun haligned hword decodeWord_zero).trans ht, hwrites.moves_of_zero⟩

/-! ### The next fetch after a store, and the first after construction or reset -/

/-- Settles O45: the stored word reads back at the translated address that the next fetch reads. -/
theorem nextFetchSeesTheStore : Obligations.NextFetchSeesTheStore := by
  intro s rt rs offset i ea hm hrun htrans haligned hw hdecode
  have hea : ea.toNat % 4 = 0 := by rw [← translateVa_mod_four, htrans, translateVa_mod_four, haligned]
  obtain ⟨-, -, hsw⟩ := storesWriteExactlyTheirBytes s rt rs offset hm hw
  obtain ⟨t, ht, hst⟩ := hsw hea
  refine ⟨t, ht, ?_⟩
  have hread : memReadWord t t.pc = .ok (s.reg rt) := by
    have h := memReadWord_of_stores hea hw hst
    rw [memReadWord, htrans] at h
    rw [memReadWord, hst.pc]
    exact h
  exact step_of_decodeWord (hst.halt.trans hrun) (by rw [hst.pc]; exact haligned) hread hdecode

theorem translateVa_resetPc : translateVa Config.resetPc = 0x1FC00000 := by decide

section
variable {s : State} {i : Instr}

/-- From the reset address the first cycle runs the word at BIOS offset 0 (R312). -/
theorem step_from_resetPc (hpc : s.pc = Config.resetPc) (hrun : s.halt = .running) (hlen : 4 ≤ s.biosLen)
    (hdecode : decode [s.mem.read 0x1FC00000, s.mem.read 0x1FC00001, s.mem.read 0x1FC00002, s.mem.read 0x1FC00003] = .ok (i, [])) :
    step s = exec i s := by
  have hbyte {k : Nat} (hk : k < 4) : physByte s (0x1FC00000 + k) = s.mem.read (0x1FC00000 + k) :=
    physByte_device (.inr ⟨by omega, by omega⟩)
  refine stepRunsTheDecodedInstruction s i hrun (by rw [hpc]; decide) ?_ ?_ <;> rw [hpc, translateVa_resetPc]
  · exact fun _ => hlen
  · rw [← hdecode]
    change decode [physByte s (0x1FC00000 + 0), physByte s (0x1FC00000 + 1), physByte s (0x1FC00000 + 2), physByte s (0x1FC00000 + 3)] = _
    rw [hbyte (by decide), hbyte (by decide), hbyte (by decide), hbyte (by decide)]

/-- From the reset address, with no image, the first cycle ends in BusFault (R313). -/
theorem step_from_resetPc_of_no_image (hpc : s.pc = Config.resetPc) (hrun : s.halt = .running) (hlen : s.biosLen = 0) :
    ∃ t, step s = .next t ∧ Moves s t 0xBFC00000 (.busFault 0x1FC00000) := by
  obtain ⟨-, hfault, -⟩ := failedFetchLeavesPc s hrun
  have hout : ¬ ImageCovers s (translateVa s.pc) 4 := by
    rw [hpc, translateVa_resetPc]
    unfold ImageCovers
    rw [hlen]
    decide
  have h := hfault (by rw [hpc]; decide) hout
  rw [hpc, translateVa_resetPc] at h
  exact h

end

/-- Settles O54: both states fetch at the reset address. -/
theorem firstCycleRunsTheWordAtBiosOffsetZero : Obligations.FirstCycleRunsTheWordAtBiosOffsetZero := by
  refine ⟨fun p hp => ⟨fun b0 b1 b2 b3 rest i hbios hdecode => ?_, fun hbios => ?_⟩, fun s i => ⟨fun hlen hdecode => ?_, fun hlen => ?_⟩⟩
  · have hread {k : Nat} {b : Byte} (h : (b0 :: b1 :: b2 :: b3 :: rest)[k]? = some b) := read_construct_bios hp (hbios ▸ h)
    have hlen : 4 ≤ (construct p).biosLen := by simp [construct, hbios]
    refine step_from_resetPc rfl rfl hlen ?_
    rw [← hdecode, ← hread (k := 0) rfl, ← hread (k := 1) rfl, ← hread (k := 2) rfl, ← hread (k := 3) rfl]
  · exact step_from_resetPc_of_no_image rfl rfl (congrArg List.length hbios)
  · exact step_from_resetPc rfl rfl hlen hdecode
  · obtain ⟨t, ht, h⟩ := step_from_resetPc_of_no_image (s := resetEvent s) rfl rfl hlen
    exact ⟨t, ht, h.pc, h.halt, h.regs, h.hi, h.lo, h.memory⟩

end Sys2Proof.Machine
